-- ==== Sys2Proof/Config.lean ====
section
/-! DEFINITION. The parameters of the block (00_scope.md R7) with the value this hardware takes.
Everything an implementation fixes is here; the environment's free choice to fail a port access
(R80, parameter IOFAIL) is an input and stands in State (field `draws`). `CW`, `BITORDER` and `PADBIT` take the
defaults of R7. DESIGN CHOICE, unsafe for another configuration (notes/assumptions/10.md). -/

namespace Sys2Proof

/-- Order of bits inside a byte of the packed stream (R69, parameter BITORDER). -/
inductive BitOrder where
  | msbFirst
  | lsbFirst
  deriving DecidableEq, Repr

namespace Config

/-- `CW`: width of one frequency counter (R7, R21). -/
abbrev cw : Nat := 32

/-- `NW = CW + 8`: width of a node's frequency (R7, R158). -/
abbrev nw : Nat := cw + 8

/-- `HW`: width of a node handle (R7, R24). -/
abbrev hw : Nat := 9

/-- `NSYMMAX`: the largest alphabet (R7, R20). -/
abbrev numSymbols : Nat := 256

/-- `NNODEMAX = 2 * NSYMMAX - 1`: records in the node arena (R7, R24). -/
abbrev numNodes : Nat := 511

/-- `MAXDEPTH`: the largest code length (R7, R34, R174). -/
abbrev maxDepth : Nat := 255

/-- `BITORDER`: this hardware's environment packs high-to-low (R69). -/
def bitOrder : BitOrder := .msbFirst

/-- `PADBIT`: the value of the pad bits at finalize (R70). -/
def padBit : Bool := false

end Config

end Sys2Proof
end

