-- ==== Sys2Proof/Word.lean ====
section
/-! DEFINITION. The word types of the block: one name for each width of 00_scope.md R7.
All arithmetic of the block is on unsigned values of these widths (R136). -/

namespace Sys2Proof

/-- A byte on a byte port (R74). -/
abbrev Byte := BitVec 8

/-- A Symbol, an unsigned 8-bit value wherever it appears (R20). -/
abbrev Symbol := BitVec 8

/-- A frequency counter (R21). -/
abbrev Count := BitVec Config.cw

/-- A node's frequency (R24, R158). -/
abbrev NodeFreq := BitVec Config.nw

/-- A node handle, an index into the arena (R24). -/
abbrev Handle := BitVec Config.hw

/-- A command word (R100). -/
abbrev CmdWord := BitVec 64

/-- A response word (R107). -/
abbrev RspWord := BitVec 64

/-- The value field of a response word (R107). -/
abbrev RspValue := BitVec 56

end Sys2Proof
end

