-- ==== Sys2Proof/Syntax.lean ====
section
/-! DEFINITION. The thirteen commands of `HUFCMD 1.0` (30_encoding.md R103), one constructor per row of
spec/opcode_table.json. An operand has the width of its field (R102), so every term of `Instr` is
well formed by its type; well-formedness proper is a property of command words (WellFormed.lean). -/

namespace Sys2Proof

inductive Instr where
  /-- `CLR` (R232): clear the core state. -/
  | clr
  /-- `REWIND` (R233): move the byte source's cursor back to its first byte. -/
  | rewind
  /-- `STAT` (R234): read the status word. -/
  | stat
  /-- `FACC` (R130): count the bytes of the byte source. -/
  | facc
  /-- `FLOAD sym, count` (R132): load one entry of the Frequency Map. -/
  | fload (sym : Symbol) (count : BitVec 32)
  /-- `FREAD sym` (R133): read one counter. -/
  | fread (sym : Symbol)
  /-- `TBUILD` (R150): build the tree. -/
  | tbuild
  /-- `CGEN` (R170): generate the Code Map. -/
  | cgen
  /-- `CREAD sym, j` (R173): read the length and one 32-bit chunk of a code. -/
  | cread (sym : Symbol) (j : BitVec 3)
  /-- `BENC` (R190): encode the byte source into the bit sink. -/
  | benc
  /-- `BDEC` (R210): decode the bit source into the byte sink. -/
  | bdec
  /-- `ENCODE` (R230): the whole encode run. -/
  | encode
  /-- `DECODE` (R231): build the tree of a loaded map and decode. -/
  | decode
  deriving DecidableEq, Repr

end Sys2Proof
end

