-- ==== Sys2Proof/WellFormed.lean ====
section
/-! DEFINITION. Well-formedness of a command word (30_encoding.md R104): the thirteen match and mask pairs
of R103 as data, and the check that exactly one of them matches. It is written from the match and mask
columns alone and does not use the decoder, which is written from the fields and formats of R100 and R101. -/

namespace Sys2Proof

/-- One row of the opcode map: a word `w` is the command exactly when `w &&& mask = pattern` (R103). -/
structure OpcodeRow where
  mnemonic : String
  pattern : CmdWord
  mask : CmdWord
  deriving DecidableEq, Repr

/-- The opcode map (R103). -/
def opcodeMap : List OpcodeRow :=
  [ ⟨"CLR", 0x0100000000000000#64, 0xFFFFFFFFFFFFFFFF#64⟩,
    ⟨"REWIND", 0x0200000000000000#64, 0xFFFFFFFFFFFFFFFF#64⟩,
    ⟨"STAT", 0x0300000000000000#64, 0xFFFFFFFFFFFFFFFF#64⟩,
    ⟨"FACC", 0x1000000000000000#64, 0xFFFFFFFFFFFFFFFF#64⟩,
    ⟨"FLOAD", 0x1100000000000000#64, 0xFF00FFFF00000000#64⟩,
    ⟨"FREAD", 0x1200000000000000#64, 0xFF00FFFFFFFFFFFF#64⟩,
    ⟨"TBUILD", 0x2000000000000000#64, 0xFFFFFFFFFFFFFFFF#64⟩,
    ⟨"CGEN", 0x3000000000000000#64, 0xFFFFFFFFFFFFFFFF#64⟩,
    ⟨"CREAD", 0x3100000000000000#64, 0xFF00FFFFFFFFFFF8#64⟩,
    ⟨"BENC", 0x4000000000000000#64, 0xFFFFFFFFFFFFFFFF#64⟩,
    ⟨"BDEC", 0x5000000000000000#64, 0xFFFFFFFFFFFFFFFF#64⟩,
    ⟨"ENCODE", 0x6000000000000000#64, 0xFFFFFFFFFFFFFFFF#64⟩,
    ⟨"DECODE", 0x6100000000000000#64, 0xFFFFFFFFFFFFFFFF#64⟩ ]

/-- The word lies in the row (R103). -/
def OpcodeRow.accepts (r : OpcodeRow) (w : CmdWord) : Bool := w &&& r.mask == r.pattern

/-- "A command word is well formed when it matches exactly one row" (R104). -/
def wellFormed (w : CmdWord) : Bool := opcodeMap.countP (·.accepts w) == 1

end Sys2Proof
end

