-- ==== Sys2Proof/Decode.lean ====
section
/-! DEFINITION. Decoding and encoding of command words (30_encoding.md R100 to R105): the fields of R100,
the formats of R101, the opcodes of R103. The decoder is total; a word that is not well formed decodes to
nothing (R105) and the machine answers it with the error EILLEGAL (R111 step 2). -/

namespace Sys2Proof

/-- `OP`, bits 63:56 (R100). -/
def opField (w : CmdWord) : Byte := w.extractLsb' 56 8

/-- `SYM`, bits 55:48 (R100). -/
def symField (w : CmdWord) : Symbol := w.extractLsb' 48 8

/-- `ZERO`, bits 47:32, reserved (R100). -/
def zeroField (w : CmdWord) : BitVec 16 := w.extractLsb' 32 16

/-- `DATA`, bits 31:0 (R100). -/
def dataField (w : CmdWord) : BitVec 32 := w.extractLsb' 0 32

/-- `j`, `DATA[2:0]` (R101 format SJ, R102). -/
def chunkField (w : CmdWord) : BitVec 3 := w.extractLsb' 0 3

/-- `DATA[31:3]`, zero in format SJ (R101). -/
def chunkZeroField (w : CmdWord) : BitVec 29 := w.extractLsb' 3 29

/-- Format Z: no operand, `SYM`, `ZERO` and `DATA` are 0 (R101). -/
def decodeZ (w : CmdWord) (i : Instr) : Option Instr :=
  if symField w = 0 ∧ zeroField w = 0 ∧ dataField w = 0 then some i else none

/-- Format S: operand `SYM`; `ZERO` and `DATA` are 0 (R101). -/
def decodeS (w : CmdWord) (f : Symbol → Instr) : Option Instr :=
  if zeroField w = 0 ∧ dataField w = 0 then some (f (symField w)) else none

/-- Format SD: operands `SYM` and `DATA`; `ZERO` is 0 (R101). -/
def decodeSD (w : CmdWord) (f : Symbol → BitVec 32 → Instr) : Option Instr :=
  if zeroField w = 0 then some (f (symField w) (dataField w)) else none

/-- Format SJ: operands `SYM` and `DATA[2:0]`; `ZERO` and `DATA[31:3]` are 0 (R101). -/
def decodeSJ (w : CmdWord) (f : Symbol → BitVec 3 → Instr) : Option Instr :=
  if zeroField w = 0 ∧ chunkZeroField w = 0 then some (f (symField w) (chunkField w)) else none

/-- The opcode of a command (R103, column `OP`). -/
def Instr.opcode : Instr → Byte
  | .clr => 0x01#8
  | .rewind => 0x02#8
  | .stat => 0x03#8
  | .facc => 0x10#8
  | .fload _ _ => 0x11#8
  | .fread _ => 0x12#8
  | .tbuild => 0x20#8
  | .cgen => 0x30#8
  | .cread _ _ => 0x31#8
  | .benc => 0x40#8
  | .bdec => 0x50#8
  | .encode => 0x60#8
  | .decode => 0x61#8

/-- The command a word stands for, if it is well formed (R103 to R105); the whole `OP` byte is matched. -/
def decode (w : CmdWord) : Option Instr :=
  if opField w = 0x01#8 then decodeZ w .clr
  else if opField w = 0x02#8 then decodeZ w .rewind
  else if opField w = 0x03#8 then decodeZ w .stat
  else if opField w = 0x10#8 then decodeZ w .facc
  else if opField w = 0x11#8 then decodeSD w .fload
  else if opField w = 0x12#8 then decodeS w .fread
  else if opField w = 0x20#8 then decodeZ w .tbuild
  else if opField w = 0x30#8 then decodeZ w .cgen
  else if opField w = 0x31#8 then decodeSJ w .cread
  else if opField w = 0x40#8 then decodeZ w .benc
  else if opField w = 0x50#8 then decodeZ w .bdec
  else if opField w = 0x60#8 then decodeZ w .encode
  else if opField w = 0x61#8 then decodeZ w .decode
  else none

/-- The instruction read from a table word: the one 64-bit command word whose bits above `nbits` are 0. -/
def decodeTableWord (nbits w : Nat) : Option Instr := decode (BitVec.ofNat 64 (w % 2 ^ nbits))

/-- `OP || SYM || ZERO || DATA` with `ZERO = 0` (R100). -/
def assemble (op : Byte) (sym : Symbol) (data : BitVec 32) : CmdWord := op ++ sym ++ 0#16 ++ data

/-- The word of a command (R101, R103, R109). -/
def encode (i : Instr) : CmdWord :=
  match i with
  | .fload sym count => assemble i.opcode sym count
  | .fread sym => assemble i.opcode sym 0
  | .cread sym j => assemble i.opcode sym (j.setWidth 32)
  | .clr => assemble i.opcode 0 0
  | .rewind => assemble i.opcode 0 0
  | .stat => assemble i.opcode 0 0
  | .facc => assemble i.opcode 0 0
  | .tbuild => assemble i.opcode 0 0
  | .cgen => assemble i.opcode 0 0
  | .benc => assemble i.opcode 0 0
  | .bdec => assemble i.opcode 0 0
  | .encode => assemble i.opcode 0 0
  | .decode => assemble i.opcode 0 0

end Sys2Proof
end

