-- ==== Sys2Proof/Machine/State.lean ====
section
/-! DEFINITION. The machine's state as plain data: the core's state (10_state.md), the four stream ports
(20_memory.md section 2), and the environment's two inputs: its answer to each coming port call
(R80, R320) and what the host does between commands (R84, R85). -/

namespace Sys2Proof.Machine

/-- A node of the tree (R24, R25), as the two-constructor variant R24 allows: a leaf has no children and
an internal node has no symbol, so the fields R24 calls unused do not exist. DESIGN CHOICE, safe (notes/assumptions/6.md). -/
inductive Node where
  | leaf (sym : Symbol) (freq : NodeFreq)
  | internal (freq : NodeFreq) (left right : Handle)
  deriving DecidableEq, Repr

/-- One entry of the Code Map (R32): `len` bits, stored left-aligned in 256. -/
structure Code where
  len : BitVec 8
  bits : BitVec 256
  deriving DecidableEq, Repr

/-- The mode of a sink: OPEN, FINAL or ABORTED (R63, R65). -/
inductive SinkMode where
  | opened
  | finalized
  | aborted
  deriving DecidableEq, Repr

/-- `SRC`, the byte source (R61). -/
structure ByteSource where
  data : List Byte
  pos : Nat
  deriving DecidableEq, Repr

/-- `BSNK`, the bit sink (R63). `flushed` is the byte stream under the sink: what `BitFinalize` has made
the environment flush "to the underlying byte sink" (R63, R70, R78). DEDUCED, safe (notes/assumptions/11.md). -/
structure BitSink where
  bits : List Bool
  mode : SinkMode
  flushed : List Byte
  deriving DecidableEq, Repr

/-- `BSRC`, the bit source (R64). -/
structure BitSource where
  bits : List Bool
  pos : Nat
  deriving DecidableEq, Repr

/-- `DSNK`, the byte sink (R65). -/
structure ByteSink where
  data : List Byte
  mode : SinkMode
  deriving DecidableEq, Repr

/-- What happens at one coming call of a port primitive (R80, R320).
* `succeeds`: the primitive does what its rule says;
* `fails`: the environment makes it fail (an abort never fails, R286: there it is as good as `succeeds`);
* `resetStrikes`: a hardware reset cuts the running command, or its fault entry, short just before the call takes
  effect. DEDUCED, safe (notes/assumptions/9.md). -/
inductive PortEvent where
  | succeeds
  | fails
  | resetStrikes
  deriving DecidableEq, Repr

/-- What the outside does between two commands (R84, R85, R320): it issues a command word, replaces a
stream, or resets the core. -/
inductive HostMove where
  | command (w : CmdWord)
  | attachSrc (data : List Byte)
  | attachBsrc (bits : List Bool)
  | attachBsnk
  | attachDsnk
  | reset
  deriving DecidableEq, Repr

/-- The four stream ports by the numbers that `EIO` reports (R80, R283). -/
inductive Port where
  | src
  | bsnk
  | bsrc
  | dsnk
  deriving DecidableEq, Repr

/-- The eight error causes (R280). -/
inductive ErrCode where
  | eempty
  | emissing
  | emalformed
  | eio
  | eillegal
  | eseq
  | eoverflow
  | efaulted
  deriving DecidableEq, Repr

/-- Why the machine stops instead of answering (the block's own faults are no stops: they answer with an
error code, R286). Both stops are SAFE: they stand where the spec gives no value (R28: a record at an index
at or beyond `NCOUNT` "holds no value"), and no state that satisfies `Safety.Inv` reaches them. DEDUCED
(notes/assumptions/7.md). -/
inductive Fault where
  /-- Raised by CGEN, BDEC, DECODE, TBUILD and ENCODE when a handle they follow names no allocated node
  (R28, U6). Safe. -/
  | unallocatedNode
  /-- Raised by CGEN, BDEC, TBUILD, DECODE and ENCODE when the arena is not a tree: a child is asked of a
  leaf, a path is longer than 255 edges, or the builder does not end with one live node (R26, R174). Safe. -/
  | notATree
  deriving DecidableEq, Repr

/-- Why an instruction has no meaning. -/
inductive Refusal where
  /-- Raised by `exec` for an instruction without a meaning yet (none in this model). Safe. -/
  | notModelled (mnemonic : String)
  deriving DecidableEq, Repr

/-- The state of the machine. -/
structure State where
  /-- `FREQ[0..255]` (R21). -/
  freq : Vector Count Config.numSymbols
  /-- `NODE[0..NCOUNT-1]`, the allocated records of the arena; a record at or beyond `NCOUNT` is absent
  (R24, R28). `NCOUNT` is this list's length (`State.ncount`). DESIGN CHOICE, safe (notes/assumptions/4.md). -/
  node : List Node
  /-- `LIVE`, as the list of the handles whose bit is 1, strictly rising (R29). DESIGN CHOICE, safe
  (notes/assumptions/5.md). -/
  live : List Handle
  /-- `NSYM` (R28). -/
  nsym : BitVec 9
  /-- `ROOT` (R30). -/
  root : Handle
  /-- `PTR`, the decoder's current pointer (R36). -/
  ptr : Handle
  /-- `CODE[0..255]` (R32). -/
  code : Vector Code Config.numSymbols
  /-- `FVALID` (R23). -/
  fvalid : Bool
  /-- `TVALID` (R30). -/
  tvalid : Bool
  /-- `CVALID` (R35). -/
  cvalid : Bool
  /-- `EDONE` (R37). -/
  edone : Bool
  /-- `DDONE` (R37). -/
  ddone : Bool
  /-- `FAULT` (R38). -/
  fault : Bool
  /-- `ERRCODE` (R38). -/
  errcode : BitVec 8
  /-- `ERRINFO` (R38). -/
  errinfo : BitVec 16
  /-- `RSP`, the last response word (R40). -/
  rsp : RspWord
  /-- `SRC` (R61). -/
  src : ByteSource
  /-- `BSNK` (R63). -/
  bsnk : BitSink
  /-- `BSRC` (R64). -/
  bsrc : BitSource
  /-- `DSNK` (R65). -/
  dsnk : ByteSink
  /-- The environment's answers to the coming port calls, the next one first; a call beyond the list
  succeeds (R80, parameter IOFAIL). A field of the model, not of the spec. DESIGN CHOICE, safe
  (notes/assumptions/2.md). -/
  draws : List PortEvent
  /-- What the host will do, the next move first; with no move left the core waits (R84, R85, R322). A field of
  the model, not of the spec. DESIGN CHOICE, unsafe (notes/assumptions/3.md and 12.md). -/
  host : List HostMove
  deriving DecidableEq, Repr

/-- `NCOUNT`: the number of allocated nodes, 10 bits (R28). -/
def State.ncount (s : State) : BitVec 10 := BitVec.ofNat 10 s.node.length

/-- `LIVE[i]` (R29). -/
def State.liveBit (s : State) (i : Handle) : Bool := s.live.contains i

/-- `NODE[i]`: the record named by a handle, if it is allocated (R24, R28). -/
def State.nodeAt? (s : State) (i : Handle) : Option Node := s.node[i.toNat]?

/-- `FREQ[s]` (R21). -/
def State.freqAt (s : State) (b : Symbol) : Count := s.freq[b.toNat]'b.isLt

/-- `CODE[s]` (R32). -/
def State.codeAt (s : State) (b : Symbol) : Code := s.code[b.toNat]'b.isLt

/-- The empty code: `len = 0` says that the symbol has no code (R32, R45). -/
def Code.none : Code := ⟨0, 0⟩

/-- The state right after reset: the core's state as R45 gives it; the environment's streams, which reset
does not define (R321), empty, at their first item and open, no port call set to fail, no host move. DESIGN CHOICE,
unsafe (notes/assumptions/1.md, 2.md, 3.md). -/
def State.reset : State where
  freq := Vector.replicate Config.numSymbols 0
  node := []
  live := []
  nsym := 0
  root := 0
  ptr := 0
  code := Vector.replicate Config.numSymbols Code.none
  fvalid := false
  tvalid := false
  cvalid := false
  edone := false
  ddone := false
  fault := false
  errcode := 0
  errinfo := 0
  rsp := 0
  src := ⟨[], 0⟩
  bsnk := ⟨[], .opened, []⟩
  bsrc := ⟨[], 0⟩
  dsnk := ⟨[], .opened⟩
  draws := []
  host := []

end Sys2Proof.Machine
end

