-- ==== Sys2Proof/Machine/Flags.lean ====
section
/-! DEFINITION. Error codes, port numbers, the status word and the tests on flags (10_state.md R39,
60_exceptions.md R280, R284). -/

namespace Sys2Proof.Machine

/-- The code of a cause as it appears in `RSP[63:56]` and in `ERRCODE` (R280). -/
def ErrCode.code : ErrCode → BitVec 8
  | .eempty => 0x01#8
  | .emissing => 0x02#8
  | .emalformed => 0x03#8
  | .eio => 0x04#8
  | .eillegal => 0x10#8
  | .eseq => 0x11#8
  | .eoverflow => 0x12#8
  | .efaulted => 0x13#8

/-- The response code of a command that completed (R107, R280). -/
def okCode : BitVec 8 := 0x00#8

/-- The number of a port in `ERRINFO` (R80). -/
def Port.number : Port → BitVec 16
  | .src => 1#16
  | .bsnk => 2#16
  | .bsrc => 3#16
  | .dsnk => 4#16

/-- The six flags, `FAULT` in bit 5 down to `FVALID` in bit 0 (R39). -/
def State.flagBits (s : State) : BitVec 6 :=
  BitVec.ofBool s.fault ++ BitVec.ofBool s.ddone ++ BitVec.ofBool s.edone ++ BitVec.ofBool s.cvalid ++
    BitVec.ofBool s.tvalid ++ BitVec.ofBool s.fvalid

/-- `STATUS`, the 56-bit status word (R39). -/
def State.status (s : State) : RspValue :=
  0#8 ++ s.errinfo ++ 0#7 ++ s.nsym ++ s.errcode ++ 0#2 ++ s.flagBits

/-- The precondition of a command besides `FAULT = 0` (R284). -/
def State.ready (s : State) : Instr → Bool
  | .clr => true
  | .rewind => true
  | .stat => true
  | .facc => !s.fvalid
  | .fload _ _ => !s.fvalid
  | .fread _ => s.fvalid
  | .tbuild => !s.tvalid
  | .cgen => s.tvalid && !s.cvalid
  | .cread _ _ => s.cvalid
  | .benc => s.cvalid && !s.edone
  | .bdec => s.tvalid && !s.ddone
  | .encode => true
  | .decode => !s.tvalid && !s.ddone

/-- "a well-formed `CLR`" or "a well-formed `STAT`": the commands accepted while `FAULT = 1` (R111, R287). -/
def acceptedInFault : Instr → Bool
  | .clr => true
  | .stat => true
  | .rewind => false
  | .facc => false
  | .fload _ _ => false
  | .fread _ => false
  | .tbuild => false
  | .cgen => false
  | .cread _ _ => false
  | .benc => false
  | .bdec => false
  | .encode => false
  | .decode => false

end Sys2Proof.Machine
end

