-- ==== Sys2Proof/Machine/Operands.lean ====
section
/-! DEFINITION. Operand forms (30_encoding.md R102) and the packing of codes (10_state.md R32,
42_code_table.md R170, R173). Every operand is unsigned and used as it stands. -/

namespace Sys2Proof.Machine

/-- `FLOAD`'s test `count < 2^CW` (R132); it cannot fail at `CW` = 32. -/
def countFits (count : BitVec 32) : Bool := count.toNat < 2 ^ Config.cw

/-- `FLOAD`'s operand as a counter value (R102, R132). -/
def countOperand (count : BitVec 32) : Count := count.setWidth Config.cw

/-- `zext_NW` of a counter (R151). -/
def zextFreq (c : Count) : NodeFreq := c.setWidth Config.nw

/-- `zext_16` of a byte recorded in `ERRINFO` (R286). -/
def zextInfo (b : BitVec 8) : BitVec 16 := b.setWidth 16

/-- `zext_56` of a counter, `FREAD`'s value (R133). -/
def countValue (c : Count) : RspValue := c.setWidth 56

/-- The stored form of the code `p`: `p[0] || ... || p[len-1] || 0...0`, left-aligned in 256 bits
(R32, R170 `SetCode`). -/
def Code.ofBits (p : List Bool) : Code :=
  ⟨BitVec.ofNat 8 p.length, (BitVec.ofBoolListBE p).setWidth 256 <<< (256 - p.length)⟩

/-- The code as a bit string in emission order, `c[t] = bits[255 - t]` (R32). -/
def Code.string (c : Code) : List Bool := (List.range c.len.toNat).map fun t => c.bits.getLsbD (255 - t)

/-- Chunk `j` of a code, `bits[255 - 32j : 224 - 32j]` (R173). -/
def Code.chunk (c : Code) (j : BitVec 3) : BitVec 32 := c.bits.extractLsb' (224 - 32 * j.toNat) 32

/-- `CREAD`'s value: `len` in bits 39:32 and the chunk in bits 31:0 (R173). -/
def Code.value (c : Code) (j : BitVec 3) : RspValue := 0#16 ++ c.len ++ c.chunk j

end Sys2Proof.Machine
end

