-- ==== Sys2Proof/Machine/Packing.lean ====
section
/-! DEFINITION. The environment's packing of bits into bytes (20_memory.md R69 to R72): `Pack` and `Unpack`
with their two parameters BITORDER and PADBIT. -/

namespace Sys2Proof.Machine

/-- One byte from eight bits, the first written bit in bit 7 (MSB_FIRST) or in bit 0 (LSB_FIRST) (R69, R71). -/
def packByte (order : BitOrder) (b0 b1 b2 b3 b4 b5 b6 b7 : Bool) : Byte :=
  match order with
  | .msbFirst => BitVec.ofBoolListBE [b0, b1, b2, b3, b4, b5, b6, b7]
  | .lsbFirst => BitVec.ofBoolListLE [b0, b1, b2, b3, b4, b5, b6, b7]

/-- The bytes of a bit sequence whose length is a multiple of 8 (R71). -/
def packBytes (order : BitOrder) : List Bool → List Byte
  | b0 :: b1 :: b2 :: b3 :: b4 :: b5 :: b6 :: b7 :: rest =>
    packByte order b0 b1 b2 b3 b4 b5 b6 b7 :: packBytes order rest
  | _ => []

/-- `P`: the number of pad bits after `n` bits (R71). -/
def padCount (n : Nat) : Nat := (8 - n % 8) % 8

/-- The bits with their pad (R70, R71). -/
def padBits (pad : Bool) (bits : List Bool) : List Bool :=
  bits ++ List.replicate (padCount bits.length) pad

/-- `Pack` (R71). -/
def pack (order : BitOrder) (pad : Bool) (bits : List Bool) : List Byte :=
  packBytes order (padBits pad bits)

/-- The eight bits of a byte in the order of BITORDER (R72). -/
def unpackByte (order : BitOrder) (v : Byte) : List Bool :=
  match order with
  | .msbFirst => [v.getLsbD 7, v.getLsbD 6, v.getLsbD 5, v.getLsbD 4, v.getLsbD 3, v.getLsbD 2, v.getLsbD 1, v.getLsbD 0]
  | .lsbFirst => [v.getLsbD 0, v.getLsbD 1, v.getLsbD 2, v.getLsbD 3, v.getLsbD 4, v.getLsbD 5, v.getLsbD 6, v.getLsbD 7]

/-- `Unpack` (R72). -/
def unpack (order : BitOrder) (bytes : List Byte) : List Bool := bytes.flatMap (unpackByte order)

end Sys2Proof.Machine
end

