-- ==== Sys2Proof/Machine/Ops.lean ====
section
/-! DEFINITION. The shared operations: responding (R107), the clear and the reset (R237, R320), taking a
fault and leaving it (R286, R292), the run of a command's body, and the stream primitives (R61 to R65, R80). -/

namespace Sys2Proof.Machine

/-! ### Writing the state's arrays -/

/-- `FREQ[b] <- c` (R21). -/
def State.setFreq (s : State) (b : Symbol) (c : Count) : State := { s with freq := s.freq.set b.toNat c b.isLt }

/-- `CODE[b] <- c` on a code table (R170 `SetCode`). -/
def setCode (t : Vector Code Config.numSymbols) (b : Symbol) (p : List Bool) : Vector Code Config.numSymbols :=
  t.set b.toNat (Code.ofBits p) b.isLt

/-! ### Response, clear, reset -/

/-- `respond(c, v)`: `RSP <- c || v` (R107). -/
def respond (c : BitVec 8) (v : RspValue) (s : State) : State := { s with rsp := c ++ v }

/-- `CoreClear()`: every element of the core state except `RSP` takes its reset value; no port is touched
(R237, R45). -/
def coreClear (s : State) : State :=
  { s with
    freq := Vector.replicate Config.numSymbols 0, node := [], live := [], nsym := 0, root := 0, ptr := 0,
    code := Vector.replicate Config.numSymbols Code.none, fvalid := false, tvalid := false, cvalid := false,
    edone := false, ddone := false, fault := false, errcode := 0, errinfo := 0 }

/-- A hardware reset: the core state takes its reset values, `RSP` included, and the environment keeps its
contents and modes (R320, R321). -/
def hardReset (s : State) : State := { coreClear s with rsp := 0 }

/-! ### The environment's answers -/

/-- What the environment answers to the next port call (R80). -/
def State.nextEvent (s : State) : PortEvent := s.draws.headD .succeeds

/-- That answer is used up. -/
def State.popEvent (s : State) : State := { s with draws := s.draws.tail }

/-! ### Fault entry and return -/

/-- The mode after `BitAbort()` or `SinkAbort()`: ABORTED unless it is FINAL (R63, R65). -/
def SinkMode.abort : SinkMode → SinkMode
  | .finalized => .finalized
  | .opened => .aborted
  | .aborted => .aborted

/-- What `BitAbort()` does to its port (R63). -/
def bitAbort (s : State) : State := { s with bsnk := { s.bsnk with mode := s.bsnk.mode.abort } }

/-- What `SinkAbort()` does to its port (R65). -/
def sinkAbort (s : State) : State := { s with dsnk := { s.dsnk with mode := s.dsnk.mode.abort } }

/-- A call of `BitAbort` or `SinkAbort` whose effect is `act`, followed by `k`. It "never fails" (R286): an answer
`fails` is as good as `succeeds`. DEDUCED, unsafe (notes/assumptions/8.md). A hardware reset may strike before it;
it ends the command, and nothing is answered (R320, R321). DEDUCED, safe (notes/assumptions/9.md). -/
def abortCall (act k : State → State) (s : State) : State :=
  match s.nextEvent with
  | .succeeds => k (act s.popEvent)
  | .fails => k (act s.popEvent)
  | .resetStrikes => hardReset s.popEvent

/-- `fault C(info)`, the block's one trap mechanism (R286): the cause is recorded, both sinks are aborted one after
the other, the code is answered. -/
def takeFault (c : ErrCode) (info : BitVec 16) (s : State) : State :=
  abortCall bitAbort (abortCall sinkAbort (respond c.code 0)) { s with fault := true, errcode := c.code, errinfo := info }

/-- Return from the faulted state: `CLR`'s effect, the only way out besides a reset (R292, R232). -/
def returnFromFault (s : State) : State := respond okCode 0 (coreClear s)

/-- `respond(EFAULTED, 0)`, the refusal of a command while `FAULT = 1`; nothing else changes (R287). -/
def refuseFaulted (s : State) : State := respond ErrCode.efaulted.code 0 s

/-! ### The run of a body -/

/-- How (part of) a command's body ends. -/
inductive Body where
  /-- It ran to its end. -/
  | done (s : State)
  /-- It reached `fault C(info)`; `s` holds every write made before (R286). -/
  | trap (c : ErrCode) (info : BitVec 16) (s : State)
  /-- A hardware reset cut it short (R320). -/
  | cut (s : State)
  /-- It asked for a value the spec does not give (R28). -/
  | stuck (f : Fault)
  deriving DecidableEq, Repr

/-- Sequential composition: the next lines run only if the lines before ran to their end. -/
def Body.andThen (b : Body) (k : State → Body) : Body :=
  match b with
  | .done s => k s
  | .trap c info s => .trap c info s
  | .cut s => .cut s
  | .stuck f => .stuck f

/-- The end of a command: `respond(0, 0)`, the fault entry, or the reset that answers nothing
(R107, R111, R286, R320). -/
def Body.finish (b : Body) : Host.Outcome State Fault Refusal :=
  match b with
  | .done s => .next (respond okCode 0 s)
  | .trap c info s => .next (takeFault c info s)
  | .cut s => .next (hardReset s)
  | .stuck f => .fault f

/-- Dispatch of a well-formed command other than `CLR` and `STAT` (R111): refused while `FAULT = 1`,
`ESEQ` with its opcode where its precondition does not hold, else its rule. -/
def dispatch (i : Instr) (s : State) (run : State → Host.Outcome State Fault Refusal) :
    Host.Outcome State Fault Refusal :=
  if s.fault then .next (refuseFaulted s)
  else if s.ready i then run s
  else .next (takeFault .eseq (zextInfo i.opcode) s)

/-- Dispatch of a word that is not well formed (R111 steps 1 and 2, R288). -/
def illegalWord (w : CmdWord) (s : State) : State :=
  if s.fault then refuseFaulted s else takeFault .eillegal (zextInfo (opField w)) s

/-! ### The stream primitives -/

/-- A call of a port primitive other than the aborts. `act` is what its rule says, and nothing where its `requires` does not hold;
then, or where the environment says so, it fails, changes no port state, and the command takes
`EIO(port)` (R66, R80, R283). -/
def portCall (p : Port) (act : State → Option Body) (s : State) : Body :=
  match s.nextEvent with
  | .succeeds => (act s.popEvent).getD (.trap .eio p.number s.popEvent)
  | .fails => .trap .eio p.number s.popEvent
  | .resetStrikes => .cut s.popEvent

/-- The items `SRC` has left; `SrcExhausted()` says that there is none (R61). The query is no port call of R80, and a
cursor beyond the end, which R61 excludes, counts as exhausted. DEDUCED (notes/assumptions/8.md, 13.md). -/
def ByteSource.remaining (x : ByteSource) : Nat := x.data.length - x.pos

/-- The items `BSRC` has left; `BitExhausted()` says that there is none (R64). -/
def BitSource.remaining (x : BitSource) : Nat := x.bits.length - x.pos

/-- `SrcRead()`; the rest of the command gets the byte (R62). -/
def srcRead (k : Byte → State → Body) (s : State) : Body :=
  portCall .src (fun t => t.src.data[t.src.pos]?.map fun b => k b { t with src := { t.src with pos := t.src.pos + 1 } }) s

/-- `SrcRewind()` (R62). -/
def srcRewind (s : State) : Body :=
  portCall .src (fun t => some (.done { t with src := { t.src with pos := 0 } })) s

/-- `BitWrite(v)` (R63). -/
def bitWrite (v : Bool) (s : State) : Body :=
  portCall .bsnk (fun t => if t.bsnk.mode = .opened then some (.done { t with bsnk := { t.bsnk with bits := t.bsnk.bits ++ [v] } }) else none) s

/-- `BitFinalize()`: the mode becomes FINAL and the environment flushes `Pack(BSNK.bits)` (R63, R70, R71). -/
def bitFinalize (s : State) : Body :=
  portCall .bsnk (fun t => if t.bsnk.mode = .opened then some (.done { t with bsnk := { t.bsnk with mode := .finalized, flushed := pack Config.bitOrder Config.padBit t.bsnk.bits } }) else none) s

/-- `BitRead()`; the rest of the command gets the bit (R64). -/
def bitRead (k : Bool → State → Body) (s : State) : Body :=
  portCall .bsrc (fun t => t.bsrc.bits[t.bsrc.pos]?.map fun v => k v { t with bsrc := { t.bsrc with pos := t.bsrc.pos + 1 } }) s

/-- `SinkWrite(v)` (R65). -/
def sinkWrite (v : Byte) (s : State) : Body :=
  portCall .dsnk (fun t => if t.dsnk.mode = .opened then some (.done { t with dsnk := { t.dsnk with data := t.dsnk.data ++ [v] } }) else none) s

/-- `SinkFinalize()` (R65). -/
def sinkFinalize (s : State) : Body :=
  portCall .dsnk (fun t => if t.dsnk.mode = .opened then some (.done { t with dsnk := { t.dsnk with mode := .finalized } }) else none) s

/-! ### What the host does between two commands -/

/-- Replace `SRC.data` and set `SRC.pos <- 0` (R85). -/
def attachSrc (data : List Byte) (s : State) : State := { s with src := ⟨data, 0⟩ }

/-- Replace `BSRC.bits` and set `BSRC.pos <- 0` (R85). -/
def attachBsrc (bits : List Bool) (s : State) : State := { s with bsrc := ⟨bits, 0⟩ }

/-- Replace `BSNK` by an empty sink in mode OPEN (R85). -/
def attachBsnk (s : State) : State := { s with bsnk := ⟨[], .opened, []⟩ }

/-- Replace `DSNK` by an empty sink in mode OPEN (R85). -/
def attachDsnk (s : State) : State := { s with dsnk := ⟨[], .opened⟩ }

end Sys2Proof.Machine
end

