-- ==== Sys2Proof/Machine/Control.lean ====
section
/-! DEFINITION. The control commands CLR, REWIND, STAT (45_driver_and_control.md R232, R233, R234). -/

namespace Sys2Proof.Machine

/-- `CLR`: accepted in every state, the only command that clears `FAULT` (R232). -/
def execClr (s : State) : Host.Outcome State Fault Refusal := .next (returnFromFault s)

/-- `REWIND` (R233). -/
def execRewind (s : State) : Host.Outcome State Fault Refusal :=
  dispatch .rewind s fun t => (srcRewind t).finish

/-- `STAT`: accepted in every state; changes nothing but `RSP` (R234). -/
def execStat (s : State) : Host.Outcome State Fault Refusal := .next (respond okCode s.status s)

end Sys2Proof.Machine
end

