-- ==== Sys2Proof/Machine/BitDecoder.lean ====
section
/-! DEFINITION. The bit decoder: BDEC (44_bit_decoder.md). -/

namespace Sys2Proof.Machine

/-- Emit a symbol and reset the pointer to the root (R211). -/
def emitSymbol (sym : Symbol) (s : State) : Body :=
  (sinkWrite sym s).andThen fun t => .done { t with ptr := t.root }

/-- After the pointer has moved: if it refers to a leaf, emit and go back to the root (R211). -/
def arrive (s : State) : Body :=
  match s.nodeAt? s.ptr with
  | none => .stuck .unallocatedNode
  | some (.leaf sym _) => emitSymbol sym s
  | some (.internal _ _ _) => .done s

/-- Move the pointer to a child of the node it refers to: right on 1, left on 0 (R211). -/
def descend (v : Bool) (s : State) : Body :=
  match s.nodeAt? s.ptr with
  | none => .stuck .unallocatedNode
  | some (.leaf _ _) => .stuck .notATree
  | some (.internal _ l r) => arrive { s with ptr := if v then r else l }

/-- `DecStep(v)`: in a single-leaf tree every bit emits the symbol (R211, R212). -/
def decStep (v : Bool) (s : State) : Body :=
  match s.nodeAt? s.root with
  | none => .stuck .unallocatedNode
  | some (.leaf sym _) => emitSymbol sym s
  | some (.internal _ _ _) => descend v s

/-- The loop of `BDEC` over the `n` bits the source has left (R210, R213). -/
def bdecLoop : Nat → State → Body
  | 0, s => .done s
  | n + 1, s => bitRead (fun v t => (decStep v t).andThen (bdecLoop n)) s

/-- The body of `BDEC`: from the root, walk every bit, finalize, `DDONE <- 1` (R210, R215). -/
def bdecBody (s : State) : Body :=
  (bdecLoop s.bsrc.remaining { s with ptr := s.root }).andThen fun t =>
    (sinkFinalize t).andThen fun u => .done { u with ddone := true }

/-- `BDEC` (R210). -/
def execBdec (s : State) : Host.Outcome State Fault Refusal := dispatch .bdec s fun t => (bdecBody t).finish

end Sys2Proof.Machine
end

