-- ==== Sys2Proof/Machine/BitEncoder.lean ====
section
/-! DEFINITION. The bit encoder: BENC (43_bit_encoder.md). -/

namespace Sys2Proof.Machine

/-- `BitWrite` of each bit of a bit string, the first bit first (R191). -/
def bitWrites : List Bool → State → Body
  | [], s => .done s
  | v :: p, s => (bitWrite v s).andThen (bitWrites p)

/-- `EncStep(b)`: the code of `b` in emission order, or `EMISSING(b)` (R191, R192). -/
def encStep (b : Byte) (s : State) : Body :=
  if (s.codeAt b).len = 0 then .trap .emissing (zextInfo b) s else bitWrites (s.codeAt b).string s

/-- The loop of `BENC` over the `n` bytes the source has left (R190). -/
def bencLoop : Nat → State → Body
  | 0, s => .done s
  | n + 1, s => srcRead (fun b t => (encStep b t).andThen (bencLoop n)) s

/-- The body of `BENC`: encode from the cursor to the end, finalize, `EDONE <- 1` (R190, R193). -/
def bencBody (s : State) : Body :=
  (bencLoop s.src.remaining s).andThen fun t => (bitFinalize t).andThen fun u => .done { u with edone := true }

/-- `BENC` (R190). -/
def execBenc (s : State) : Host.Outcome State Fault Refusal := dispatch .benc s fun t => (bencBody t).finish

end Sys2Proof.Machine
end

