-- ==== Sys2Proof/Machine/CodeTable.lean ====
section
/-! DEFINITION. The code-table generator: CGEN, CREAD (42_code_table.md). -/

namespace Sys2Proof.Machine

/-- `Walk(i, p)`: the depth-first traversal, left subtree first; `n` bounds the nodes on a path, and a path
that is longer belongs to no tree of this block (R171, R174). -/
def walk (node : List Node) : Nat → Handle → List Bool → Vector Code Config.numSymbols →
    Option (Vector Code Config.numSymbols)
  | 0, _, _, _ => none
  | n + 1, i, p, t =>
    match node[i.toNat]? with
    | none => none
    | some (.leaf sym _) => some (setCode t sym p)
    | some (.internal _ l r) => (walk node n l (p ++ [false]) t).bind (walk node n r (p ++ [true]))

/-- The Code Map of a tree: the lone leaf gets "0", every other leaf its path (R170, R171, R172). -/
def codeTable (node : List Node) (root : Handle) (t : Vector Code Config.numSymbols) :
    Option (Vector Code Config.numSymbols) :=
  match node[root.toNat]? with
  | none => none
  | some (.leaf sym _) => some (setCode t sym [false])
  | some (.internal _ _ _) => walk node (Config.maxDepth + 1) root [] t

/-- The body of `CGEN` (R170). -/
def cgenBody (s : State) : Body :=
  match codeTable s.node s.root s.code with
  | some c => .done { s with code := c, cvalid := true }
  | none => .stuck (if (s.nodeAt? s.root).isNone then .unallocatedNode else .notATree)

/-- `CGEN` (R170). -/
def execCgen (s : State) : Host.Outcome State Fault Refusal := dispatch .cgen s fun t => (cgenBody t).finish

/-- `CREAD sym, j` (R173). -/
def execCread (sym : Symbol) (j : BitVec 3) (s : State) : Host.Outcome State Fault Refusal :=
  dispatch (.cread sym j) s fun t => .next (respond okCode ((t.codeAt sym).value j) t)

end Sys2Proof.Machine
end

