-- ==== Sys2Proof/Machine/Frequency.lean ====
section
/-! DEFINITION. The frequency accumulator: FACC, FLOAD, FREAD (40_frequency.md). -/

namespace Sys2Proof.Machine

/-- `FreqStep(b)`: count one byte; a counter at `2^CW - 1` faults instead of wrapping (R131). -/
def freqStep (b : Byte) (s : State) : Body :=
  if s.freqAt b = BitVec.allOnes Config.cw then .trap .eoverflow (zextInfo b) s
  else .done (s.setFreq b (s.freqAt b + 1))

/-- The loop of `FACC` over the `n` bytes the source has left (R130). -/
def faccLoop : Nat → State → Body
  | 0, s => .done s
  | n + 1, s => srcRead (fun b t => (freqStep b t).andThen (faccLoop n)) s

/-- The body of `FACC`: count from the cursor to the end, then `FVALID <- 1` (R130). -/
def faccBody (s : State) : Body :=
  (faccLoop s.src.remaining s).andThen fun t => .done { t with fvalid := true }

/-- `FACC` (R130). -/
def execFacc (s : State) : Host.Outcome State Fault Refusal := dispatch .facc s fun t => (faccBody t).finish

/-- The body of `FLOAD sym, count`: a zero count, then a second entry, then the range (R132, R290). -/
def floadBody (sym : Symbol) (count : BitVec 32) (s : State) : Body :=
  if count = 0 then .trap .emalformed (zextInfo sym) s
  else if s.freqAt sym ≠ 0 then .trap .emalformed (zextInfo sym) s
  else if countFits count then .done (s.setFreq sym (countOperand count))
  else .trap .eoverflow (zextInfo sym) s

/-- `FLOAD sym, count` (R132). -/
def execFload (sym : Symbol) (count : BitVec 32) (s : State) : Host.Outcome State Fault Refusal :=
  dispatch (.fload sym count) s fun t => (floadBody sym count t).finish

/-- `FREAD sym` (R133). -/
def execFread (sym : Symbol) (s : State) : Host.Outcome State Fault Refusal :=
  dispatch (.fread sym) s fun t => .next (respond okCode (countValue (t.freqAt sym)) t)

end Sys2Proof.Machine
end

