-- ==== Sys2Proof/Machine/TreeBuilder.lean ====
section
/-! DEFINITION. The Huffman tree builder: TBUILD (41_tree_builder.md). The algorithm works on the arena and the
priority collection alone (R159); TBUILD puts its result into the state. -/

namespace Sys2Proof.Machine

/-- The frequency of a node (R24, R25). -/
def Node.freq : Node → NodeFreq
  | .leaf _ f => f
  | .internal f _ _ => f

/-- What the builder works on: the allocated nodes and the handles in the priority collection
(R24, R29), rising. -/
structure Arena where
  node : List Node
  live : List Handle
  deriving DecidableEq, Repr

/-- The leaves, one for each symbol with a non-zero counter, in ascending symbol order (R27, R151). -/
def initLeaves (freq : Vector Count Config.numSymbols) : List Node :=
  freq.toList.zipIdx.filterMap fun (c, n) => if c ≠ 0 then some (.leaf (BitVec.ofNat 8 n) (zextFreq c)) else none

/-- `LIVE[h] <- 1` on the rising list of live handles (R29). -/
def liveInsert (h : Handle) : List Handle → List Handle
  | [] => [h]
  | x :: l => if h < x then h :: x :: l else if h = x then x :: l else x :: liveInsert h l

/-- `LIVE[0..k-1] <- 1` (R151). -/
def liveLeaves (k : Nat) (live : List Handle) : List Handle :=
  (List.range k).foldl (fun l n => liveInsert (BitVec.ofNat 9 n) l) live

/-- The priority order: smaller frequency first, then the lower handle (R152). -/
def nodeBefore (node : List Node) (i j : Handle) : Bool :=
  match node[i.toNat]?, node[j.toNat]? with
  | some a, some b => decide (a.freq < b.freq) || (decide (a.freq = b.freq) && decide (i < j))
  | _, _ => false

/-- The live handle that comes first in the priority order (R153). -/
def minLive (node : List Node) : List Handle → Option Handle
  | [] => none
  | h :: l =>
    match minLive node l with
    | none => some h
    | some m => some (if nodeBefore node h m then h else m)

/-- `ExtractMin()`: the first live handle and the collection without it (R153). -/
def extractMin (node : List Node) (live : List Handle) : Option (Handle × List Handle) :=
  (minLive node live).map fun m => (m, live.erase m)

/-- `CombineStep()`: the minimum becomes the left child, the next minimum the right child; the new node
takes the next handle and joins the collection (R154). Nothing where a node is not allocated or the arena of
511 records is full. -/
def combineStep (a : Arena) : Option Arena :=
  match extractMin a.node a.live with
  | none => none
  | some (l, rest) =>
    match extractMin a.node rest with
    | none => none
    | some (r, rest') =>
      match a.node[l.toNat]?, a.node[r.toNat]? with
      | some x, some y =>
        if a.node.length < Config.numNodes then
          some ⟨a.node ++ [.internal (x.freq + y.freq) l r], liveInsert (BitVec.ofNat 9 a.node.length) rest'⟩
        else none
      | _, _ => none

/-- The loop "while more than one node is live" with at most `n` turns (R150). -/
def combineLoop : Nat → Arena → Option Arena
  | 0, a => some a
  | n + 1, a => if 1 < a.live.length then (combineStep a).bind (combineLoop n) else some a

/-- The builder after its leaves are made: combine until one node is live, and name it (R150, R155). Each
turn leaves one live node fewer, so `live.length` turns are enough. -/
def buildTree (a : Arena) : Option (Arena × Handle) :=
  match combineLoop a.live.length a with
  | none => none
  | some b =>
    match b.live with
    | [r] => some (b, r)
    | _ => none

/-- The state after `FVALID <- 1` and `InitLeaves()` (R150, R151). -/
def afterInitLeaves (s : State) : State :=
  { s with
    fvalid := true
    node := initLeaves s.freq
    live := liveLeaves (initLeaves s.freq).length s.live
    nsym := BitVec.ofNat 9 (initLeaves s.freq).length }

/-- The body of `TBUILD` (R150, R157). -/
def tbuildBody (s : State) : Body :=
  let t := afterInitLeaves s
  if t.nsym = 0 then .trap .eempty 0 t
  else
    match buildTree ⟨t.node, t.live⟩ with
    | some (a, r) => .done { t with node := a.node, live := a.live, root := r, tvalid := true }
    | none => .stuck .notATree

/-- `TBUILD` (R150). -/
def execTbuild (s : State) : Host.Outcome State Fault Refusal := dispatch .tbuild s fun t => (tbuildBody t).finish

end Sys2Proof.Machine
end

