-- ==== Sys2Proof/Machine/Driver.lean ====
section
/-! DEFINITION. The driver commands ENCODE and DECODE (45_driver_and_control.md R230, R231): sequences of the
component commands' bodies. -/

namespace Sys2Proof.Machine

/-- The body of `ENCODE`, on a cleared core, stopping at the first fault (R230). -/
def encodeBody (s : State) : Body :=
  (srcRewind (coreClear s)).andThen fun t => (faccBody t).andThen fun t => (tbuildBody t).andThen fun t =>
    (cgenBody t).andThen fun t => (srcRewind t).andThen bencBody

/-- `ENCODE` (R230). -/
def execEncode (s : State) : Host.Outcome State Fault Refusal := dispatch .encode s fun t => (encodeBody t).finish

/-- The body of `DECODE` (R231). -/
def decodeBody (s : State) : Body := (tbuildBody s).andThen bdecBody

/-- `DECODE` (R231). -/
def execDecode (s : State) : Host.Outcome State Fault Refusal := dispatch .decode s fun t => (decodeBody t).finish

end Sys2Proof.Machine
end

