-- ==== Sys2Proof/Machine/Dispatch.lean ====
section
/-! DEFINITION. The dispatch of a well-formed command to its meaning, one arm per command. -/

namespace Sys2Proof.Machine

def exec (i : Instr) (s : State) : Host.Outcome State Fault Refusal :=
  match i with
  | .clr => Sys2Proof.Machine.execClr s
  | .rewind => Sys2Proof.Machine.execRewind s
  | .stat => Sys2Proof.Machine.execStat s
  | .facc => Sys2Proof.Machine.execFacc s
  | .fload sym count => Sys2Proof.Machine.execFload sym count s
  | .fread sym => Sys2Proof.Machine.execFread sym s
  | .tbuild => Sys2Proof.Machine.execTbuild s
  | .cgen => Sys2Proof.Machine.execCgen s
  | .cread sym j => Sys2Proof.Machine.execCread sym j s
  | .benc => Sys2Proof.Machine.execBenc s
  | .bdec => Sys2Proof.Machine.execBdec s
  | .encode => Sys2Proof.Machine.execEncode s
  | .decode => Sys2Proof.Machine.execDecode s

end Sys2Proof.Machine
end

