-- ==== Sys2Proof/Machine/Step.lean ====
section
/-! DEFINITION. One step: the host's next move (20_memory.md R84, R85). A command word runs to completion
in one step (R8); with no move the core waits (R322). -/

namespace Sys2Proof.Machine

/-- What happens to a command word (R111). -/
def issue (w : CmdWord) (s : State) : Host.Outcome State Fault Refusal :=
  match decode w with
  | some i => exec i s
  | none => .next (illegalWord w s)

/-- The effect of the host's move `m`. -/
def hostStep (m : HostMove) (s : State) : Host.Outcome State Fault Refusal :=
  match m with
  | .command w => issue w s
  | .attachSrc data => .next (attachSrc data s)
  | .attachBsrc bits => .next (attachBsrc bits s)
  | .attachBsnk => .next (attachBsnk s)
  | .attachDsnk => .next (attachDsnk s)
  | .reset => .next (hardReset s)

/-- One step of the machine. -/
def step (s : State) : Host.Outcome State Fault Refusal :=
  match s.host with
  | [] => .next s
  | m :: rest => hostStep m { s with host := rest }

/-- `s` with the 64-bit word `w` (its bits above `nbits` zero) as the command the host issues next. -/
def State.withFetchWord (s : State) (nbits w : Nat) : State :=
  { s with host := .command (BitVec.ofNat 64 (w % 2 ^ nbits)) :: s.host }

end Sys2Proof.Machine
end

