-- ==== Sys2Proof/Safety.lean ====
section
/-! DEFINITION. The terms the statements use: premises on the environment (R80), sessions of commands (R235),
the shape of a valid tree (R25, R26), paths in it, and the invariant every step keeps (R46, U7). -/

namespace Sys2Proof.Safety

open Sys2Proof.Machine

/-- The named premise "no I/O failure" (R80), with no hardware reset during a command either (R320): every
coming port call is allowed to succeed. -/
def NoIoFailure (s : State) : Prop := ∀ d ∈ s.draws, d = PortEvent.succeeds

/-- No hardware reset strikes during a command; port calls may fail (R320). -/
def NoResetStrike (s : State) : Prop := ∀ d ∈ s.draws, d ≠ PortEvent.resetStrikes

/-- What the environment does at the coming port call number `n`, counted from 0 (R80, R320). -/
def eventAt (s : State) (n : Nat) : PortEvent := s.draws[n]?.getD .succeeds

/-- The coming `n` port calls succeed (R80). -/
def Succeeds (n : Nat) (s : State) : Prop := ∀ k < n, eventAt s k = .succeeds

/-- No hardware reset strikes at the port calls number `n` and `n + 1`: where these are the two aborts of a fault
entry, the entry runs to its end (R286, R320). -/
def AbortsRun (n : Nat) (s : State) : Prop := eventAt s n ≠ .resetStrikes ∧ eventAt s (n + 1) ≠ .resetStrikes

/-- The bytes `SRC` still has to deliver (R61). -/
def srcRest (s : State) : List Byte := s.src.data.drop s.src.pos

/-- The bits `BSRC` still has to deliver (R64). -/
def bsrcRest (s : State) : List Bool := s.bsrc.bits.drop s.bsrc.pos

/-- `c(S)`: the concatenation of the codes of the bytes of `S` (R67). -/
def codeStream (s : State) (S : List Byte) : List Bool := S.flatMap fun b => (s.codeAt b).string

/-- The encoding of `S` up to some port call: `r` bytes have been read and the bits `w` written, that is, the codes of
all bytes read but the last, and a part or all of the last one's (R190, R191). `r + w.length` calls have been made. -/
def EncodedUpTo (s : State) (S : List Byte) (r : Nat) (w : List Bool) : Prop :=
  r ≤ S.length ∧ codeStream s (S.take (r - 1)) <+: w ∧ w <+: codeStream s (S.take r)

/-- The next call of that encoding is the read of a further byte; it is else the write of a bit or, at the end of
`S`, the finalize (R190, R191, R193). -/
def NextIsRead (s : State) (S : List Byte) (r : Nat) (w : List Bool) : Prop :=
  r < S.length ∧ w = codeStream s (S.take r)

/-- A list of commands issued in order, each after the previous response (R109, R235), stopping where the
machine stops. -/
def session : List Instr → State → Host.Outcome State Fault Refusal
  | [], s => .next s
  | i :: is, s =>
    match exec i s with
    | .next t => session is t
    | .fault f => .fault f
    | .refused r => .refused r

/-- The same, stopping at the first command that ends faulted (R230, R231: the driver commands). -/
def sessionUntilFault : List Instr → State → Host.Outcome State Fault Refusal
  | [], s => .next s
  | i :: is, s =>
    match exec i s with
    | .next t => if t.fault then .next t else sessionUntilFault is t
    | .fault f => .fault f
    | .refused r => .refused r

/-- One `FLOAD` per symbol of a Frequency Map, in ascending order (R324). -/
def loadCommands (freq : Vector Count Config.numSymbols) : List Instr :=
  (List.range Config.numSymbols).filterMap fun n =>
    let c := freq[n]?.getD 0
    if c ≠ 0 then some (.fload (BitVec.ofNat 8 n) (c.setWidth 32)) else none

/-- The sum of all counters (R155, R271). -/
def totalCount (freq : Vector Count Config.numSymbols) : Nat :=
  ((List.range Config.numSymbols).map fun n => (freq[n]?.getD 0).toNat).sum

/-- The node reached from handle `i` along a bit string: 0 to the left child, 1 to the right (R171, R211);
nothing where the path leaves the tree. -/
def follow (node : List Node) : List Bool → Handle → Option Node
  | [], i => node[i.toNat]?
  | v :: p, i =>
    match node[i.toNat]? with
    | some (.internal _ l r) => follow node p (if v then r else l)
    | some (.leaf _ _) => none
    | none => none

/-- The decoder, from the root, emits `sym` at the last of the bits `x` and at none before it: the bits lead to its
leaf (R211), or it is the lone leaf and `x` is one bit (R212). -/
def Emits (s : State) (sym : Symbol) (x : List Bool) : Prop :=
  ∃ f, (s.nodeAt? s.root = some (.leaf sym f) ∧ x.length = 1) ∨
    (x ≠ [] ∧ follow s.node x s.root = some (.leaf sym f))

/-- The decoder, from the root, emits nothing on the bits `x` and stands inside the tree after them (R211, R213). -/
def StaysInside (s : State) (x : List Bool) : Prop :=
  x = [] ∨ ∃ f l r, follow s.node x s.root = some (.internal f l r)

/-- Decoding up to some port call: `parts` are the symbols written so far, each with the bits that led to it, and the
bits `x` have been read since; they stay inside the tree, or lead to a symbol that is still to be written
(R210, R211). `((parts.map Prod.snd).flatten ++ x).length + parts.length` calls have been made. -/
def DecodedUpTo (s : State) (parts : List (Symbol × List Bool)) (x : List Bool) : Prop :=
  (parts.map Prod.snd).flatten ++ x <+: bsrcRest s ∧ (∀ y ∈ parts, Emits s y.1 y.2) ∧
    (StaysInside s x ∨ ∃ sym, Emits s sym x)

/-- `i` starts to decode on the tree that `t` holds: `BDEC` on its own state's, `DECODE` on the one `TBUILD` makes
(R210, R231). -/
def DecodesOn (i : Instr) (s t : State) : Prop :=
  s.fault = false ∧ s.ddone = false ∧ t.tvalid = true ∧
    ((i = .bdec ∧ t = s) ∨ (i = .decode ∧ s.tvalid = false ∧ exec .tbuild s = .next t))

/-- How often a handle occurs as a child in the arena (R26). -/
def childCount (node : List Node) (h : Handle) : Nat :=
  (node.map fun x =>
    match x with
    | .leaf _ _ => 0
    | .internal _ l r => (if l = h then 1 else 0) + (if r = h then 1 else 0)).sum

/-- A valid tree of `k` symbols in the arena (R25, R26, R27, R260). -/
structure StrictTree (node : List Node) (root : Handle) (k : Nat) : Prop where
  /-- There is a symbol, and there are at most 256. -/
  size : 1 ≤ k ∧ k ≤ Config.numSymbols
  /-- "exactly `2k-1` nodes". -/
  count : node.length = 2 * k - 1
  /-- The root is the last node. -/
  rootLast : root.toNat = 2 * k - 2
  /-- Handles `0..k-1` are leaves. -/
  leaves : ∀ i, i < k → ∃ sym f, node[i]? = some (.leaf sym f)
  /-- Handles `k..2k-2` are internal nodes with children of smaller handles, whose frequency is the sum of
  the children's, without overflow. -/
  internals : ∀ i, k ≤ i → i < node.length → ∃ f l r x y,
    node[i]? = some (.internal f l r) ∧ l.toNat < i ∧ r.toNat < i ∧
    node[l.toNat]? = some x ∧ node[r.toNat]? = some y ∧ f.toNat = x.freq.toNat + y.freq.toNat
  /-- Every node but the root is the child of exactly one node, once. -/
  owned : ∀ h : Handle, h.toNat < node.length → h ≠ root → childCount node h = 1
  /-- The root is nobody's child. -/
  rootFree : childCount node root = 0

/-- The tree state is the one the builder makes from the Frequency Map (R159). -/
def TreeOf (s : State) : Prop :=
  initLeaves s.freq ≠ [] ∧ s.nsym = BitVec.ofNat 9 (initLeaves s.freq).length ∧
    buildTree ⟨initLeaves s.freq, liveLeaves (initLeaves s.freq).length []⟩ = some (⟨s.node, s.live⟩, s.root)

/-- The Code Map is the one the generator makes from the tree (R175). -/
def CodesOf (s : State) : Prop :=
  codeTable s.node s.root (Vector.replicate Config.numSymbols Code.none) = some s.code

/-- The codes that `ERRCODE` can hold while `FAULT = 1`: `EFAULTED` is never recorded (R280). -/
def recordedCodes : List (BitVec 8) :=
  [0x01#8, 0x02#8, 0x03#8, 0x04#8, 0x10#8, 0x11#8, 0x12#8]

/-- The flag combinations of R46. -/
def FlagOrder (s : State) : Prop :=
  s.fault = false →
    (s.tvalid = true → s.fvalid = true) ∧ (s.cvalid = true → s.tvalid = true) ∧
    (s.edone = true → s.cvalid = true) ∧ (s.ddone = true → s.tvalid = true)

/-- The invariant of the machine. Over states with `FAULT = 1` it says nothing about the arrays (U7). -/
structure Inv (s : State) : Prop where
  /-- The cursors stand inside their streams (R61, R64). -/
  srcCursor : s.src.pos ≤ s.src.data.length
  bsrcCursor : s.bsrc.pos ≤ s.bsrc.bits.length
  /-- The flags (R46). -/
  flags : FlagOrder s
  /-- `ERRCODE` and `ERRINFO` (R38, R280). -/
  noCause : s.fault = false → s.errcode = 0 ∧ s.errinfo = 0
  cause : s.fault = true → s.errcode ∈ recordedCodes
  /-- No tree: nothing is allocated (R45, R28). -/
  noTree : s.fault = false → s.tvalid = false →
    s.node = [] ∧ s.live = [] ∧ s.nsym = 0 ∧ s.root = 0
  /-- A tree: the builder's (R159). -/
  tree : s.fault = false → s.tvalid = true → TreeOf s
  /-- No Code Map: every `len` is 0 (R170). -/
  noCodes : s.fault = false → s.cvalid = false → s.code = Vector.replicate Config.numSymbols Code.none
  /-- A Code Map: the generator's (R175). -/
  codes : s.fault = false → s.cvalid = true → CodesOf s
  /-- The decoder's pointer: 0 before a decode run, the root or an internal node after one (R36, R213). -/
  noPtr : s.fault = false → s.ddone = false → s.ptr = 0
  ptr : s.fault = false → s.ddone = true →
    s.ptr = s.root ∨ ∃ f l r, s.nodeAt? s.ptr = some (.internal f l r)

end Sys2Proof.Safety
end

