-- ==== Sys2Proof/Certificates/Slice0/Obligations.lean ====
section
/-! DEFINITION. The statements about the machine, from the numbered rules of the spec. A result statement is an
equation `exec i s = .next { s with ... }` wherever the rule allows it: it says that the command completes,
what it writes, and that every other field keeps its value. The fields `draws` (one answer used up per port
call, the two aborts of a fault entry included) and `host` are the model's inputs (notes/assumptions 2, 3 and 8).
Where a reset strikes in a fault entry (`AbortsRun` excludes it) is said by `EveryFaultIsRecordedAndAbortsSinks`. -/

open Sys2Proof Sys2Proof.Machine Sys2Proof.Safety

/-! ### Command words -/

/-- R101, R103: decoding the word of a command gives the command back, with every operand at every value. -/
def Obligations.DecodeOfEncodedCommand : Prop := ∀ i : Instr, decode (encode i) = some i

/-- R105: nothing but the word of a command decodes to it; no bit of a word is ignored. -/
def Obligations.DecodedWordIsTheEncoding : Prop := ∀ (w : CmdWord) (i : Instr), decode w = some i → encode i = w

/-- R104: the rows of the opcode map are disjoint. -/
def Obligations.OpcodeRowsAreDisjoint : Prop :=
  ∀ (w : CmdWord) (r r' : OpcodeRow), r ∈ opcodeMap → r' ∈ opcodeMap → r.accepts w = true → r'.accepts w = true →
    r = r'

/-- R103, R104, R105: a word decodes exactly when it matches one row of the opcode map. -/
def Obligations.DecodesExactlyWhenWellFormed : Prop := ∀ w : CmdWord, (decode w).isSome = wellFormed w

/-- R109: the example words of the spec. -/
def Obligations.ExampleWordsDecode : Prop :=
  decode 0x0100000000000000#64 = some .clr ∧ decode 0x1141000000000003#64 = some (.fload 0x41#8 3#32) ∧
  decode 0x1242000000000000#64 = some (.fread 0x42#8) ∧ decode 0x3143000000000000#64 = some (.cread 0x43#8 0#3) ∧
  decode 0x3143000000000007#64 = some (.cread 0x43#8 7#3) ∧ decode 0x6000000000000000#64 = some .encode

/-! ### The step and the dispatch -/

/-- R84, R111: the host's next word is issued, the move is used up, and nothing is added around the command; a
well-formed word runs the command it decodes to. -/
def Obligations.StepRunsTheIssuedCommand : Prop :=
  ∀ (s : State) (w : CmdWord) (rest : List HostMove), s.host = .command w :: rest →
    step s = issue w { s with host := rest } ∧
    ∀ i : Instr, decode w = some i → step s = exec i { s with host := rest }

/-- R85, R322: what the host may do to the streams between two commands; with no move left the core waits (the
model's reading of waiting: notes/assumptions/3.md). -/
def Obligations.HostReplacesStreamsOrCoreWaits : Prop :=
  ∀ (s : State) (rest : List HostMove) (data : List Byte) (bits : List Bool),
    (s.host = [] → step s = .next s) ∧
    (s.host = .attachSrc data :: rest → step s = .next { s with host := rest, src := ⟨data, 0⟩ }) ∧
    (s.host = .attachBsrc bits :: rest → step s = .next { s with host := rest, bsrc := ⟨bits, 0⟩ }) ∧
    (s.host = .attachBsnk :: rest → step s = .next { s with host := rest, bsnk := ⟨[], .opened, []⟩ }) ∧
    (s.host = .attachDsnk :: rest → step s = .next { s with host := rest, dsnk := ⟨[], .opened⟩ })

/-- R287: while `FAULT = 1` every word but a well-formed `CLR` or `STAT` is answered EFAULTED and changes
nothing else. -/
def Obligations.FaultedCoreRefuses : Prop :=
  ∀ (s : State) (w : CmdWord), s.fault = true → decode w ≠ some .clr → decode w ≠ some .stat →
    issue w s = .next { s with rsp := 0x1300000000000000#64 }

/-- R288: a word that is not well formed, issued while `FAULT = 0`, takes EILLEGAL with its `OP` byte. -/
def Obligations.IllegalWordFaults : Prop :=
  ∀ (s : State) (w : CmdWord), s.fault = false → wellFormed w = false → AbortsRun 0 s →
    issue w s = .next { s with
      fault := true, errcode := 0x10#8, errinfo := (w.extractLsb' 56 8).setWidth 16, rsp := 0x1000000000000000#64
      draws := s.draws.drop 2
      bsnk := { s.bsnk with mode := if s.bsnk.mode = .finalized then .finalized else .aborted }
      dsnk := { s.dsnk with mode := if s.dsnk.mode = .finalized then .finalized else .aborted } }

/-- R284: a command whose precondition fails takes ESEQ with its opcode and does nothing else. -/
def Obligations.BrokenPreconditionFaults : Prop :=
  ∀ (i : Instr) (s : State), s.fault = false → AbortsRun 0 s →
    (match i with
      | .clr => False
      | .stat => False
      | .rewind => False
      | .encode => False
      | .facc => s.fvalid = true
      | .fload _ _ => s.fvalid = true
      | .fread _ => s.fvalid = false
      | .tbuild => s.tvalid = true
      | .cgen => s.tvalid = false ∨ s.cvalid = true
      | .cread _ _ => s.cvalid = false
      | .benc => s.cvalid = false ∨ s.edone = true
      | .bdec => s.tvalid = false ∨ s.ddone = true
      | .decode => s.tvalid = true ∨ s.ddone = true) →
    exec i s = .next { s with
      fault := true, errcode := 0x11#8, errinfo := i.opcode.setWidth 16, rsp := 0x1100000000000000#64
      draws := s.draws.drop 2
      bsnk := { s.bsnk with mode := if s.bsnk.mode = .finalized then .finalized else .aborted }
      dsnk := { s.dsnk with mode := if s.dsnk.mode = .finalized then .finalized else .aborted } }

/-! ### Taking a fault and leaving it -/

/-- R286: whatever command faults, whenever the environment fails: the cause is recorded and answered, and
both sinks are aborted unless they are FINAL. R320, R321: a reset that strikes during the fault entry, before the
first abort or between the two, leaves the core in its reset state and answers nothing; the streams keep what was
done to them, and the sink not yet aborted keeps its mode. That it strikes at one of these calls is the model's
reading (notes/assumptions/9.md). -/
def Obligations.EveryFaultIsRecordedAndAbortsSinks : Prop :=
  (∀ (i : Instr) (s t : State), s.fault = false → exec i s = .next t → t.fault = true →
    t.errcode ∈ recordedCodes ∧ t.rsp = t.errcode ++ 0#56 ∧
    t.bsnk.mode = (if s.bsnk.mode = .finalized then .finalized else .aborted) ∧
    t.dsnk.mode = (if s.dsnk.mode = .finalized then .finalized else .aborted)) ∧
  (∀ (c : ErrCode) (info : BitVec 16) (s : State),
    (eventAt s 0 = .resetStrikes → takeFault c info s = { State.reset with
      src := s.src, bsnk := s.bsnk, bsrc := s.bsrc, dsnk := s.dsnk, draws := s.draws.drop 1, host := s.host }) ∧
    (eventAt s 0 ≠ .resetStrikes → eventAt s 1 = .resetStrikes → takeFault c info s = { State.reset with
      bsnk := { s.bsnk with mode := if s.bsnk.mode = .finalized then .finalized else .aborted }
      src := s.src, bsrc := s.bsrc, dsnk := s.dsnk, draws := s.draws.drop 2, host := s.host }))

/-- R292: the only way out of the faulted state is `CLR` or a hardware reset, and the core is then in its
reset state. -/
def Obligations.OnlyClrOrResetLeavesFault : Prop :=
  ∀ s t : State, s.fault = true → step s = .next t → t.fault = false →
    (s.host.head? = some (.command 0x0100000000000000#64) ∨ s.host.head? = some .reset) ∧
    t = { State.reset with
      src := s.src, bsnk := s.bsnk, bsrc := s.bsrc, dsnk := s.dsnk, draws := s.draws, host := s.host.tail }

/-! ### Control commands and reset -/

/-- R232, R237, R45: `CLR` is accepted in every state and puts the core into its reset state; no port is
touched. -/
def Obligations.ClrClearsTheCore : Prop :=
  ∀ s : State, exec .clr s = .next { s with
    freq := Vector.replicate 256 0, node := [], live := [], nsym := 0, root := 0, ptr := 0,
    code := Vector.replicate 256 ⟨0, 0⟩, fvalid := false, tvalid := false, cvalid := false, edone := false,
    ddone := false, fault := false, errcode := 0, errinfo := 0, rsp := 0 }

/-- R320, R321: a hardware reset between two commands, or one that cuts `BDEC` or `DECODE` short at any of their port
calls, puts the core into its reset state, answers nothing and touches no stream: a source keeps the items that were
left, a sink its mode and the part that was written. That a reset during a command strikes at a port call is the
model's reading (notes/assumptions/9.md). `ResetCutsEncodingShort` has the encode side. -/
def Obligations.HardwareResetKeepsStreams : Prop :=
  (∀ (s : State) (rest : List HostMove), s.host = .reset :: rest →
    step s = .next { State.reset with
      src := s.src, bsnk := s.bsnk, bsrc := s.bsrc, dsnk := s.dsnk, draws := s.draws, host := rest }) ∧
  (∀ (i : Instr) (s t : State) (parts : List (Symbol × List Bool)) (x : List Bool) (n : Nat), DecodesOn i s t →
    DecodedUpTo t parts x → (parts ≠ [] → s.dsnk.mode = .opened) →
    n = ((parts.map Prod.snd).flatten ++ x).length + parts.length → Succeeds n s → eventAt s n = .resetStrikes →
    exec i s = .next { State.reset with
      dsnk := { s.dsnk with data := s.dsnk.data ++ parts.map Prod.fst }
      bsrc := { s.bsrc with pos := s.bsrc.pos + ((parts.map Prod.snd).flatten ++ x).length }
      src := s.src, bsnk := s.bsnk, draws := s.draws.drop (n + 1), host := s.host })

/-- R320, R321: a hardware reset that cuts `REWIND`, `FACC`, `BENC` or `ENCODE` short at any of their port calls, or in
the fault entry after an overflowing byte or a byte without a code, puts the core into its reset state, answers
nothing and touches no stream: the source keeps its cursor, and the sink its mode (ABORTED only where `BitAbort` has
been called) and the part that was written. That a reset during a command strikes at a port call is the model's
reading (notes/assumptions/9.md). `HardwareResetKeepsStreams` has the decode side. -/
def Obligations.ResetCutsEncodingShort : Prop :=
  (∀ (s : State), s.fault = false → eventAt s 0 = .resetStrikes →
    exec .rewind s = .next { State.reset with
      src := s.src, bsnk := s.bsnk, bsrc := s.bsrc, dsnk := s.dsnk, draws := s.draws.drop 1, host := s.host } ∧
    exec .encode s = .next { State.reset with
      src := s.src, bsnk := s.bsnk, bsrc := s.bsrc, dsnk := s.dsnk, draws := s.draws.drop 1, host := s.host }) ∧
  (∀ (s : State) (n : Nat), s.fault = false → s.fvalid = false → n < (srcRest s).length →
    (∀ c, (s.freqAt c).toNat + ((srcRest s).take n).count c < 2 ^ 32) → Succeeds n s → eventAt s n = .resetStrikes →
    exec .facc s = .next { State.reset with
      src := { s.src with pos := s.src.pos + n }
      bsnk := s.bsnk, bsrc := s.bsrc, dsnk := s.dsnk, draws := s.draws.drop (n + 1), host := s.host }) ∧
  (∀ (s : State) (r n : Nat) (w : List Bool), s.fault = false → s.cvalid = true → s.edone = false →
    EncodedUpTo s (srcRest s) r w → (∀ b ∈ (srcRest s).take r, (s.codeAt b).len ≠ 0) →
    (w ≠ [] → s.bsnk.mode = .opened) → n = r + w.length → Succeeds n s → eventAt s n = .resetStrikes →
    exec .benc s = .next { State.reset with
      bsnk := { s.bsnk with bits := s.bsnk.bits ++ w }, src := { s.src with pos := s.src.pos + r }
      bsrc := s.bsrc, dsnk := s.dsnk, draws := s.draws.drop (n + 1), host := s.host }) ∧
  (∀ (s : State) (n : Nat), s.fault = false → n ≤ s.src.data.length → (∀ c, (s.src.data.take n).count c < 2 ^ 32) →
    Succeeds (n + 1) s → eventAt s (n + 1) = .resetStrikes →
    exec .encode s = .next { State.reset with
      src := { s.src with pos := n }
      bsnk := s.bsnk, bsrc := s.bsrc, dsnk := s.dsnk, draws := s.draws.drop (n + 2), host := s.host }) ∧
  (∀ (s t : State) (r n : Nat) (w : List Bool), s.fault = false → TreeOf t → CodesOf t →
    (∀ b, (t.freqAt b).toNat = s.src.data.count b) → EncodedUpTo t s.src.data r w →
    (w ≠ [] → s.bsnk.mode = .opened) → n = s.src.data.length + 2 + r + w.length → Succeeds n s →
    eventAt s n = .resetStrikes →
    exec .encode s = .next { State.reset with
      bsnk := { s.bsnk with bits := s.bsnk.bits ++ w }, src := { s.src with pos := r }
      bsrc := s.bsrc, dsnk := s.dsnk, draws := s.draws.drop (n + 1), host := s.host }) ∧
  (∀ (s : State) (before after : List Byte) (b : Byte) (n : Nat), s.fault = false → s.fvalid = false →
    srcRest s = before ++ b :: after → (∀ c, (s.freqAt c).toNat + before.count c < 2 ^ 32) →
    (s.freqAt b).toNat + before.count b = 2 ^ 32 - 1 → n = before.length + 1 → Succeeds n s →
    (eventAt s n = .resetStrikes → exec .facc s = .next { State.reset with
      src := { s.src with pos := s.src.pos + before.length + 1 }
      bsnk := s.bsnk, bsrc := s.bsrc, dsnk := s.dsnk, draws := s.draws.drop (n + 1), host := s.host }) ∧
    (eventAt s n ≠ .resetStrikes → eventAt s (n + 1) = .resetStrikes → exec .facc s = .next { State.reset with
      src := { s.src with pos := s.src.pos + before.length + 1 }
      bsnk := { s.bsnk with mode := if s.bsnk.mode = .finalized then .finalized else .aborted }
      bsrc := s.bsrc, dsnk := s.dsnk, draws := s.draws.drop (n + 2), host := s.host })) ∧
  (∀ (s : State) (before after : List Byte) (b : Byte) (n : Nat), s.fault = false → s.cvalid = true →
    s.edone = false → s.bsnk.mode = .opened → srcRest s = before ++ b :: after →
    (∀ c ∈ before, (s.codeAt c).len ≠ 0) → (s.codeAt b).len = 0 →
    n = before.length + (codeStream s before).length + 1 → Succeeds n s →
    (eventAt s n = .resetStrikes → exec .benc s = .next { State.reset with
      bsnk := { s.bsnk with bits := s.bsnk.bits ++ codeStream s before }
      src := { s.src with pos := s.src.pos + before.length + 1 }
      bsrc := s.bsrc, dsnk := s.dsnk, draws := s.draws.drop (n + 1), host := s.host }) ∧
    (eventAt s n ≠ .resetStrikes → eventAt s (n + 1) = .resetStrikes → exec .benc s = .next { State.reset with
      bsnk := { s.bsnk with bits := s.bsnk.bits ++ codeStream s before, mode := .aborted }
      src := { s.src with pos := s.src.pos + before.length + 1 }
      bsrc := s.bsrc, dsnk := s.dsnk, draws := s.draws.drop (n + 2), host := s.host }))

/-- R234, R39: `STAT` is accepted in every state, changes nothing but `RSP`, and every field of the status word
stands where the table puts it. -/
def Obligations.StatReadsTheStatusWord : Prop :=
  ∀ s : State, ∃ v : BitVec 56, exec .stat s = .next { s with rsp := 0#8 ++ v } ∧
    v.getLsbD 0 = s.fvalid ∧ v.getLsbD 1 = s.tvalid ∧ v.getLsbD 2 = s.cvalid ∧ v.getLsbD 3 = s.edone ∧
    v.getLsbD 4 = s.ddone ∧ v.getLsbD 5 = s.fault ∧ v.extractLsb' 6 2 = 0#2 ∧ v.extractLsb' 8 8 = s.errcode ∧
    v.extractLsb' 16 9 = s.nsym ∧ v.extractLsb' 25 7 = 0#7 ∧ v.extractLsb' 32 16 = s.errinfo ∧
    v.extractLsb' 48 8 = 0#8

/-- R233: `REWIND` moves the source's cursor back and changes no core state; a source that cannot be rewound
gives EIO(1). -/
def Obligations.RewindMovesTheCursor : Prop :=
  ∀ s : State, s.fault = false →
    (eventAt s 0 = .succeeds →
      exec .rewind s = .next { s with src := { s.src with pos := 0 }, draws := s.draws.tail, rsp := 0 }) ∧
    (eventAt s 0 = .fails → AbortsRun 1 s →
      exec .rewind s = .next { s with
        fault := true, errcode := 0x04#8, errinfo := 1#16, rsp := 0x0400000000000000#64, draws := s.draws.drop 3
        bsnk := { s.bsnk with mode := if s.bsnk.mode = .finalized then .finalized else .aborted }
        dsnk := { s.dsnk with mode := if s.dsnk.mode = .finalized then .finalized else .aborted } })

/-! ### Frequency accumulator -/

/-- R130, R131, R135: `FACC` adds to each counter the number of times its byte is left in the source, drains
the source and sets `FVALID`. -/
def Obligations.FaccCountsTheSource : Prop :=
  ∀ s : State, s.fault = false → s.fvalid = false → NoIoFailure s → s.src.pos ≤ s.src.data.length →
    (∀ b, (s.freqAt b).toNat + (srcRest s).count b < 2 ^ 32) →
    ∃ f : Vector Count 256,
      exec .facc s = .next { s with
        freq := f, fvalid := true, src := { s.src with pos := s.src.data.length }
        draws := s.draws.drop (srcRest s).length, rsp := 0 } ∧
      ∀ b : Byte, (f[b.toNat]'b.isLt).toNat = (s.freqAt b).toNat + (srcRest s).count b

/-- R131, R289, R291: the byte `b` that would push its counter past `2^32 - 1` is read, is not counted, and
takes EOVERFLOW(b); the bytes before it are counted. -/
def Obligations.FaccOverflowIsPrecise : Prop :=
  ∀ (s : State) (before after : List Byte) (b : Byte), s.fault = false → s.fvalid = false → NoIoFailure s →
    srcRest s = before ++ b :: after → (∀ c, (s.freqAt c).toNat + before.count c < 2 ^ 32) →
    (s.freqAt b).toNat + before.count b = 2 ^ 32 - 1 →
    ∃ f : Vector Count 256,
      exec .facc s = .next { s with
        freq := f, src := { s.src with pos := s.src.pos + before.length + 1 }
        draws := s.draws.drop (before.length + 3)
        fault := true, errcode := 0x12#8, errinfo := b.setWidth 16, rsp := 0x1200000000000000#64
        bsnk := { s.bsnk with mode := if s.bsnk.mode = .finalized then .finalized else .aborted }
        dsnk := { s.dsnk with mode := if s.dsnk.mode = .finalized then .finalized else .aborted } } ∧
      ∀ c : Byte, (f[c.toNat]'c.isLt).toNat = (s.freqAt c).toNat + before.count c

/-- R80, R283, R291: a read of the source that fails moves nothing and takes EIO(1); the bytes read before it
are counted. -/
def Obligations.FaccReadFailureIsPrecise : Prop :=
  ∀ (s : State) (n : Nat), s.fault = false → s.fvalid = false →
    Succeeds n s → eventAt s n = .fails → AbortsRun (n + 1) s → n < (srcRest s).length →
    (∀ c, (s.freqAt c).toNat + ((srcRest s).take n).count c < 2 ^ 32) →
    ∃ f : Vector Count 256,
      exec .facc s = .next { s with
        freq := f, src := { s.src with pos := s.src.pos + n }, draws := s.draws.drop (n + 3)
        fault := true, errcode := 0x04#8, errinfo := 1#16, rsp := 0x0400000000000000#64
        bsnk := { s.bsnk with mode := if s.bsnk.mode = .finalized then .finalized else .aborted }
        dsnk := { s.dsnk with mode := if s.dsnk.mode = .finalized then .finalized else .aborted } } ∧
      ∀ c : Byte, (f[c.toNat]'c.isLt).toNat = (s.freqAt c).toNat + ((srcRest s).take n).count c

/-- R132: `FLOAD` stores a count that is not zero into a counter that is zero, and writes nothing else. -/
def Obligations.FloadStoresTheCount : Prop :=
  ∀ (s : State) (sym : Symbol) (count : BitVec 32), s.fault = false → s.fvalid = false → count ≠ 0 →
    s.freqAt sym = 0 →
    exec (.fload sym count) s = .next { s with freq := s.freq.set sym.toNat count sym.isLt, rsp := 0 }

/-- R132, R285: a zero count or a second entry for the same symbol takes EMALFORMED(sym). -/
def Obligations.FloadRejectsMalformedEntries : Prop :=
  ∀ (s : State) (sym : Symbol) (count : BitVec 32), s.fault = false → s.fvalid = false → AbortsRun 0 s →
    count = 0 ∨ s.freqAt sym ≠ 0 →
    exec (.fload sym count) s = .next { s with
      fault := true, errcode := 0x03#8, errinfo := sym.setWidth 16, rsp := 0x0300000000000000#64
      draws := s.draws.drop 2
      bsnk := { s.bsnk with mode := if s.bsnk.mode = .finalized then .finalized else .aborted }
      dsnk := { s.dsnk with mode := if s.dsnk.mode = .finalized then .finalized else .aborted } }

/-- R133: `FREAD` answers the counter and changes nothing but `RSP`. -/
def Obligations.FreadAnswersTheCounter : Prop :=
  ∀ (s : State) (sym : Symbol), s.fault = false → s.fvalid = true →
    exec (.fread sym) s = .next { s with rsp := (s.freqAt sym).setWidth 64 }

/-- R270: a count loaded with `FLOAD` is what `FREAD` answers once the map is sealed by `TBUILD`. -/
def Obligations.FreadReturnsTheLoadedCount : Prop :=
  ∀ (s : State) (sym : Symbol) (n : BitVec 32), s.fault = false → s.fvalid = false → s.tvalid = false →
    s.live = [] → n ≠ 0 → s.freqAt sym = 0 →
    ∃ t, session [.fload sym n, .tbuild, .fread sym] s = .next t ∧ t.rsp = n.setWidth 64 ∧ t.fault = false

/-! ### Tree builder -/

/-- R150: on a map that is not empty `TBUILD` completes, seals the map, makes the builder's tree and touches
no port. -/
def Obligations.TbuildBuildsATree : Prop :=
  ∀ s : State, s.fault = false → s.tvalid = false → s.live = [] → (∃ b, s.freqAt b ≠ 0) →
    ∃ t, exec .tbuild s = .next t ∧ TreeOf t ∧
      t = { s with
        node := t.node, live := t.live, nsym := t.nsym, root := t.root, fvalid := true, tvalid := true, rsp := 0 }

/-- R157, R231, R281: on an empty map `TBUILD` and `DECODE` seal the map and take EEMPTY(0). -/
def Obligations.TbuildRejectsAnEmptyMap : Prop :=
  ∀ (i : Instr) (s : State), i = .tbuild ∨ (i = .decode ∧ s.ddone = false) → s.fault = false → s.tvalid = false →
    AbortsRun 0 s → (∀ b, s.freqAt b = 0) →
    exec i s = .next { s with
      node := [], nsym := 0, fvalid := true
      fault := true, errcode := 0x01#8, errinfo := 0, rsp := 0x0100000000000000#64
      draws := s.draws.drop 2
      bsnk := { s.bsnk with mode := if s.bsnk.mode = .finalized then .finalized else .aborted }
      dsnk := { s.dsnk with mode := if s.dsnk.mode = .finalized then .finalized else .aborted } }

/-- R152, R153, R154: one turn of the builder. The live handle that comes first by (frequency, handle) becomes
the left child, the next one the right child; the new node takes the next handle and the sum of their
frequencies and joins the collection in their place. -/
def Obligations.CombineStepMergesTheTwoFirst : Prop :=
  ∀ (a : Arena) (F : Handle → Nat), a.node.length < 511 → 2 ≤ a.live.length → a.live.Pairwise (· < ·) →
    (∀ h ∈ a.live, ∃ x, a.node[h.toNat]? = some x ∧ x.freq.toNat = F h) →
    ∃ b l r f, combineStep a = some b ∧ l ∈ a.live ∧ r ∈ a.live ∧ l ≠ r ∧
      (∀ h ∈ a.live, h ≠ l → F l < F h ∨ (F l = F h ∧ l < h)) ∧
      (∀ h ∈ a.live, h ≠ l → h ≠ r → F r < F h ∨ (F r = F h ∧ r < h)) ∧
      b.node = a.node ++ [.internal f l r] ∧ (F l + F r < 2 ^ 40 → f.toNat = F l + F r) ∧
      b.live.Pairwise (· < ·) ∧
      ∀ h : Handle, h ∈ b.live ↔ (h ∈ a.live ∧ h ≠ l ∧ h ≠ r) ∨ h.toNat = a.node.length

/-- R26, R260: the builder's tree is strict binary, unshared and acyclic, with `2k - 1` nodes, and only its root
is live. -/
def Obligations.BuiltTreeIsStrict : Prop :=
  ∀ s : State, TreeOf s → StrictTree s.node s.root s.nsym.toNat ∧ s.live = [s.root] ∧
    s.ncount.toNat = 2 * s.nsym.toNat - 1

/-- R27: the leaves are the symbols with a non-zero counter, each with its count, in ascending order at handles
`0..k-1`. -/
def Obligations.LeavesStandInSymbolOrder : Prop :=
  ∀ s : State, TreeOf s →
    s.nsym.toNat = ((List.range 256).filter fun n => (s.freq[n]?.getD 0) ≠ 0).length ∧
    ∀ i n : Nat, ((List.range 256).filter fun n => (s.freq[n]?.getD 0) ≠ 0)[i]? = some n →
      ∃ f, s.node[i]? = some (.leaf (BitVec.ofNat 8 n) f) ∧ f.toNat = (s.freq[n]?.getD 0).toNat

/-- R155, R271: the root's frequency is the sum of all counters. -/
def Obligations.RootFrequencyIsTheTotal : Prop :=
  ∀ s : State, TreeOf s → ∃ x, s.nodeAt? s.root = some x ∧ x.freq.toNat = totalCount s.freq

/-- R159, R267: the tree depends on the counters alone. -/
def Obligations.TbuildDependsOnTheCountersOnly : Prop :=
  ∀ s s' t t' : State, s.freq = s'.freq → s.live = [] → s'.live = [] → s.fault = false → s'.fault = false →
    s.tvalid = false → s'.tvalid = false → AbortsRun 0 s → AbortsRun 0 s' →
    exec .tbuild s = .next t → exec .tbuild s' = .next t' →
    t.node = t'.node ∧ t.live = t'.live ∧ t.nsym = t'.nsym ∧ t.fault = t'.fault ∧
      (t.fault = false → t.root = t'.root)

/-- R156: one distinct symbol gives a single leaf and no internal node. -/
def Obligations.OneSymbolGivesOneLeaf : Prop :=
  ∀ (s : State) (b : Symbol), s.fault = false → s.tvalid = false → s.live = [] →
    (∀ a, s.freqAt a ≠ 0 ↔ a = b) →
    exec .tbuild s = .next { s with
      node := [.leaf b ((s.freqAt b).setWidth 40)], live := [0], nsym := 1, root := 0
      fvalid := true, tvalid := true, rsp := 0 }

/-! ### Code-table generator -/

/-- R170: `CGEN` on a tree of the builder completes, generates the Code Map and touches no port. -/
def Obligations.CgenGeneratesTheCodeMap : Prop :=
  ∀ s : State, s.fault = false → s.tvalid = true → s.cvalid = false → TreeOf s →
    s.code = Vector.replicate 256 ⟨0, 0⟩ →
    ∃ t, exec .cgen s = .next t ∧ CodesOf t ∧ t = { s with code := t.code, cvalid := true, rsp := 0 }

/-- R175 (a), R34: exactly the counted symbols have a code, of 1 to 255 bits, stored left-aligned. -/
def Obligations.ExactlyCountedSymbolsHaveCodes : Prop :=
  ∀ s : State, TreeOf s → CodesOf s → ∀ b : Symbol,
    ((s.codeAt b).len ≠ 0 ↔ s.freqAt b ≠ 0) ∧
    ∀ n, n < 256 - (s.codeAt b).len.toNat → (s.codeAt b).bits.getLsbD n = false

/-- R171, R172: the code of a symbol is the path from the root to its leaf; the lone leaf gets "0". -/
def Obligations.CodeIsThePathToTheLeaf : Prop :=
  ∀ s : State, TreeOf s → CodesOf s → ∀ b : Symbol, s.freqAt b ≠ 0 →
    (s.nsym = 1 → (s.codeAt b).string = [false]) ∧
    (s.nsym ≠ 1 → ∃ f, follow s.node (s.codeAt b).string s.root = some (.leaf b f))

/-- R261: no code is a prefix of another. -/
def Obligations.CodesArePrefixFree : Prop :=
  ∀ s : State, TreeOf s → CodesOf s → ∀ a b : Symbol, a ≠ b → (s.codeAt a).len ≠ 0 → (s.codeAt b).len ≠ 0 →
    ¬ (s.codeAt a).string <+: (s.codeAt b).string

/-- R262: a more frequent symbol never has a longer code. -/
def Obligations.MoreFrequentSymbolsHaveNoLongerCodes : Prop :=
  ∀ s : State, TreeOf s → CodesOf s → ∀ a b : Symbol, s.freqAt b ≠ 0 → (s.freqAt b) < (s.freqAt a) →
    (s.codeAt a).len ≤ (s.codeAt b).len

/-- R173: `CREAD` answers the length and chunk `j` of the code and changes nothing but `RSP`. -/
def Obligations.CreadAnswersTheChunk : Prop :=
  ∀ (s : State) (sym : Symbol) (j : BitVec 3), s.fault = false → s.cvalid = true →
    ∃ v : BitVec 56, exec (.cread sym j) s = .next { s with rsp := 0#8 ++ v } ∧
      v.extractLsb' 40 16 = 0 ∧ v.extractLsb' 32 8 = (s.codeAt sym).len ∧
      ∀ n, n < 32 → v.getLsbD n = (s.codeAt sym).bits.getLsbD (224 - 32 * j.toNat + n)

/-! ### Bit encoder -/

/-- R190, R191, R193: `BENC` appends the code of each byte left in the source, in order, drains the source,
finalizes the sink (R63, R71) and sets `EDONE`; nothing else is written. -/
def Obligations.BencWritesTheCodes : Prop :=
  ∀ s : State, s.fault = false → s.cvalid = true → s.edone = false → NoIoFailure s → s.bsnk.mode = .opened →
    s.src.pos ≤ s.src.data.length → (∀ b ∈ srcRest s, (s.codeAt b).len ≠ 0) →
    exec .benc s = .next { s with
      bsnk := ⟨s.bsnk.bits ++ codeStream s (srcRest s), .finalized,
        pack .msbFirst false (s.bsnk.bits ++ codeStream s (srcRest s))⟩
      src := { s.src with pos := s.src.data.length }
      draws := s.draws.drop ((srcRest s).length + (codeStream s (srcRest s)).length + 1)
      edone := true, rsp := 0 }

/-- R192, R282, R291: a byte without a code takes EMISSING; the codes of the bytes before it have been written,
none of its own bits has, and the sink is aborted. -/
def Obligations.BencMissingCodeIsPrecise : Prop :=
  ∀ (s : State) (before after : List Byte) (b : Byte), s.fault = false → s.cvalid = true → s.edone = false →
    NoIoFailure s → s.bsnk.mode = .opened → srcRest s = before ++ b :: after →
    (∀ c ∈ before, (s.codeAt c).len ≠ 0) → (s.codeAt b).len = 0 →
    exec .benc s = .next { s with
      bsnk := { s.bsnk with bits := s.bsnk.bits ++ codeStream s before, mode := .aborted }
      dsnk := { s.dsnk with mode := if s.dsnk.mode = .finalized then .finalized else .aborted }
      src := { s.src with pos := s.src.pos + before.length + 1 }
      draws := s.draws.drop (before.length + (codeStream s before).length + 3)
      fault := true, errcode := 0x02#8, errinfo := b.setWidth 16, rsp := 0x0200000000000000#64 }

/-- R66, R334: the first write to a sink that is not OPEN takes EIO(2) after the byte was read. -/
def Obligations.BencNeedsAnOpenSink : Prop :=
  ∀ (s : State) (b : Byte), s.fault = false → s.cvalid = true → s.edone = false → NoIoFailure s →
    s.bsnk.mode ≠ .opened → s.src.data[s.src.pos]? = some b → (s.codeAt b).len ≠ 0 →
    exec .benc s = .next { s with
      dsnk := { s.dsnk with mode := if s.dsnk.mode = .finalized then .finalized else .aborted }
      src := { s.src with pos := s.src.pos + 1 }, draws := s.draws.drop 4
      fault := true, errcode := 0x04#8, errinfo := 2#16, rsp := 0x0400000000000000#64 }

/-! ### Bit decoder -/

/-- R210, R211, R213, R216: on a tree of two or more symbols `BDEC` accepts every bit sequence. The stream is cut
into paths from the root to a leaf, each of which emits that leaf's symbol, and a rest that ends at an
internal node, which is discarded and leaves its trace in `PTR`. -/
def Obligations.BdecParsesEveryStream : Prop :=
  ∀ s : State, s.fault = false → s.tvalid = true → s.ddone = false → TreeOf s → s.nsym ≠ 1 → NoIoFailure s →
    s.dsnk.mode = .opened → s.bsrc.pos ≤ s.bsrc.bits.length →
    ∃ (parts : List (Symbol × List Bool)) (rest : List Bool) (p : Handle),
      exec .bdec s = .next { s with
        dsnk := ⟨s.dsnk.data ++ parts.map Prod.fst, .finalized⟩
        bsrc := { s.bsrc with pos := s.bsrc.bits.length }
        draws := s.draws.drop ((bsrcRest s).length + parts.length + 1)
        ptr := p, ddone := true, rsp := 0 } ∧
      bsrcRest s = (parts.map Prod.snd).flatten ++ rest ∧
      (∀ x ∈ parts, ∃ f, follow s.node x.2 s.root = some (.leaf x.1 f)) ∧
      ∃ f l r, follow s.node rest s.root = some (.internal f l r) ∧ s.nodeAt? p = some (.internal f l r) ∧
        (rest = [] ↔ p = s.root)

/-- R212: on a single-leaf tree every bit, 0 or 1, emits the symbol once. -/
def Obligations.BdecSingleLeafEmitsPerBit : Prop :=
  ∀ (s : State) (sym : Symbol) (f : NodeFreq), s.fault = false → s.tvalid = true → s.ddone = false →
    s.nodeAt? s.root = some (.leaf sym f) → NoIoFailure s → s.dsnk.mode = .opened →
    s.bsrc.pos ≤ s.bsrc.bits.length →
    exec .bdec s = .next { s with
      dsnk := ⟨s.dsnk.data ++ List.replicate (bsrcRest s).length sym, .finalized⟩
      bsrc := { s.bsrc with pos := s.bsrc.bits.length }
      draws := s.draws.drop (2 * (bsrcRest s).length + 1)
      ptr := s.root, ddone := true, rsp := 0 }

/-- R66, R80, R193, R215, R283, R291: any port call of `BENC`, `BDEC` or `DECODE` that fails, because the environment
refuses it or because the sink it writes or finalizes is not OPEN, takes EIO with the number of its port: 1 for the
read of a byte, 2 for the write of a bit and the finalize of the bit sink, 3 for the read of a bit, 4 for the write of
a byte and the finalize of the byte sink. The failed call moves nothing; what the calls before it did stays. That the
call after the last item of a source is the finalize, and that the aborts do not fail, is the model's reading: the
queries for exhaustion and the aborts never fail (notes/assumptions/8.md). -/
def Obligations.RefusedPortCallsNameTheirPort : Prop :=
  (∀ (s : State) (r n : Nat) (w : List Bool) (port : BitVec 16), s.fault = false → s.cvalid = true → s.edone = false →
    EncodedUpTo s (srcRest s) r w → (∀ b ∈ (srcRest s).take r, (s.codeAt b).len ≠ 0) →
    (w ≠ [] → s.bsnk.mode = .opened) → n = r + w.length → Succeeds n s → AbortsRun (n + 1) s →
    (port = 1 ∧ NextIsRead s (srcRest s) r w) ∨ (port = 2 ∧ ¬ NextIsRead s (srcRest s) r w) →
    eventAt s n = .fails ∨ (eventAt s n = .succeeds ∧ port = 2 ∧ s.bsnk.mode ≠ .opened) →
    exec .benc s = .next { s with
      src := { s.src with pos := s.src.pos + r }, draws := s.draws.drop (n + 3)
      bsnk := { s.bsnk with
        bits := s.bsnk.bits ++ w, mode := if s.bsnk.mode = .finalized then .finalized else .aborted }
      dsnk := { s.dsnk with mode := if s.dsnk.mode = .finalized then .finalized else .aborted }
      fault := true, errcode := 0x04#8, errinfo := port, rsp := 0x0400000000000000#64 }) ∧
  (∀ (i : Instr) (s t : State) (parts : List (Symbol × List Bool)) (x : List Bool) (n : Nat) (port : BitVec 16),
    DecodesOn i s t → DecodedUpTo t parts x → (parts ≠ [] → s.dsnk.mode = .opened) →
    n = ((parts.map Prod.snd).flatten ++ x).length + parts.length → Succeeds n s → AbortsRun (n + 1) s →
    (port = 3 ∧ StaysInside t x ∧ (parts.map Prod.snd).flatten ++ x ≠ bsrcRest s) ∨
      (port = 4 ∧ StaysInside t x ∧ (parts.map Prod.snd).flatten ++ x = bsrcRest s) ∨
      (port = 4 ∧ ∃ sym, Emits t sym x) →
    eventAt s n = .fails ∨ (eventAt s n = .succeeds ∧ port = 4 ∧ s.dsnk.mode ≠ .opened) →
    ∃ p : Handle,
      exec i s = .next { t with
        ptr := p, draws := s.draws.drop (n + 3)
        bsrc := { s.bsrc with pos := s.bsrc.pos + ((parts.map Prod.snd).flatten ++ x).length }
        dsnk := { s.dsnk with
          data := s.dsnk.data ++ parts.map Prod.fst, mode := if s.dsnk.mode = .finalized then .finalized else .aborted }
        bsnk := { s.bsnk with mode := if s.bsnk.mode = .finalized then .finalized else .aborted }
        fault := true, errcode := 0x04#8, errinfo := port, rsp := 0x0400000000000000#64 } ∧
      (x = [] → p = t.root) ∧ (x ≠ [] → StaysInside t x → t.nodeAt? p = follow t.node x t.root) ∧
      ∀ sym, Emits t sym x → ∃ f, t.nodeAt? p = some (.leaf sym f))

/-- R263: on the exact stream of `S` the decoder emits `S` and stops at the root. -/
def Obligations.DecoderInvertsEncoder : Prop :=
  ∀ (s : State) (S : List Byte), s.fault = false → s.tvalid = true → s.ddone = false → TreeOf s → CodesOf s →
    NoIoFailure s → s.dsnk = ⟨[], .opened⟩ → s.bsrc = ⟨codeStream s S, 0⟩ → (∀ b ∈ S, (s.codeAt b).len ≠ 0) →
    ∃ t, exec .bdec s = .next t ∧ t.dsnk = ⟨S, .finalized⟩ ∧ t.ptr = t.root ∧ t.rsp = 0

/-- R214, R265: with `p` pad bits of value 0 after the stream of `S` the decoder emits `S` and then `p / d`
copies of the symbol whose code is the all-zeros code, of length `d`. -/
def Obligations.PadBitsDecodeToTheLeftmostLeaf : Prop :=
  ∀ (s : State) (S : List Byte) (p : Nat), s.fault = false → s.tvalid = true → s.ddone = false → TreeOf s →
    CodesOf s → NoIoFailure s → s.dsnk = ⟨[], .opened⟩ →
    s.bsrc = ⟨codeStream s S ++ List.replicate p false, 0⟩ → (∀ b ∈ S, (s.codeAt b).len ≠ 0) →
    ∃ (t : State) (z : Symbol) (d : Nat), 1 ≤ d ∧ (s.codeAt z).string = List.replicate d false ∧
      exec .bdec s = .next t ∧ t.dsnk = ⟨S ++ List.replicate (p / d) z, .finalized⟩ ∧ t.rsp = 0 ∧
      (t.ptr = t.root ↔ d ∣ p)

/-- R69, R71, R72: unpacking the packed bits gives the bits and their pad, for either bit order and pad value. -/
def Obligations.UnpackOfPackAddsThePad : Prop :=
  ∀ (order : BitOrder) (pad : Bool) (bits : List Bool),
    unpack order (pack order pad bits) = bits ++ List.replicate ((8 - bits.length % 8) % 8) pad

/-! ### Driver commands -/

/-- R230: on a non-empty input `ENCODE` counts it, builds the tree and the Code Map of the counts, and writes the
stream of the whole input. -/
def Obligations.EncodeRunsTheWholePipeline : Prop :=
  ∀ s : State, s.fault = false → NoIoFailure s → s.bsnk.mode = .opened → s.src.data ≠ [] →
    (∀ b, s.src.data.count b < 2 ^ 32) →
    ∃ t, exec .encode s = .next t ∧ (∀ b, (t.freqAt b).toNat = s.src.data.count b) ∧ TreeOf t ∧ CodesOf t ∧
      t.bsnk = ⟨s.bsnk.bits ++ codeStream t s.src.data, .finalized,
        pack .msbFirst false (s.bsnk.bits ++ codeStream t s.src.data)⟩ ∧
      t = { s with
        freq := t.freq, node := t.node, live := t.live, nsym := t.nsym, root := t.root, code := t.code, ptr := 0
        fvalid := true, tvalid := true, cvalid := true, edone := true, ddone := false, fault := false
        errcode := 0, errinfo := 0, rsp := 0, bsnk := t.bsnk, src := { s.src with pos := s.src.data.length }
        draws := s.draws.drop (2 * s.src.data.length + (codeStream t s.src.data).length + 3) }

/-- R230, R269: `ENCODE` on an empty input takes EEMPTY before any bit is written. -/
def Obligations.EncodeRejectsEmptyInput : Prop :=
  ∀ s : State, s.fault = false → NoIoFailure s → s.src.data = [] →
    ∃ t, exec .encode s = .next t ∧ t.rsp = 0x0100000000000000#64 ∧ t.fault = true ∧ t.errcode = 0x01#8 ∧
      t.errinfo = 0 ∧ t.bsnk = { s.bsnk with mode := if s.bsnk.mode = .finalized then .finalized else .aborted } ∧
      t.dsnk = { s.dsnk with mode := if s.dsnk.mode = .finalized then .finalized else .aborted } ∧
      t.fvalid = true ∧ t.tvalid = false

/-- R230, R235: `ENCODE` has the effect of the component commands issued in order and stopped at the first one that
faults, whatever port call fails; where none faults, that is the whole session. (A reset during `ENCODE` ends all of
it, a reset during one command of the session only that one: no reset strikes here.) -/
def Obligations.EncodeEqualsItsSession : Prop :=
  ∀ s : State, s.fault = false → NoResetStrike s →
    exec .encode s = sessionUntilFault [.clr, .rewind, .facc, .tbuild, .cgen, .rewind, .benc] s ∧
    ∀ t, exec .encode s = .next t → t.fault = false →
      session [.clr, .rewind, .facc, .tbuild, .cgen, .rewind, .benc] s = .next t

/-- R231: `DECODE` has the effect of `TBUILD` and, unless that faults, `BDEC`, whatever port call fails; on a loaded map,
with no I/O failure and an open sink, it builds the map's tree and drains the bit source. -/
def Obligations.DecodeBuildsAndWalks : Prop :=
  (∀ s : State, s.fault = false → s.tvalid = false → s.ddone = false → NoResetStrike s →
    exec .decode s = sessionUntilFault [.tbuild, .bdec] s) ∧
  ∀ s : State, s.fault = false → s.tvalid = false → s.ddone = false → s.live = [] → NoIoFailure s →
    s.dsnk.mode = .opened → s.bsrc.pos ≤ s.bsrc.bits.length → (∃ b, s.freqAt b ≠ 0) →
    ∃ t, exec .decode s = .next t ∧ session [.tbuild, .bdec] s = .next t ∧ TreeOf t ∧ t.dsnk.mode = .finalized ∧
      t = { s with
        node := t.node, live := t.live, nsym := t.nsym, root := t.root, ptr := t.ptr, draws := t.draws
        fvalid := true, tvalid := true, ddone := true, rsp := 0, dsnk := t.dsnk
        bsrc := { s.bsrc with pos := s.bsrc.bits.length } }

/-- R264: the round trip in the exact environment. `ENCODE` an input, give the sink's bits to the bit source, clear
the core, load the map that the encode run counted, `DECODE`: the output is the input. -/
def Obligations.RoundTripIsExact : Prop :=
  ∀ (s : State) (S : List Byte), s.fault = false → NoIoFailure s → S ≠ [] → (∀ b, S.count b < 2 ^ 32) →
    ∃ t u, exec .encode (attachBsnk (attachSrc S s)) = .next t ∧ t.rsp = 0 ∧
      session ([.clr] ++ loadCommands t.freq ++ [.decode]) (attachBsrc t.bsnk.bits (attachDsnk t)) = .next u ∧
      u.rsp = 0 ∧ u.dsnk = ⟨S, .finalized⟩ ∧ u.ptr = u.root

/-! ### Rules about the whole machine -/

/-- R23, R31, R35: a valid map, tree or Code Map is written by no command but `CLR` and `ENCODE`. -/
def Obligations.ValidTablesAreImmutable : Prop :=
  ∀ (i : Instr) (s t : State), i ≠ .clr → i ≠ .encode → NoResetStrike s → exec i s = .next t →
    (s.fvalid = true → t.freq = s.freq) ∧
    (s.tvalid = true → t.node = s.node ∧ t.live = s.live ∧ t.nsym = s.nsym ∧ t.root = s.root) ∧
    (s.cvalid = true → t.code = s.code)

/-- R36: only `BDEC`, `DECODE`, `CLR` and `ENCODE` write `PTR`. -/
def Obligations.OnlyFourCommandsWritePtr : Prop :=
  ∀ (i : Instr) (s t : State), i ≠ .bdec → i ≠ .decode → i ≠ .clr → i ≠ .encode → NoResetStrike s →
    exec i s = .next t → t.ptr = s.ptr

/-- R60: each stream is moved only by the commands that use its port, and no command changes what a source
holds; only a sink's mode may change with any command, when it faults. R76: writes append and cannot be taken
back. -/
def Obligations.PortsAreUsedByTheirCommandsOnly : Prop :=
  ∀ (i : Instr) (s t : State), exec i s = .next t →
    t.src.data = s.src.data ∧ t.bsrc.bits = s.bsrc.bits ∧ t.host = s.host ∧
    s.bsnk.bits <+: t.bsnk.bits ∧ s.dsnk.data <+: t.dsnk.data ∧
    (i ≠ .facc → i ≠ .benc → i ≠ .encode → i ≠ .rewind → t.src = s.src) ∧
    (i ≠ .bdec → i ≠ .decode → t.bsrc = s.bsrc ∧ t.dsnk.data = s.dsnk.data) ∧
    (i ≠ .benc → i ≠ .encode → t.bsnk.bits = s.bsnk.bits ∧ t.bsnk.flushed = s.bsnk.flushed)

/-- R193, R215, R238: a sink becomes FINAL only in a command that ends well, whatever the environment fails. -/
def Obligations.FinalOutputsAreComplete : Prop :=
  ∀ (i : Instr) (s t : State), exec i s = .next t →
    (s.bsnk.mode ≠ .finalized → t.bsnk.mode = .finalized →
      (i = .benc ∨ i = .encode) ∧ t.fault = false ∧ t.rsp = 0 ∧ t.edone = true ∧
        t.src.data.length ≤ t.src.pos) ∧
    (s.dsnk.mode ≠ .finalized → t.dsnk.mode = .finalized →
      (i = .bdec ∨ i = .decode) ∧ t.fault = false ∧ t.rsp = 0 ∧ t.ddone = true ∧
        t.bsrc.bits.length ≤ t.bsrc.pos)

/-- R46: every step keeps the flag implications. -/
def Obligations.StepKeepsFlagOrder : Prop := ∀ s t : State, FlagOrder s → step s = .next t → FlagOrder t

/-- The state after reset satisfies the invariant (its empty streams are the model's choice,
notes/assumptions/1.md). -/
def Obligations.ResetSatisfiesTheInvariant : Prop := Inv State.reset

/-- Every step keeps the invariant: cursors inside their streams, legal flags, a recorded cause exactly while
`FAULT = 1`, and, while `FAULT = 0`, the builder's tree of the counters and the generator's codes of the tree. -/
def Obligations.StepKeepsTheInvariant : Prop := ∀ s t : State, Inv s → step s = .next t → Inv t

/-- From every state that satisfies the invariant the machine answers a next state: it never stops, whatever
the host issues and whatever the environment fails. -/
def Obligations.InvariantStatesNeverStop : Prop := ∀ s : State, Inv s → ∃ t, step s = .next t
end

