-- ==== Sys2Proof/Laws/State.lean ====
section
/-! SUPPORT. One lemma per field for each update of the state, so that no proof unfolds a record update; and
the reads of the counter array after a write. -/

namespace Sys2Proof.Machine

/-! ### `setFreq` -/

@[simp] theorem setFreq_freq (s : State) (b : Symbol) (c : Count) : (s.setFreq b c).freq = s.freq.set b.toNat c b.isLt := rfl
@[simp] theorem setFreq_node (s : State) (b : Symbol) (c : Count) : (s.setFreq b c).node = s.node := rfl
@[simp] theorem setFreq_live (s : State) (b : Symbol) (c : Count) : (s.setFreq b c).live = s.live := rfl
@[simp] theorem setFreq_nsym (s : State) (b : Symbol) (c : Count) : (s.setFreq b c).nsym = s.nsym := rfl
@[simp] theorem setFreq_root (s : State) (b : Symbol) (c : Count) : (s.setFreq b c).root = s.root := rfl
@[simp] theorem setFreq_ptr (s : State) (b : Symbol) (c : Count) : (s.setFreq b c).ptr = s.ptr := rfl
@[simp] theorem setFreq_code (s : State) (b : Symbol) (c : Count) : (s.setFreq b c).code = s.code := rfl
@[simp] theorem setFreq_fvalid (s : State) (b : Symbol) (c : Count) : (s.setFreq b c).fvalid = s.fvalid := rfl
@[simp] theorem setFreq_tvalid (s : State) (b : Symbol) (c : Count) : (s.setFreq b c).tvalid = s.tvalid := rfl
@[simp] theorem setFreq_cvalid (s : State) (b : Symbol) (c : Count) : (s.setFreq b c).cvalid = s.cvalid := rfl
@[simp] theorem setFreq_edone (s : State) (b : Symbol) (c : Count) : (s.setFreq b c).edone = s.edone := rfl
@[simp] theorem setFreq_ddone (s : State) (b : Symbol) (c : Count) : (s.setFreq b c).ddone = s.ddone := rfl
@[simp] theorem setFreq_fault (s : State) (b : Symbol) (c : Count) : (s.setFreq b c).fault = s.fault := rfl
@[simp] theorem setFreq_errcode (s : State) (b : Symbol) (c : Count) : (s.setFreq b c).errcode = s.errcode := rfl
@[simp] theorem setFreq_errinfo (s : State) (b : Symbol) (c : Count) : (s.setFreq b c).errinfo = s.errinfo := rfl
@[simp] theorem setFreq_rsp (s : State) (b : Symbol) (c : Count) : (s.setFreq b c).rsp = s.rsp := rfl
@[simp] theorem setFreq_src (s : State) (b : Symbol) (c : Count) : (s.setFreq b c).src = s.src := rfl
@[simp] theorem setFreq_bsnk (s : State) (b : Symbol) (c : Count) : (s.setFreq b c).bsnk = s.bsnk := rfl
@[simp] theorem setFreq_bsrc (s : State) (b : Symbol) (c : Count) : (s.setFreq b c).bsrc = s.bsrc := rfl
@[simp] theorem setFreq_dsnk (s : State) (b : Symbol) (c : Count) : (s.setFreq b c).dsnk = s.dsnk := rfl
@[simp] theorem setFreq_draws (s : State) (b : Symbol) (c : Count) : (s.setFreq b c).draws = s.draws := rfl
@[simp] theorem setFreq_host (s : State) (b : Symbol) (c : Count) : (s.setFreq b c).host = s.host := rfl

/-! ### `respond` -/

@[simp] theorem respond_freq (c : BitVec 8) (v : RspValue) (s : State) : (respond c v s).freq = s.freq := rfl
@[simp] theorem respond_node (c : BitVec 8) (v : RspValue) (s : State) : (respond c v s).node = s.node := rfl
@[simp] theorem respond_live (c : BitVec 8) (v : RspValue) (s : State) : (respond c v s).live = s.live := rfl
@[simp] theorem respond_nsym (c : BitVec 8) (v : RspValue) (s : State) : (respond c v s).nsym = s.nsym := rfl
@[simp] theorem respond_root (c : BitVec 8) (v : RspValue) (s : State) : (respond c v s).root = s.root := rfl
@[simp] theorem respond_ptr (c : BitVec 8) (v : RspValue) (s : State) : (respond c v s).ptr = s.ptr := rfl
@[simp] theorem respond_code (c : BitVec 8) (v : RspValue) (s : State) : (respond c v s).code = s.code := rfl
@[simp] theorem respond_fvalid (c : BitVec 8) (v : RspValue) (s : State) : (respond c v s).fvalid = s.fvalid := rfl
@[simp] theorem respond_tvalid (c : BitVec 8) (v : RspValue) (s : State) : (respond c v s).tvalid = s.tvalid := rfl
@[simp] theorem respond_cvalid (c : BitVec 8) (v : RspValue) (s : State) : (respond c v s).cvalid = s.cvalid := rfl
@[simp] theorem respond_edone (c : BitVec 8) (v : RspValue) (s : State) : (respond c v s).edone = s.edone := rfl
@[simp] theorem respond_ddone (c : BitVec 8) (v : RspValue) (s : State) : (respond c v s).ddone = s.ddone := rfl
@[simp] theorem respond_fault (c : BitVec 8) (v : RspValue) (s : State) : (respond c v s).fault = s.fault := rfl
@[simp] theorem respond_errcode (c : BitVec 8) (v : RspValue) (s : State) : (respond c v s).errcode = s.errcode := rfl
@[simp] theorem respond_errinfo (c : BitVec 8) (v : RspValue) (s : State) : (respond c v s).errinfo = s.errinfo := rfl
@[simp] theorem respond_rsp (c : BitVec 8) (v : RspValue) (s : State) : (respond c v s).rsp = c ++ v := rfl
@[simp] theorem respond_src (c : BitVec 8) (v : RspValue) (s : State) : (respond c v s).src = s.src := rfl
@[simp] theorem respond_bsnk (c : BitVec 8) (v : RspValue) (s : State) : (respond c v s).bsnk = s.bsnk := rfl
@[simp] theorem respond_bsrc (c : BitVec 8) (v : RspValue) (s : State) : (respond c v s).bsrc = s.bsrc := rfl
@[simp] theorem respond_dsnk (c : BitVec 8) (v : RspValue) (s : State) : (respond c v s).dsnk = s.dsnk := rfl
@[simp] theorem respond_draws (c : BitVec 8) (v : RspValue) (s : State) : (respond c v s).draws = s.draws := rfl
@[simp] theorem respond_host (c : BitVec 8) (v : RspValue) (s : State) : (respond c v s).host = s.host := rfl

/-! ### `coreClear` -/

@[simp] theorem coreClear_freq (s : State) : (coreClear s).freq = Vector.replicate Config.numSymbols 0 := rfl
@[simp] theorem coreClear_node (s : State) : (coreClear s).node = [] := rfl
@[simp] theorem coreClear_live (s : State) : (coreClear s).live = [] := rfl
@[simp] theorem coreClear_nsym (s : State) : (coreClear s).nsym = 0 := rfl
@[simp] theorem coreClear_root (s : State) : (coreClear s).root = 0 := rfl
@[simp] theorem coreClear_ptr (s : State) : (coreClear s).ptr = 0 := rfl
@[simp] theorem coreClear_code (s : State) : (coreClear s).code = Vector.replicate Config.numSymbols Code.none := rfl
@[simp] theorem coreClear_fvalid (s : State) : (coreClear s).fvalid = false := rfl
@[simp] theorem coreClear_tvalid (s : State) : (coreClear s).tvalid = false := rfl
@[simp] theorem coreClear_cvalid (s : State) : (coreClear s).cvalid = false := rfl
@[simp] theorem coreClear_edone (s : State) : (coreClear s).edone = false := rfl
@[simp] theorem coreClear_ddone (s : State) : (coreClear s).ddone = false := rfl
@[simp] theorem coreClear_fault (s : State) : (coreClear s).fault = false := rfl
@[simp] theorem coreClear_errcode (s : State) : (coreClear s).errcode = 0 := rfl
@[simp] theorem coreClear_errinfo (s : State) : (coreClear s).errinfo = 0 := rfl
@[simp] theorem coreClear_rsp (s : State) : (coreClear s).rsp = s.rsp := rfl
@[simp] theorem coreClear_src (s : State) : (coreClear s).src = s.src := rfl
@[simp] theorem coreClear_bsnk (s : State) : (coreClear s).bsnk = s.bsnk := rfl
@[simp] theorem coreClear_bsrc (s : State) : (coreClear s).bsrc = s.bsrc := rfl
@[simp] theorem coreClear_dsnk (s : State) : (coreClear s).dsnk = s.dsnk := rfl
@[simp] theorem coreClear_draws (s : State) : (coreClear s).draws = s.draws := rfl
@[simp] theorem coreClear_host (s : State) : (coreClear s).host = s.host := rfl

/-! ### `hardReset` -/

@[simp] theorem hardReset_freq (s : State) : (hardReset s).freq = Vector.replicate Config.numSymbols 0 := rfl
@[simp] theorem hardReset_node (s : State) : (hardReset s).node = [] := rfl
@[simp] theorem hardReset_live (s : State) : (hardReset s).live = [] := rfl
@[simp] theorem hardReset_nsym (s : State) : (hardReset s).nsym = 0 := rfl
@[simp] theorem hardReset_root (s : State) : (hardReset s).root = 0 := rfl
@[simp] theorem hardReset_ptr (s : State) : (hardReset s).ptr = 0 := rfl
@[simp] theorem hardReset_code (s : State) : (hardReset s).code = Vector.replicate Config.numSymbols Code.none := rfl
@[simp] theorem hardReset_fvalid (s : State) : (hardReset s).fvalid = false := rfl
@[simp] theorem hardReset_tvalid (s : State) : (hardReset s).tvalid = false := rfl
@[simp] theorem hardReset_cvalid (s : State) : (hardReset s).cvalid = false := rfl
@[simp] theorem hardReset_edone (s : State) : (hardReset s).edone = false := rfl
@[simp] theorem hardReset_ddone (s : State) : (hardReset s).ddone = false := rfl
@[simp] theorem hardReset_fault (s : State) : (hardReset s).fault = false := rfl
@[simp] theorem hardReset_errcode (s : State) : (hardReset s).errcode = 0 := rfl
@[simp] theorem hardReset_errinfo (s : State) : (hardReset s).errinfo = 0 := rfl
@[simp] theorem hardReset_rsp (s : State) : (hardReset s).rsp = 0 := rfl
@[simp] theorem hardReset_src (s : State) : (hardReset s).src = s.src := rfl
@[simp] theorem hardReset_bsnk (s : State) : (hardReset s).bsnk = s.bsnk := rfl
@[simp] theorem hardReset_bsrc (s : State) : (hardReset s).bsrc = s.bsrc := rfl
@[simp] theorem hardReset_dsnk (s : State) : (hardReset s).dsnk = s.dsnk := rfl
@[simp] theorem hardReset_draws (s : State) : (hardReset s).draws = s.draws := rfl
@[simp] theorem hardReset_host (s : State) : (hardReset s).host = s.host := rfl

/-! ### `faulted` -/

/-- The state a fault entry that runs to its end leaves, field by field (R286). `takeFault_eq` says where it is what
`takeFault` leaves. -/
def faulted (c : ErrCode) (info : BitVec 16) (s : State) : State := { s with
  fault := true, errcode := c.code, errinfo := info, rsp := c.code ++ 0#56, draws := s.draws.drop 2
  bsnk := { s.bsnk with mode := if s.bsnk.mode = .finalized then .finalized else .aborted }
  dsnk := { s.dsnk with mode := if s.dsnk.mode = .finalized then .finalized else .aborted } }

@[simp] theorem faulted_freq (c : ErrCode) (info : BitVec 16) (s : State) : (faulted c info s).freq = s.freq := rfl
@[simp] theorem faulted_node (c : ErrCode) (info : BitVec 16) (s : State) : (faulted c info s).node = s.node := rfl
@[simp] theorem faulted_live (c : ErrCode) (info : BitVec 16) (s : State) : (faulted c info s).live = s.live := rfl
@[simp] theorem faulted_nsym (c : ErrCode) (info : BitVec 16) (s : State) : (faulted c info s).nsym = s.nsym := rfl
@[simp] theorem faulted_root (c : ErrCode) (info : BitVec 16) (s : State) : (faulted c info s).root = s.root := rfl
@[simp] theorem faulted_ptr (c : ErrCode) (info : BitVec 16) (s : State) : (faulted c info s).ptr = s.ptr := rfl
@[simp] theorem faulted_code (c : ErrCode) (info : BitVec 16) (s : State) : (faulted c info s).code = s.code := rfl
@[simp] theorem faulted_fvalid (c : ErrCode) (info : BitVec 16) (s : State) : (faulted c info s).fvalid = s.fvalid := rfl
@[simp] theorem faulted_tvalid (c : ErrCode) (info : BitVec 16) (s : State) : (faulted c info s).tvalid = s.tvalid := rfl
@[simp] theorem faulted_cvalid (c : ErrCode) (info : BitVec 16) (s : State) : (faulted c info s).cvalid = s.cvalid := rfl
@[simp] theorem faulted_edone (c : ErrCode) (info : BitVec 16) (s : State) : (faulted c info s).edone = s.edone := rfl
@[simp] theorem faulted_ddone (c : ErrCode) (info : BitVec 16) (s : State) : (faulted c info s).ddone = s.ddone := rfl
@[simp] theorem faulted_fault (c : ErrCode) (info : BitVec 16) (s : State) : (faulted c info s).fault = true := rfl
@[simp] theorem faulted_errcode (c : ErrCode) (info : BitVec 16) (s : State) : (faulted c info s).errcode = c.code := rfl
@[simp] theorem faulted_errinfo (c : ErrCode) (info : BitVec 16) (s : State) : (faulted c info s).errinfo = info := rfl
@[simp] theorem faulted_rsp (c : ErrCode) (info : BitVec 16) (s : State) : (faulted c info s).rsp = c.code ++ 0#56 := rfl
@[simp] theorem faulted_src (c : ErrCode) (info : BitVec 16) (s : State) : (faulted c info s).src = s.src := rfl
@[simp] theorem faulted_bsnk (c : ErrCode) (info : BitVec 16) (s : State) : (faulted c info s).bsnk = { s.bsnk with mode := if s.bsnk.mode = .finalized then .finalized else .aborted } := rfl
@[simp] theorem faulted_bsrc (c : ErrCode) (info : BitVec 16) (s : State) : (faulted c info s).bsrc = s.bsrc := rfl
@[simp] theorem faulted_dsnk (c : ErrCode) (info : BitVec 16) (s : State) : (faulted c info s).dsnk = { s.dsnk with mode := if s.dsnk.mode = .finalized then .finalized else .aborted } := rfl
@[simp] theorem faulted_draws (c : ErrCode) (info : BitVec 16) (s : State) : (faulted c info s).draws = s.draws.drop 2 := rfl
@[simp] theorem faulted_host (c : ErrCode) (info : BitVec 16) (s : State) : (faulted c info s).host = s.host := rfl

/-! ### `returnFromFault` -/

@[simp] theorem returnFromFault_freq (s : State) : (returnFromFault s).freq = Vector.replicate Config.numSymbols 0 := rfl
@[simp] theorem returnFromFault_node (s : State) : (returnFromFault s).node = [] := rfl
@[simp] theorem returnFromFault_live (s : State) : (returnFromFault s).live = [] := rfl
@[simp] theorem returnFromFault_nsym (s : State) : (returnFromFault s).nsym = 0 := rfl
@[simp] theorem returnFromFault_root (s : State) : (returnFromFault s).root = 0 := rfl
@[simp] theorem returnFromFault_ptr (s : State) : (returnFromFault s).ptr = 0 := rfl
@[simp] theorem returnFromFault_code (s : State) : (returnFromFault s).code = Vector.replicate Config.numSymbols Code.none := rfl
@[simp] theorem returnFromFault_fvalid (s : State) : (returnFromFault s).fvalid = false := rfl
@[simp] theorem returnFromFault_tvalid (s : State) : (returnFromFault s).tvalid = false := rfl
@[simp] theorem returnFromFault_cvalid (s : State) : (returnFromFault s).cvalid = false := rfl
@[simp] theorem returnFromFault_edone (s : State) : (returnFromFault s).edone = false := rfl
@[simp] theorem returnFromFault_ddone (s : State) : (returnFromFault s).ddone = false := rfl
@[simp] theorem returnFromFault_fault (s : State) : (returnFromFault s).fault = false := rfl
@[simp] theorem returnFromFault_errcode (s : State) : (returnFromFault s).errcode = 0 := rfl
@[simp] theorem returnFromFault_errinfo (s : State) : (returnFromFault s).errinfo = 0 := rfl
@[simp] theorem returnFromFault_rsp (s : State) : (returnFromFault s).rsp = okCode ++ (0 : RspValue) := rfl
@[simp] theorem returnFromFault_src (s : State) : (returnFromFault s).src = s.src := rfl
@[simp] theorem returnFromFault_bsnk (s : State) : (returnFromFault s).bsnk = s.bsnk := rfl
@[simp] theorem returnFromFault_bsrc (s : State) : (returnFromFault s).bsrc = s.bsrc := rfl
@[simp] theorem returnFromFault_dsnk (s : State) : (returnFromFault s).dsnk = s.dsnk := rfl
@[simp] theorem returnFromFault_draws (s : State) : (returnFromFault s).draws = s.draws := rfl
@[simp] theorem returnFromFault_host (s : State) : (returnFromFault s).host = s.host := rfl

/-! ### `refuseFaulted` -/

@[simp] theorem refuseFaulted_freq (s : State) : (refuseFaulted s).freq = s.freq := rfl
@[simp] theorem refuseFaulted_node (s : State) : (refuseFaulted s).node = s.node := rfl
@[simp] theorem refuseFaulted_live (s : State) : (refuseFaulted s).live = s.live := rfl
@[simp] theorem refuseFaulted_nsym (s : State) : (refuseFaulted s).nsym = s.nsym := rfl
@[simp] theorem refuseFaulted_root (s : State) : (refuseFaulted s).root = s.root := rfl
@[simp] theorem refuseFaulted_ptr (s : State) : (refuseFaulted s).ptr = s.ptr := rfl
@[simp] theorem refuseFaulted_code (s : State) : (refuseFaulted s).code = s.code := rfl
@[simp] theorem refuseFaulted_fvalid (s : State) : (refuseFaulted s).fvalid = s.fvalid := rfl
@[simp] theorem refuseFaulted_tvalid (s : State) : (refuseFaulted s).tvalid = s.tvalid := rfl
@[simp] theorem refuseFaulted_cvalid (s : State) : (refuseFaulted s).cvalid = s.cvalid := rfl
@[simp] theorem refuseFaulted_edone (s : State) : (refuseFaulted s).edone = s.edone := rfl
@[simp] theorem refuseFaulted_ddone (s : State) : (refuseFaulted s).ddone = s.ddone := rfl
@[simp] theorem refuseFaulted_fault (s : State) : (refuseFaulted s).fault = s.fault := rfl
@[simp] theorem refuseFaulted_errcode (s : State) : (refuseFaulted s).errcode = s.errcode := rfl
@[simp] theorem refuseFaulted_errinfo (s : State) : (refuseFaulted s).errinfo = s.errinfo := rfl
@[simp] theorem refuseFaulted_rsp (s : State) : (refuseFaulted s).rsp = ErrCode.efaulted.code ++ (0 : RspValue) := rfl
@[simp] theorem refuseFaulted_src (s : State) : (refuseFaulted s).src = s.src := rfl
@[simp] theorem refuseFaulted_bsnk (s : State) : (refuseFaulted s).bsnk = s.bsnk := rfl
@[simp] theorem refuseFaulted_bsrc (s : State) : (refuseFaulted s).bsrc = s.bsrc := rfl
@[simp] theorem refuseFaulted_dsnk (s : State) : (refuseFaulted s).dsnk = s.dsnk := rfl
@[simp] theorem refuseFaulted_draws (s : State) : (refuseFaulted s).draws = s.draws := rfl
@[simp] theorem refuseFaulted_host (s : State) : (refuseFaulted s).host = s.host := rfl

/-! ### `popEvent` -/

@[simp] theorem popEvent_freq (s : State) : (s.popEvent).freq = s.freq := rfl
@[simp] theorem popEvent_node (s : State) : (s.popEvent).node = s.node := rfl
@[simp] theorem popEvent_live (s : State) : (s.popEvent).live = s.live := rfl
@[simp] theorem popEvent_nsym (s : State) : (s.popEvent).nsym = s.nsym := rfl
@[simp] theorem popEvent_root (s : State) : (s.popEvent).root = s.root := rfl
@[simp] theorem popEvent_ptr (s : State) : (s.popEvent).ptr = s.ptr := rfl
@[simp] theorem popEvent_code (s : State) : (s.popEvent).code = s.code := rfl
@[simp] theorem popEvent_fvalid (s : State) : (s.popEvent).fvalid = s.fvalid := rfl
@[simp] theorem popEvent_tvalid (s : State) : (s.popEvent).tvalid = s.tvalid := rfl
@[simp] theorem popEvent_cvalid (s : State) : (s.popEvent).cvalid = s.cvalid := rfl
@[simp] theorem popEvent_edone (s : State) : (s.popEvent).edone = s.edone := rfl
@[simp] theorem popEvent_ddone (s : State) : (s.popEvent).ddone = s.ddone := rfl
@[simp] theorem popEvent_fault (s : State) : (s.popEvent).fault = s.fault := rfl
@[simp] theorem popEvent_errcode (s : State) : (s.popEvent).errcode = s.errcode := rfl
@[simp] theorem popEvent_errinfo (s : State) : (s.popEvent).errinfo = s.errinfo := rfl
@[simp] theorem popEvent_rsp (s : State) : (s.popEvent).rsp = s.rsp := rfl
@[simp] theorem popEvent_src (s : State) : (s.popEvent).src = s.src := rfl
@[simp] theorem popEvent_bsnk (s : State) : (s.popEvent).bsnk = s.bsnk := rfl
@[simp] theorem popEvent_bsrc (s : State) : (s.popEvent).bsrc = s.bsrc := rfl
@[simp] theorem popEvent_dsnk (s : State) : (s.popEvent).dsnk = s.dsnk := rfl
@[simp] theorem popEvent_draws (s : State) : (s.popEvent).draws = s.draws.tail := rfl
@[simp] theorem popEvent_host (s : State) : (s.popEvent).host = s.host := rfl

/-! ### `bitAbort` -/

@[simp] theorem bitAbort_freq (s : State) : (bitAbort s).freq = s.freq := rfl
@[simp] theorem bitAbort_node (s : State) : (bitAbort s).node = s.node := rfl
@[simp] theorem bitAbort_live (s : State) : (bitAbort s).live = s.live := rfl
@[simp] theorem bitAbort_nsym (s : State) : (bitAbort s).nsym = s.nsym := rfl
@[simp] theorem bitAbort_root (s : State) : (bitAbort s).root = s.root := rfl
@[simp] theorem bitAbort_ptr (s : State) : (bitAbort s).ptr = s.ptr := rfl
@[simp] theorem bitAbort_code (s : State) : (bitAbort s).code = s.code := rfl
@[simp] theorem bitAbort_fvalid (s : State) : (bitAbort s).fvalid = s.fvalid := rfl
@[simp] theorem bitAbort_tvalid (s : State) : (bitAbort s).tvalid = s.tvalid := rfl
@[simp] theorem bitAbort_cvalid (s : State) : (bitAbort s).cvalid = s.cvalid := rfl
@[simp] theorem bitAbort_edone (s : State) : (bitAbort s).edone = s.edone := rfl
@[simp] theorem bitAbort_ddone (s : State) : (bitAbort s).ddone = s.ddone := rfl
@[simp] theorem bitAbort_fault (s : State) : (bitAbort s).fault = s.fault := rfl
@[simp] theorem bitAbort_errcode (s : State) : (bitAbort s).errcode = s.errcode := rfl
@[simp] theorem bitAbort_errinfo (s : State) : (bitAbort s).errinfo = s.errinfo := rfl
@[simp] theorem bitAbort_rsp (s : State) : (bitAbort s).rsp = s.rsp := rfl
@[simp] theorem bitAbort_src (s : State) : (bitAbort s).src = s.src := rfl
@[simp] theorem bitAbort_bsnk (s : State) : (bitAbort s).bsnk = { s.bsnk with mode := s.bsnk.mode.abort } := rfl
@[simp] theorem bitAbort_bsrc (s : State) : (bitAbort s).bsrc = s.bsrc := rfl
@[simp] theorem bitAbort_dsnk (s : State) : (bitAbort s).dsnk = s.dsnk := rfl
@[simp] theorem bitAbort_draws (s : State) : (bitAbort s).draws = s.draws := rfl
@[simp] theorem bitAbort_host (s : State) : (bitAbort s).host = s.host := rfl

/-! ### `attachSrc` -/

@[simp] theorem attachSrc_freq (data : List Byte) (s : State) : (attachSrc data s).freq = s.freq := rfl
@[simp] theorem attachSrc_node (data : List Byte) (s : State) : (attachSrc data s).node = s.node := rfl
@[simp] theorem attachSrc_live (data : List Byte) (s : State) : (attachSrc data s).live = s.live := rfl
@[simp] theorem attachSrc_nsym (data : List Byte) (s : State) : (attachSrc data s).nsym = s.nsym := rfl
@[simp] theorem attachSrc_root (data : List Byte) (s : State) : (attachSrc data s).root = s.root := rfl
@[simp] theorem attachSrc_ptr (data : List Byte) (s : State) : (attachSrc data s).ptr = s.ptr := rfl
@[simp] theorem attachSrc_code (data : List Byte) (s : State) : (attachSrc data s).code = s.code := rfl
@[simp] theorem attachSrc_fvalid (data : List Byte) (s : State) : (attachSrc data s).fvalid = s.fvalid := rfl
@[simp] theorem attachSrc_tvalid (data : List Byte) (s : State) : (attachSrc data s).tvalid = s.tvalid := rfl
@[simp] theorem attachSrc_cvalid (data : List Byte) (s : State) : (attachSrc data s).cvalid = s.cvalid := rfl
@[simp] theorem attachSrc_edone (data : List Byte) (s : State) : (attachSrc data s).edone = s.edone := rfl
@[simp] theorem attachSrc_ddone (data : List Byte) (s : State) : (attachSrc data s).ddone = s.ddone := rfl
@[simp] theorem attachSrc_fault (data : List Byte) (s : State) : (attachSrc data s).fault = s.fault := rfl
@[simp] theorem attachSrc_errcode (data : List Byte) (s : State) : (attachSrc data s).errcode = s.errcode := rfl
@[simp] theorem attachSrc_errinfo (data : List Byte) (s : State) : (attachSrc data s).errinfo = s.errinfo := rfl
@[simp] theorem attachSrc_rsp (data : List Byte) (s : State) : (attachSrc data s).rsp = s.rsp := rfl
@[simp] theorem attachSrc_src (data : List Byte) (s : State) : (attachSrc data s).src = ⟨data, 0⟩ := rfl
@[simp] theorem attachSrc_bsnk (data : List Byte) (s : State) : (attachSrc data s).bsnk = s.bsnk := rfl
@[simp] theorem attachSrc_bsrc (data : List Byte) (s : State) : (attachSrc data s).bsrc = s.bsrc := rfl
@[simp] theorem attachSrc_dsnk (data : List Byte) (s : State) : (attachSrc data s).dsnk = s.dsnk := rfl
@[simp] theorem attachSrc_draws (data : List Byte) (s : State) : (attachSrc data s).draws = s.draws := rfl
@[simp] theorem attachSrc_host (data : List Byte) (s : State) : (attachSrc data s).host = s.host := rfl

/-! ### `attachBsrc` -/

@[simp] theorem attachBsrc_freq (bits : List Bool) (s : State) : (attachBsrc bits s).freq = s.freq := rfl
@[simp] theorem attachBsrc_node (bits : List Bool) (s : State) : (attachBsrc bits s).node = s.node := rfl
@[simp] theorem attachBsrc_live (bits : List Bool) (s : State) : (attachBsrc bits s).live = s.live := rfl
@[simp] theorem attachBsrc_nsym (bits : List Bool) (s : State) : (attachBsrc bits s).nsym = s.nsym := rfl
@[simp] theorem attachBsrc_root (bits : List Bool) (s : State) : (attachBsrc bits s).root = s.root := rfl
@[simp] theorem attachBsrc_ptr (bits : List Bool) (s : State) : (attachBsrc bits s).ptr = s.ptr := rfl
@[simp] theorem attachBsrc_code (bits : List Bool) (s : State) : (attachBsrc bits s).code = s.code := rfl
@[simp] theorem attachBsrc_fvalid (bits : List Bool) (s : State) : (attachBsrc bits s).fvalid = s.fvalid := rfl
@[simp] theorem attachBsrc_tvalid (bits : List Bool) (s : State) : (attachBsrc bits s).tvalid = s.tvalid := rfl
@[simp] theorem attachBsrc_cvalid (bits : List Bool) (s : State) : (attachBsrc bits s).cvalid = s.cvalid := rfl
@[simp] theorem attachBsrc_edone (bits : List Bool) (s : State) : (attachBsrc bits s).edone = s.edone := rfl
@[simp] theorem attachBsrc_ddone (bits : List Bool) (s : State) : (attachBsrc bits s).ddone = s.ddone := rfl
@[simp] theorem attachBsrc_fault (bits : List Bool) (s : State) : (attachBsrc bits s).fault = s.fault := rfl
@[simp] theorem attachBsrc_errcode (bits : List Bool) (s : State) : (attachBsrc bits s).errcode = s.errcode := rfl
@[simp] theorem attachBsrc_errinfo (bits : List Bool) (s : State) : (attachBsrc bits s).errinfo = s.errinfo := rfl
@[simp] theorem attachBsrc_rsp (bits : List Bool) (s : State) : (attachBsrc bits s).rsp = s.rsp := rfl
@[simp] theorem attachBsrc_src (bits : List Bool) (s : State) : (attachBsrc bits s).src = s.src := rfl
@[simp] theorem attachBsrc_bsnk (bits : List Bool) (s : State) : (attachBsrc bits s).bsnk = s.bsnk := rfl
@[simp] theorem attachBsrc_bsrc (bits : List Bool) (s : State) : (attachBsrc bits s).bsrc = ⟨bits, 0⟩ := rfl
@[simp] theorem attachBsrc_dsnk (bits : List Bool) (s : State) : (attachBsrc bits s).dsnk = s.dsnk := rfl
@[simp] theorem attachBsrc_draws (bits : List Bool) (s : State) : (attachBsrc bits s).draws = s.draws := rfl
@[simp] theorem attachBsrc_host (bits : List Bool) (s : State) : (attachBsrc bits s).host = s.host := rfl

/-! ### `attachBsnk` -/

@[simp] theorem attachBsnk_freq (s : State) : (attachBsnk s).freq = s.freq := rfl
@[simp] theorem attachBsnk_node (s : State) : (attachBsnk s).node = s.node := rfl
@[simp] theorem attachBsnk_live (s : State) : (attachBsnk s).live = s.live := rfl
@[simp] theorem attachBsnk_nsym (s : State) : (attachBsnk s).nsym = s.nsym := rfl
@[simp] theorem attachBsnk_root (s : State) : (attachBsnk s).root = s.root := rfl
@[simp] theorem attachBsnk_ptr (s : State) : (attachBsnk s).ptr = s.ptr := rfl
@[simp] theorem attachBsnk_code (s : State) : (attachBsnk s).code = s.code := rfl
@[simp] theorem attachBsnk_fvalid (s : State) : (attachBsnk s).fvalid = s.fvalid := rfl
@[simp] theorem attachBsnk_tvalid (s : State) : (attachBsnk s).tvalid = s.tvalid := rfl
@[simp] theorem attachBsnk_cvalid (s : State) : (attachBsnk s).cvalid = s.cvalid := rfl
@[simp] theorem attachBsnk_edone (s : State) : (attachBsnk s).edone = s.edone := rfl
@[simp] theorem attachBsnk_ddone (s : State) : (attachBsnk s).ddone = s.ddone := rfl
@[simp] theorem attachBsnk_fault (s : State) : (attachBsnk s).fault = s.fault := rfl
@[simp] theorem attachBsnk_errcode (s : State) : (attachBsnk s).errcode = s.errcode := rfl
@[simp] theorem attachBsnk_errinfo (s : State) : (attachBsnk s).errinfo = s.errinfo := rfl
@[simp] theorem attachBsnk_rsp (s : State) : (attachBsnk s).rsp = s.rsp := rfl
@[simp] theorem attachBsnk_src (s : State) : (attachBsnk s).src = s.src := rfl
@[simp] theorem attachBsnk_bsnk (s : State) : (attachBsnk s).bsnk = ⟨[], .opened, []⟩ := rfl
@[simp] theorem attachBsnk_bsrc (s : State) : (attachBsnk s).bsrc = s.bsrc := rfl
@[simp] theorem attachBsnk_dsnk (s : State) : (attachBsnk s).dsnk = s.dsnk := rfl
@[simp] theorem attachBsnk_draws (s : State) : (attachBsnk s).draws = s.draws := rfl
@[simp] theorem attachBsnk_host (s : State) : (attachBsnk s).host = s.host := rfl

/-! ### `attachDsnk` -/

@[simp] theorem attachDsnk_freq (s : State) : (attachDsnk s).freq = s.freq := rfl
@[simp] theorem attachDsnk_node (s : State) : (attachDsnk s).node = s.node := rfl
@[simp] theorem attachDsnk_live (s : State) : (attachDsnk s).live = s.live := rfl
@[simp] theorem attachDsnk_nsym (s : State) : (attachDsnk s).nsym = s.nsym := rfl
@[simp] theorem attachDsnk_root (s : State) : (attachDsnk s).root = s.root := rfl
@[simp] theorem attachDsnk_ptr (s : State) : (attachDsnk s).ptr = s.ptr := rfl
@[simp] theorem attachDsnk_code (s : State) : (attachDsnk s).code = s.code := rfl
@[simp] theorem attachDsnk_fvalid (s : State) : (attachDsnk s).fvalid = s.fvalid := rfl
@[simp] theorem attachDsnk_tvalid (s : State) : (attachDsnk s).tvalid = s.tvalid := rfl
@[simp] theorem attachDsnk_cvalid (s : State) : (attachDsnk s).cvalid = s.cvalid := rfl
@[simp] theorem attachDsnk_edone (s : State) : (attachDsnk s).edone = s.edone := rfl
@[simp] theorem attachDsnk_ddone (s : State) : (attachDsnk s).ddone = s.ddone := rfl
@[simp] theorem attachDsnk_fault (s : State) : (attachDsnk s).fault = s.fault := rfl
@[simp] theorem attachDsnk_errcode (s : State) : (attachDsnk s).errcode = s.errcode := rfl
@[simp] theorem attachDsnk_errinfo (s : State) : (attachDsnk s).errinfo = s.errinfo := rfl
@[simp] theorem attachDsnk_rsp (s : State) : (attachDsnk s).rsp = s.rsp := rfl
@[simp] theorem attachDsnk_src (s : State) : (attachDsnk s).src = s.src := rfl
@[simp] theorem attachDsnk_bsnk (s : State) : (attachDsnk s).bsnk = s.bsnk := rfl
@[simp] theorem attachDsnk_bsrc (s : State) : (attachDsnk s).bsrc = s.bsrc := rfl
@[simp] theorem attachDsnk_dsnk (s : State) : (attachDsnk s).dsnk = ⟨[], .opened⟩ := rfl
@[simp] theorem attachDsnk_draws (s : State) : (attachDsnk s).draws = s.draws := rfl
@[simp] theorem attachDsnk_host (s : State) : (attachDsnk s).host = s.host := rfl

/-! ### `afterInitLeaves` -/

@[simp] theorem afterInitLeaves_freq (s : State) : (afterInitLeaves s).freq = s.freq := rfl
@[simp] theorem afterInitLeaves_node (s : State) : (afterInitLeaves s).node = initLeaves s.freq := rfl
@[simp] theorem afterInitLeaves_live (s : State) : (afterInitLeaves s).live = liveLeaves (initLeaves s.freq).length s.live := rfl
@[simp] theorem afterInitLeaves_nsym (s : State) : (afterInitLeaves s).nsym = BitVec.ofNat 9 (initLeaves s.freq).length := rfl
@[simp] theorem afterInitLeaves_root (s : State) : (afterInitLeaves s).root = s.root := rfl
@[simp] theorem afterInitLeaves_ptr (s : State) : (afterInitLeaves s).ptr = s.ptr := rfl
@[simp] theorem afterInitLeaves_code (s : State) : (afterInitLeaves s).code = s.code := rfl
@[simp] theorem afterInitLeaves_fvalid (s : State) : (afterInitLeaves s).fvalid = true := rfl
@[simp] theorem afterInitLeaves_tvalid (s : State) : (afterInitLeaves s).tvalid = s.tvalid := rfl
@[simp] theorem afterInitLeaves_cvalid (s : State) : (afterInitLeaves s).cvalid = s.cvalid := rfl
@[simp] theorem afterInitLeaves_edone (s : State) : (afterInitLeaves s).edone = s.edone := rfl
@[simp] theorem afterInitLeaves_ddone (s : State) : (afterInitLeaves s).ddone = s.ddone := rfl
@[simp] theorem afterInitLeaves_fault (s : State) : (afterInitLeaves s).fault = s.fault := rfl
@[simp] theorem afterInitLeaves_errcode (s : State) : (afterInitLeaves s).errcode = s.errcode := rfl
@[simp] theorem afterInitLeaves_errinfo (s : State) : (afterInitLeaves s).errinfo = s.errinfo := rfl
@[simp] theorem afterInitLeaves_rsp (s : State) : (afterInitLeaves s).rsp = s.rsp := rfl
@[simp] theorem afterInitLeaves_src (s : State) : (afterInitLeaves s).src = s.src := rfl
@[simp] theorem afterInitLeaves_bsnk (s : State) : (afterInitLeaves s).bsnk = s.bsnk := rfl
@[simp] theorem afterInitLeaves_bsrc (s : State) : (afterInitLeaves s).bsrc = s.bsrc := rfl
@[simp] theorem afterInitLeaves_dsnk (s : State) : (afterInitLeaves s).dsnk = s.dsnk := rfl
@[simp] theorem afterInitLeaves_draws (s : State) : (afterInitLeaves s).draws = s.draws := rfl
@[simp] theorem afterInitLeaves_host (s : State) : (afterInitLeaves s).host = s.host := rfl

/-! ### Reading an array after a write -/

theorem freqAt_setFreq (s : State) (b a : Symbol) (c : Count) :
    (s.setFreq b c).freqAt a = if a = b then c else s.freqAt a := by
  by_cases h : a = b
  · subst h; simp [State.freqAt]
  · have : b.toNat ≠ a.toNat := fun e => h (BitVec.eq_of_toNat_eq e.symm)
    simp [State.freqAt, h, this]

@[simp] theorem freqAt_setFreq_self (s : State) (b : Symbol) (c : Count) : (s.setFreq b c).freqAt b = c := by
  simp [freqAt_setFreq]

theorem setCode_getElem (t : Vector Code Config.numSymbols) (b a : Symbol) (p : List Bool) :
    (setCode t b p)[a.toNat]'a.isLt = if a = b then Code.ofBits p else t[a.toNat]'a.isLt := by
  by_cases h : a = b
  · subst h; simp [setCode]
  · have : b.toNat ≠ a.toNat := fun e => h (BitVec.eq_of_toNat_eq e.symm)
    simp [setCode, h, this]

@[simp] theorem coreClear_freqAt (s : State) (a : Symbol) : (coreClear s).freqAt a = 0 := by
  simp [State.freqAt]

@[simp] theorem coreClear_codeAt (s : State) (a : Symbol) : (coreClear s).codeAt a = Code.none := by
  simp [State.codeAt]

end Sys2Proof.Machine
end

