-- ==== Sys2Proof/Laws/Ops.lean ====
section
/-! SUPPORT. What the shared operations do: the sequencing and the end of a body, the dispatch, and the port
calls. Callers cite these lemmas and never unfold the operations. -/

namespace Sys2Proof.Machine

open Sys2Proof.Safety

/-! ### Sequencing -/

@[simp] theorem Body.done_andThen (s : State) (k : State → Body) : (Body.done s).andThen k = k s := rfl
@[simp] theorem Body.trap_andThen (c : ErrCode) (n : BitVec 16) (s : State) (k : State → Body) :
    (Body.trap c n s).andThen k = .trap c n s := rfl
@[simp] theorem Body.cut_andThen (s : State) (k : State → Body) : (Body.cut s).andThen k = .cut s := rfl
@[simp] theorem Body.stuck_andThen (f : Fault) (k : State → Body) : (Body.stuck f).andThen k = .stuck f := rfl

theorem Body.andThen_assoc (b : Body) (k l : State → Body) :
    (b.andThen k).andThen l = b.andThen fun s => (k s).andThen l := by cases b <;> rfl

@[simp] theorem Body.andThen_done (b : Body) : b.andThen .done = b := by cases b <;> rfl

@[simp] theorem Body.finish_done (s : State) : (Body.done s).finish = .next (respond okCode 0 s) := rfl
@[simp] theorem Body.finish_trap (c : ErrCode) (n : BitVec 16) (s : State) :
    (Body.trap c n s).finish = .next (takeFault c n s) := rfl
@[simp] theorem Body.finish_cut (s : State) : (Body.cut s).finish = .next (hardReset s) := rfl
@[simp] theorem Body.finish_stuck (f : Fault) : (Body.stuck f).finish = .fault f := rfl

/-- The three ways a body ends in a next state. -/
theorem Body.finish_eq_next {b : Body} {t : State} : b.finish = .next t ↔
    (∃ s, b = .done s ∧ t = respond okCode 0 s) ∨ (∃ c n s, b = .trap c n s ∧ t = takeFault c n s) ∨
    ∃ s, b = .cut s ∧ t = hardReset s := by
  cases b <;> simp [eq_comm]

/-- A body ends in a state with `D` if it runs to its end, in one with `E` if it faults (never with EFAULTED, which
is no fault, R287), in one with `C` if a reset cuts it short, and is stuck only if `S`. -/
def Body.Post (b : Body) (D E C : State → Prop) (S : Prop) : Prop :=
  match b with
  | .done s => D s
  | .trap c _ s => c ≠ .efaulted ∧ E s
  | .cut s => C s
  | .stuck _ => S

@[simp] theorem Body.post_done {s D E C S} : (Body.done s).Post D E C S ↔ D s := Iff.rfl
@[simp] theorem Body.post_trap {c n s D E C S} : (Body.trap c n s).Post D E C S ↔ c ≠ .efaulted ∧ E s := Iff.rfl
@[simp] theorem Body.post_cut {s D E C S} : (Body.cut s).Post D E C S ↔ C s := Iff.rfl
@[simp] theorem Body.post_stuck {f D E C S} : (Body.stuck f).Post D E C S ↔ S := Iff.rfl

theorem Body.Post.andThen {b : Body} {k : State → Body} {D D' E C : State → Prop} {S : Prop}
    (h : b.Post D E C S) (hk : ∀ s, D s → (k s).Post D' E C S) : (b.andThen k).Post D' E C S := by
  cases b with
  | done s => exact hk s h
  | trap _ _ _ => exact h
  | cut _ => exact h
  | stuck _ => exact h

theorem Body.Post.mono {b : Body} {D D' E E' C C' : State → Prop} {S S' : Prop} (h : b.Post D E C S)
    (hD : ∀ s, D s → D' s) (hE : ∀ s, E s → E' s) (hC : ∀ s, C s → C' s) (hS : S → S') : b.Post D' E' C' S' := by
  cases b with
  | done s => exact hD s h
  | trap _ _ s => exact ⟨h.1, hE s h.2⟩
  | cut s => exact hC s h
  | stuck _ => exact hS h

/-- The next state of a body with a postcondition. -/
theorem Body.Post.finish {b : Body} {D E C : State → Prop} {S : Prop} {t : State} (h : b.Post D E C S)
    (ht : b.finish = .next t) :
    (∃ s, D s ∧ t = respond okCode 0 s) ∨ (∃ c n s, c ≠ .efaulted ∧ E s ∧ t = takeFault c n s) ∨
      ∃ s, C s ∧ t = hardReset s := by
  obtain ⟨s, rfl, rfl⟩ | ⟨c, n, s, rfl, rfl⟩ | ⟨s, rfl, rfl⟩ := Body.finish_eq_next.1 ht
  · exact .inl ⟨s, h, rfl⟩
  · exact .inr (.inl ⟨c, n, s, h.1, h.2, rfl⟩)
  · exact .inr (.inr ⟨s, h, rfl⟩)

/-- A body that cannot be stuck answers a next state. -/
theorem Body.Post.completes {b : Body} {D E C : State → Prop} (h : b.Post D E C False) :
    ∃ t, b.finish = .next t := by
  cases b with
  | done s => exact ⟨_, rfl⟩
  | trap c n s => exact ⟨_, rfl⟩
  | cut s => exact ⟨_, rfl⟩
  | stuck _ => exact h.elim

/-! ### Dispatch -/

variable {i : Instr} {s t : State} {run : State → Host.Outcome State Fault Refusal}

theorem dispatch_of_fault (h : s.fault = true) : dispatch i s run = .next (refuseFaulted s) := by
  simp [dispatch, h]

theorem dispatch_of_ready (h : s.fault = false) (hr : s.ready i = true) : dispatch i s run = run s := by
  simp [dispatch, h, hr]

theorem dispatch_of_not_ready (h : s.fault = false) (hr : s.ready i = false) :
    dispatch i s run = .next (takeFault .eseq (zextInfo i.opcode) s) := by
  simp [dispatch, h, hr]

/-- The three outcomes of the dispatch (R111). -/
theorem dispatch_next_cases (h : dispatch i s run = .next t) :
    (s.fault = true ∧ t = refuseFaulted s) ∨
    (s.fault = false ∧ s.ready i = false ∧ t = takeFault .eseq (zextInfo i.opcode) s) ∨
    (s.fault = false ∧ s.ready i = true ∧ run s = .next t) := by
  cases hf : s.fault with
  | true => rw [dispatch_of_fault hf] at h; cases h; exact .inl ⟨rfl, rfl⟩
  | false =>
    cases hr : s.ready i with
    | true => rw [dispatch_of_ready hf hr] at h; exact .inr (.inr ⟨rfl, rfl, h⟩)
    | false => rw [dispatch_of_not_ready hf hr] at h; cases h; exact .inr (.inl ⟨rfl, rfl, rfl⟩)

/-- The mode an abort leaves (R63, R65). -/
theorem SinkMode.abort_eq (m : SinkMode) : m.abort = if m = .finalized then .finalized else .aborted := by
  cases m <;> rfl

@[simp] theorem SinkMode.abort_abort (m : SinkMode) : m.abort.abort = m.abort := by cases m <;> rfl

/-! ### The fault entry -/

theorem eventAt_zero (s : State) : eventAt s 0 = s.nextEvent := by
  cases h : s.draws <;> simp [eventAt, State.nextEvent, h]

theorem eventAt_popEvent (s : State) (n : Nat) : eventAt s.popEvent n = eventAt s (n + 1) := by
  simp [eventAt, State.popEvent]

theorem abortCall_of_runs {act k : State → State} (h : s.nextEvent ≠ .resetStrikes) :
    abortCall act k s = k (act s.popEvent) := by
  cases he : s.nextEvent <;> simp_all [abortCall]

theorem abortCall_of_reset {act k : State → State} (h : s.nextEvent = .resetStrikes) :
    abortCall act k s = hardReset s.popEvent := by simp [abortCall, h]

/-- A fault entry that no reset cuts short (R286). -/
theorem takeFault_eq (c : ErrCode) (n : BitVec 16) (h : AbortsRun 0 s) : takeFault c n s = faulted c n s := by
  have h0 : ({ s with fault := true, errcode := c.code, errinfo := n } : State).nextEvent ≠ .resetStrikes := by
    rw [← eventAt_zero]; exact h.1
  have h1 : (bitAbort ({ s with fault := true, errcode := c.code, errinfo := n } : State).popEvent).nextEvent ≠
      .resetStrikes := by
    rw [← eventAt_zero]
    exact fun he => h.2 (by rw [← eventAt_popEvent]; exact he)
  rw [takeFault, abortCall_of_runs h0, abortCall_of_runs h1]
  simp [faulted, respond, sinkAbort, bitAbort, State.popEvent, SinkMode.abort_eq, ← List.drop_one]

/-- A fault entry that a reset cuts short before its first abort (R320, R321). -/
theorem takeFault_of_reset_first (c : ErrCode) (n : BitVec 16) (h : eventAt s 0 = .resetStrikes) :
    takeFault c n s = hardReset s.popEvent := by
  have h0 : ({ s with fault := true, errcode := c.code, errinfo := n } : State).nextEvent = .resetStrikes := by
    rw [← eventAt_zero]; exact h
  rw [takeFault, abortCall_of_reset h0]
  rfl

/-- A fault entry that a reset cuts short between its aborts (R320, R321). -/
theorem takeFault_of_reset_second (c : ErrCode) (n : BitVec 16) (h : eventAt s 0 ≠ .resetStrikes)
    (h1 : eventAt s 1 = .resetStrikes) : takeFault c n s = hardReset (bitAbort s.popEvent.popEvent) := by
  have h0 : ({ s with fault := true, errcode := c.code, errinfo := n } : State).nextEvent ≠ .resetStrikes := by
    rw [← eventAt_zero]; exact h
  have h2 : (bitAbort ({ s with fault := true, errcode := c.code, errinfo := n } : State).popEvent).nextEvent =
      .resetStrikes := by
    rw [← eventAt_zero]
    rw [← h1, ← eventAt_popEvent]
    rfl
  rw [takeFault, abortCall_of_runs h0, abortCall_of_reset h2]
  rfl

/-- Everything a fault entry can do (R286, R320): it runs to its end, or a reset strikes before one of the aborts. -/
theorem takeFault_cases (c : ErrCode) (n : BitVec 16) (s : State) :
    takeFault c n s = faulted c n s ∨
    (eventAt s 0 = .resetStrikes ∧ takeFault c n s = hardReset s.popEvent) ∨
    (eventAt s 1 = .resetStrikes ∧ takeFault c n s = hardReset (bitAbort s.popEvent.popEvent)) := by
  by_cases h0 : eventAt s 0 = .resetStrikes
  · exact .inr (.inl ⟨h0, takeFault_of_reset_first c n h0⟩)
  · by_cases h1 : eventAt s 1 = .resetStrikes
    · exact .inr (.inr ⟨h1, takeFault_of_reset_second c n h0 h1⟩)
    · exact .inl (takeFault_eq c n ⟨h0, h1⟩)

/-! ### Port calls -/

variable {p : Port} {act : State → Option Body}

theorem portCall_of_succeeds (h : s.nextEvent = .succeeds) :
    portCall p act s = (act s.popEvent).getD (.trap .eio p.number s.popEvent) := by simp [portCall, h]

theorem portCall_of_fails (h : s.nextEvent = .fails) : portCall p act s = .trap .eio p.number s.popEvent := by
  simp [portCall, h]

theorem portCall_of_reset (h : s.nextEvent = .resetStrikes) : portCall p act s = .cut s.popEvent := by
  simp [portCall, h]

/-- A port call that fails (R66, R80). -/
theorem portCall_refused (h : s.nextEvent = .fails ∨ (s.nextEvent = .succeeds ∧ act s.popEvent = none)) :
    portCall p act s = .trap .eio p.number s.popEvent := by
  rcases h with h | ⟨h, ha⟩
  · exact portCall_of_fails h
  · rw [portCall_of_succeeds h, ha]; rfl

/-- Everything a port call can do (R80): what its rule says, a failure, or, only if the environment has a reset to
strike, a cut. -/
theorem portCall_post {D E C : State → Prop} {S : Prop}
    (hact : ∀ b, act s.popEvent = some b → b.Post D E C S) (hE : E s.popEvent)
    (hC : s.nextEvent = .resetStrikes → C s.popEvent) : (portCall p act s).Post D E C S := by
  cases h : s.nextEvent with
  | fails => rw [portCall_of_fails h]; exact ⟨by decide, hE⟩
  | resetStrikes => rw [portCall_of_reset h]; exact hC h
  | succeeds =>
    rw [portCall_of_succeeds h]
    cases hb : act s.popEvent with
    | none => exact ⟨by decide, hE⟩
    | some b => exact hact b hb

end Sys2Proof.Machine

namespace Sys2Proof.Safety

open Sys2Proof.Machine

variable {s t : State}

theorem NoIoFailure.nextEvent (h : NoIoFailure s) : s.nextEvent = .succeeds := by
  cases hd : s.draws with
  | nil => simp [State.nextEvent, hd]
  | cons d l => simpa [State.nextEvent, hd] using h d (by simp [hd])

theorem NoIoFailure.of_draws_drop (h : NoIoFailure s) {n : Nat} (ht : t.draws = s.draws.drop n) : NoIoFailure t :=
  fun d hd => h d (List.mem_of_mem_drop (ht ▸ hd))

theorem NoIoFailure.of_draws_eq (h : NoIoFailure s) (ht : t.draws = s.draws) : NoIoFailure t :=
  fun d hd => h d (ht ▸ hd)

theorem NoResetStrike.nextEvent (h : NoResetStrike s) : s.nextEvent ≠ .resetStrikes := by
  cases hd : s.draws with
  | nil => simp [State.nextEvent, hd]
  | cons d l => simpa [State.nextEvent, hd] using h d (by simp [hd])

theorem NoIoFailure.succeeds (h : NoIoFailure s) (n : Nat) : Succeeds n s := fun k _ => by
  cases hd : s.draws[k]? with
  | none => simp [eventAt, hd]
  | some d => simpa [eventAt, hd] using h d (List.mem_of_getElem? hd)

theorem NoResetStrike.eventAt (h : NoResetStrike s) (n : Nat) : Safety.eventAt s n ≠ .resetStrikes := by
  cases hd : s.draws[n]? with
  | none => simp [Safety.eventAt, hd]
  | some d => simpa [Safety.eventAt, hd] using h d (List.mem_of_getElem? hd)

theorem NoResetStrike.abortsRun (h : NoResetStrike s) (n : Nat) : AbortsRun n s := ⟨h.eventAt n, h.eventAt (n + 1)⟩

theorem NoIoFailure.noResetStrike (h : NoIoFailure s) : NoResetStrike s := fun d hd => by rw [h d hd]; decide

theorem NoIoFailure.abortsRun (h : NoIoFailure s) (n : Nat) : AbortsRun n s := h.noResetStrike.abortsRun n

theorem eventAt_of_drop {m : Nat} (ht : t.draws = s.draws.drop m) (n : Nat) : eventAt t n = eventAt s (m + n) := by
  simp [eventAt, ht]

theorem Succeeds.mono {m n : Nat} (h : Succeeds n s) (hm : m ≤ n) : Succeeds m s := fun k hk => h k (by omega)

theorem Succeeds.of_drop {m n : Nat} (h : Succeeds (m + n) s) (ht : t.draws = s.draws.drop m) : Succeeds n t :=
  fun k hk => by rw [eventAt_of_drop ht]; exact h _ (by omega)

theorem Succeeds.nextEvent {n : Nat} (h : Succeeds (n + 1) s) : s.nextEvent = .succeeds := by
  rw [← eventAt_zero]; exact h 0 (Nat.succ_pos n)

theorem Succeeds.tail {n : Nat} (h : Succeeds (n + 1) s) (ht : t.draws = s.draws.tail) : Succeeds n t :=
  Succeeds.of_drop (m := 1) (by rwa [Nat.add_comm]) (by rw [ht, List.drop_one])

theorem AbortsRun.of_drop {m n : Nat} (h : AbortsRun (m + n) s) (ht : t.draws = s.draws.drop m) : AbortsRun n t :=
  ⟨by rw [eventAt_of_drop ht]; exact h.1, by rw [eventAt_of_drop ht]; exact h.2⟩

theorem NoResetStrike.of_suffix (h : NoResetStrike s) (ht : t.draws <:+ s.draws) : NoResetStrike t :=
  fun d hd => h d (ht.subset hd)

theorem not_noResetStrike_of_suffix (h : ¬ NoResetStrike t) (ht : t.draws <:+ s.draws) : ¬ NoResetStrike s :=
  fun hs => h (hs.of_suffix ht)

theorem not_noResetStrike (h : s.nextEvent = .resetStrikes) : ¬ NoResetStrike s := fun hs => hs.nextEvent h

end Sys2Proof.Safety

namespace Sys2Proof.Machine

open Sys2Proof.Safety

variable {s t : State}

theorem popEvent_suffix (s : State) : s.popEvent.draws <:+ s.draws := List.tail_suffix _

/-! What each primitive does when the environment lets it succeed. -/

theorem srcRead_of_succeeds {k : Byte → State → Body} {b : Byte} (h : s.nextEvent = .succeeds)
    (hb : s.src.data[s.src.pos]? = some b) :
    srcRead k s = k b { s with src := { s.src with pos := s.src.pos + 1 }, draws := s.draws.tail } := by
  simp [srcRead, portCall_of_succeeds h, hb, State.popEvent]

theorem bitRead_of_succeeds {k : Bool → State → Body} {v : Bool} (h : s.nextEvent = .succeeds)
    (hb : s.bsrc.bits[s.bsrc.pos]? = some v) :
    bitRead k s = k v { s with bsrc := { s.bsrc with pos := s.bsrc.pos + 1 }, draws := s.draws.tail } := by
  simp [bitRead, portCall_of_succeeds h, hb, State.popEvent]

theorem srcRewind_of_succeeds (h : s.nextEvent = .succeeds) :
    srcRewind s = .done { s with src := { s.src with pos := 0 }, draws := s.draws.tail } := by
  simp [srcRewind, portCall_of_succeeds h, State.popEvent]

theorem bitWrite_of_succeeds {v : Bool} (h : s.nextEvent = .succeeds) (hm : s.bsnk.mode = .opened) :
    bitWrite v s = .done { s with bsnk := { s.bsnk with bits := s.bsnk.bits ++ [v] }, draws := s.draws.tail } := by
  simp [bitWrite, portCall_of_succeeds h, hm, State.popEvent]

theorem sinkWrite_of_succeeds {v : Byte} (h : s.nextEvent = .succeeds) (hm : s.dsnk.mode = .opened) :
    sinkWrite v s = .done { s with dsnk := { s.dsnk with data := s.dsnk.data ++ [v] }, draws := s.draws.tail } := by
  simp [sinkWrite, portCall_of_succeeds h, hm, State.popEvent]

theorem bitFinalize_of_succeeds (h : s.nextEvent = .succeeds) (hm : s.bsnk.mode = .opened) :
    bitFinalize s = .done { s with
      bsnk := { s.bsnk with mode := .finalized, flushed := pack Config.bitOrder Config.padBit s.bsnk.bits }
      draws := s.draws.tail } := by
  simp [bitFinalize, portCall_of_succeeds h, hm, State.popEvent]

theorem sinkFinalize_of_succeeds (h : s.nextEvent = .succeeds) (hm : s.dsnk.mode = .opened) :
    sinkFinalize s = .done { s with dsnk := { s.dsnk with mode := .finalized }, draws := s.draws.tail } := by
  simp [sinkFinalize, portCall_of_succeeds h, hm, State.popEvent]

/-! A write or finalize of a sink that is not OPEN fails (R66). -/

theorem bitWrite_of_not_opened {v : Bool} (h : s.nextEvent ≠ .resetStrikes) (hm : s.bsnk.mode ≠ .opened) :
    bitWrite v s = .trap .eio 2 s.popEvent := by
  cases he : s.nextEvent <;> simp_all [bitWrite, portCall, Port.number]

theorem bitFinalize_of_not_opened (h : s.nextEvent ≠ .resetStrikes) (hm : s.bsnk.mode ≠ .opened) :
    bitFinalize s = .trap .eio 2 s.popEvent := by
  cases he : s.nextEvent <;> simp_all [bitFinalize, portCall, Port.number]

theorem sinkFinalize_of_not_opened (h : s.nextEvent ≠ .resetStrikes) (hm : s.dsnk.mode ≠ .opened) :
    sinkFinalize s = .trap .eio 4 s.popEvent := by
  cases he : s.nextEvent <;> simp_all [sinkFinalize, portCall, Port.number]

end Sys2Proof.Machine
end

