-- ==== Sys2Proof/Laws/Live.lean ====
section
/-! SUPPORT. The priority collection: the list of live handles is kept strictly rising by every operation
(its canonical form), and extract-minimum finds the first handle in the order of R152. -/

namespace Sys2Proof.Machine

/-- The canonical form of the list of live handles: strictly rising, so equal collections are equal lists. -/
abbrev LiveSorted (l : List Handle) : Prop := l.Pairwise (· < ·)

theorem handle_lt_iff {i j : Handle} : i < j ↔ i.toNat < j.toNat := BitVec.lt_def

theorem handle_ne_toNat {i j : Handle} (h : i ≠ j) : i.toNat ≠ j.toNat := fun e => h (BitVec.eq_of_toNat_eq e)

theorem toNat_ofNat_handle {n : Nat} (h : n < 512) : (BitVec.ofNat 9 n).toNat = n := by
  simp [Nat.mod_eq_of_lt h]

theorem LiveSorted.nodup {l : List Handle} (h : LiveSorted l) : l.Nodup :=
  h.imp fun hab e => by simp [e] at hab

theorem mem_liveInsert {h x : Handle} {l : List Handle} : x ∈ liveInsert h l ↔ x = h ∨ x ∈ l := by
  induction l with
  | nil => simp [liveInsert]
  | cons y l ih =>
    simp only [liveInsert]
    split
    · simp
    · split
      · next he => simp [he]
      · simp [ih]; tauto

theorem liveInsert_sorted (h : Handle) {l : List Handle} (hl : LiveSorted l) : LiveSorted (liveInsert h l) := by
  induction l with
  | nil => simp [liveInsert, LiveSorted]
  | cons y l ih =>
    obtain ⟨hy, hl'⟩ := List.pairwise_cons.1 hl
    simp only [liveInsert]
    split
    · next hlt =>
      refine List.pairwise_cons.2 ⟨fun z hz => ?_, hl⟩
      rcases List.mem_cons.1 hz with rfl | hz
      · exact hlt
      · have := hy z hz
        rw [handle_lt_iff] at *; omega
    · split
      · exact hl
      · next h1 h2 =>
        refine List.pairwise_cons.2 ⟨fun z hz => ?_, ih hl'⟩
        rcases mem_liveInsert.1 hz with rfl | hz
        · have := handle_ne_toNat h2
          rw [handle_lt_iff] at *; omega
        · exact hy z hz

theorem liveInsert_last {h : Handle} {l : List Handle} (hl : ∀ x ∈ l, x < h) : liveInsert h l = l ++ [h] := by
  induction l with
  | nil => rfl
  | cons y l ih =>
    have hy := hl y (by simp)
    have h1 : ¬ h < y := by rw [handle_lt_iff] at *; omega
    have h2 : h ≠ y := fun e => by subst e; simp at hy
    simp [liveInsert, h1, h2, ih fun x hx => hl x (by simp [hx])]

theorem erase_sorted (h : Handle) {l : List Handle} (hl : LiveSorted l) : LiveSorted (l.erase h) :=
  hl.sublist List.erase_sublist

theorem mem_erase_sorted {h x : Handle} {l : List Handle} (hl : LiveSorted l) :
    x ∈ l.erase h ↔ x ≠ h ∧ x ∈ l := hl.nodup.mem_erase_iff

/-- `InitLeaves` on an empty collection makes the first `k` handles live (R151). -/
theorem liveLeaves_nil {k : Nat} (hk : k ≤ 512) : liveLeaves k [] = (List.range k).map (BitVec.ofNat 9) := by
  induction k with
  | zero => rfl
  | succ k ih =>
    have : liveLeaves (k + 1) [] = liveInsert (BitVec.ofNat 9 k) (liveLeaves k []) := by
      simp [liveLeaves, List.range_succ, List.foldl_append]
    rw [this, ih (by omega), liveInsert_last]
    · simp [List.range_succ]
    · intro x hx
      obtain ⟨n, hn, rfl⟩ := List.mem_map.1 hx
      have := List.mem_range.1 hn
      rw [handle_lt_iff, toNat_ofNat_handle (by omega), toNat_ofNat_handle (by omega)]
      exact this

theorem liveLeaves_sorted (k : Nat) {l : List Handle} (hl : LiveSorted l) : LiveSorted (liveLeaves k l) := by
  induction k generalizing l with
  | zero => exact hl
  | succ k ih =>
    have : liveLeaves (k + 1) l = liveInsert (BitVec.ofNat 9 k) (liveLeaves k l) := by
      simp [liveLeaves, List.range_succ, List.foldl_append]
    rw [this]
    exact liveInsert_sorted _ (ih hl)

/-! ### Extract-minimum -/

/-- The key order of R152 over a frequency of handles. -/
def KeyLt (F : Handle → Nat) (i j : Handle) : Prop := F i < F j ∨ (F i = F j ∧ i < j)

theorem KeyLt.trans {F : Handle → Nat} {i j k : Handle} (h : KeyLt F i j) (h' : KeyLt F j k) : KeyLt F i k := by
  unfold KeyLt at *
  simp only [handle_lt_iff] at *
  omega

theorem KeyLt.of_not {F : Handle → Nat} {i j : Handle} (hne : i ≠ j) (h : ¬ KeyLt F i j) : KeyLt F j i := by
  have := handle_ne_toNat hne
  unfold KeyLt at *
  simp only [handle_lt_iff] at *
  omega

/-- The live handles are allocated, with the frequencies `F`. -/
def Allocated (node : List Node) (F : Handle → Nat) (l : List Handle) : Prop :=
  ∀ h ∈ l, ∃ x, node[h.toNat]? = some x ∧ x.freq.toNat = F h

theorem nodeBefore_iff {node : List Node} {F : Handle → Nat} {l : List Handle} (ha : Allocated node F l)
    {i j : Handle} (hi : i ∈ l) (hj : j ∈ l) : nodeBefore node i j = true ↔ KeyLt F i j := by
  obtain ⟨x, hx, hfx⟩ := ha i hi
  obtain ⟨y, hy, hfy⟩ := ha j hj
  simp only [nodeBefore, hx, hy, KeyLt, Bool.or_eq_true, Bool.and_eq_true, decide_eq_true_eq, BitVec.lt_def, hfx, hfy]
  constructor
  · rintro (h | ⟨h, h'⟩)
    · exact .inl h
    · exact .inr ⟨by rw [← hfx, ← hfy, h], h'⟩
  · rintro (h | ⟨h, h'⟩)
    · exact .inl h
    · exact .inr ⟨BitVec.eq_of_toNat_eq (by omega), h'⟩

/-- Extract-minimum finds the live handle that comes before every other (R153). -/
theorem minLive_spec {node : List Node} {F : Handle → Nat} {l : List Handle} (ha : Allocated node F l)
    (hne : l ≠ []) : ∃ m, minLive node l = some m ∧ m ∈ l ∧ ∀ h ∈ l, h ≠ m → KeyLt F m h := by
  induction l with
  | nil => exact absurd rfl hne
  | cons x l ih =>
    by_cases hl : l = []
    · subst hl
      exact ⟨x, rfl, by simp, fun h hh hx => absurd (by simpa using hh) hx⟩
    · have ha' : Allocated node F l := fun h hh => ha h (by simp [hh])
      obtain ⟨m, hm, hml, hmin⟩ := ih ha' hl
      have hb := nodeBefore_iff ha (i := x) (j := m) (by simp) (by simp [hml])
      by_cases hlt : nodeBefore node x m = true
      · refine ⟨x, by simp [minLive, hm, hlt], by simp, fun h hh hx => ?_⟩
        rcases List.mem_cons.1 hh with rfl | hh
        · exact absurd rfl hx
        · by_cases hmh : h = m
          · exact hmh ▸ hb.1 hlt
          · exact (hb.1 hlt).trans (hmin h hh hmh)
      · refine ⟨m, by simp [minLive, hm, hlt], by simp [hml], fun h hh hx => ?_⟩
        rcases List.mem_cons.1 hh with rfl | hh
        · exact KeyLt.of_not hx fun hk => hlt (hb.2 hk)
        · exact hmin h hh hx

theorem extractMin_spec {node : List Node} {F : Handle → Nat} {l : List Handle} (ha : Allocated node F l)
    (hne : l ≠ []) :
    ∃ m, extractMin node l = some (m, l.erase m) ∧ m ∈ l ∧ ∀ h ∈ l, h ≠ m → KeyLt F m h := by
  obtain ⟨m, hm, h⟩ := minLive_spec ha hne
  exact ⟨m, by simp [extractMin, hm], h⟩

end Sys2Proof.Machine
end

