-- ==== Sys2Proof/Laws/TreeBuilder.lean ====
section
/-! SUPPORT. The tree builder: what one turn does, the invariant of its loop (a forest whose roots are the live
handles), and the strict tree it ends with (R150 to R158, R26). -/

namespace Sys2Proof.Machine

open Sys2Proof.Safety

/-! ### One turn -/

/-- The frequency of the node a handle names. -/
def freqOf (node : List Node) (h : Handle) : Nat := ((node[h.toNat]?).map fun x => x.freq.toNat).getD 0

theorem freqOf_eq {node : List Node} {h : Handle} {x : Node} (hx : node[h.toNat]? = some x) :
    freqOf node h = x.freq.toNat := by simp [freqOf, hx]

theorem allocated_freqOf {node : List Node} {l : List Handle} (h : ∀ x ∈ l, x.toNat < node.length) :
    Allocated node (freqOf node) l :=
  fun x hx => ⟨node[x.toNat]'(h x hx), by simp [h x hx], by simp [freqOf, h x hx]⟩

/-- What one turn of the builder does (R154). -/
theorem combineStep_spec {a : Arena} (hs : LiveSorted a.live) (ha : ∀ h ∈ a.live, h.toNat < a.node.length)
    (h2 : 2 ≤ a.live.length) (hn : a.node.length < 511) :
    ∃ l r x y, l ∈ a.live ∧ r ∈ a.live ∧ l ≠ r ∧ a.node[l.toNat]? = some x ∧ a.node[r.toNat]? = some y ∧
      (∀ h ∈ a.live, h ≠ l → KeyLt (freqOf a.node) l h) ∧
      (∀ h ∈ a.live, h ≠ l → h ≠ r → KeyLt (freqOf a.node) r h) ∧
      combineStep a = some ⟨a.node ++ [.internal (x.freq + y.freq) l r],
        (a.live.erase l).erase r ++ [BitVec.ofNat 9 a.node.length]⟩ := by
  have hal := allocated_freqOf ha
  obtain ⟨l, hl, hlm, hlmin⟩ := extractMin_spec hal (by intro h; simp [h] at h2)
  have hmem : ∀ h, h ∈ a.live.erase l → h ≠ l ∧ h ∈ a.live := fun h hh => (mem_erase_sorted hs).1 hh
  have hal' : Allocated a.node (freqOf a.node) (a.live.erase l) := fun h hh => hal h (hmem h hh).2
  have hlen : (a.live.erase l).length = a.live.length - 1 := List.length_erase_of_mem hlm
  obtain ⟨r, hr, hrm, hrmin⟩ := extractMin_spec hal' (by intro h; simp [h] at hlen; omega)
  obtain ⟨hrl, hrm'⟩ := hmem r hrm
  obtain ⟨x, hx, -⟩ := hal l hlm
  obtain ⟨y, hy, -⟩ := hal r hrm'
  refine ⟨l, r, x, y, hlm, hrm', hrl.symm, hx, hy, hlmin,
    fun h hh h1 h2 => hrmin h ((mem_erase_sorted hs).2 ⟨h1, hh⟩) h2, ?_⟩
  have hins : liveInsert (BitVec.ofNat 9 a.node.length) ((a.live.erase l).erase r) =
      (a.live.erase l).erase r ++ [BitVec.ofNat 9 a.node.length] := by
    refine liveInsert_last fun h hh => ?_
    rw [handle_lt_iff, toNat_ofNat_handle (by omega)]
    exact ha h (hmem h (List.mem_of_mem_erase hh)).2
  simp only [combineStep, hl, hr, hx, hy, Config.numNodes, hn, if_true, hins]

/-! ### Children -/

/-- How often a node names `h` as a child. -/
def childOf (x : Node) (h : Handle) : Nat :=
  match x with
  | .leaf _ _ => 0
  | .internal _ l r => (if l = h then 1 else 0) + (if r = h then 1 else 0)

theorem childCount_eq (node : List Node) (h : Handle) : childCount node h = (node.map (childOf · h)).sum := by
  unfold childCount childOf
  rfl

theorem childCount_append (node : List Node) (x : Node) (h : Handle) :
    childCount (node ++ [x]) h = childCount node h + childOf x h := by
  simp [childCount_eq]

theorem childCount_zero {node : List Node} {h : Handle}
    (hz : ∀ f l r, .internal f l r ∈ node → l ≠ h ∧ r ≠ h) : childCount node h = 0 := by
  rw [childCount_eq, List.sum_eq_zero_iff]
  intro n hn
  obtain ⟨x, hx, rfl⟩ := List.mem_map.1 hn
  cases x with
  | leaf _ _ => rfl
  | internal f l r => simp [childOf, hz f l r hx]

/-- A node that names `h` as a child counts. -/
theorem childCount_pos {node : List Node} {h : Handle} {f l r} (hm : .internal f l r ∈ node)
    (hc : l = h ∨ r = h) : 0 < childCount node h := by
  rw [Nat.pos_iff_ne_zero, childCount_eq, ne_eq, List.sum_eq_zero_iff]
  intro hz
  have := hz _ (List.mem_map_of_mem (f := (childOf · h)) hm)
  rcases hc with rfl | rfl <;> simp [childOf] at this

/-- A handle that is a child names a node that owns it. -/
theorem exists_owner {node : List Node} {h : Handle} (hp : childCount node h ≠ 0) :
    ∃ (i : Nat) (f : NodeFreq) (l r : Handle), node[i]? = some (Node.internal f l r) ∧ (l = h ∨ r = h) := by
  rw [childCount_eq, ne_eq, List.sum_eq_zero_iff] at hp
  push Not at hp
  obtain ⟨n, hn, hne⟩ := hp
  obtain ⟨x, hx, rfl⟩ := List.mem_map.1 hn
  cases x with
  | leaf _ _ => simp [childOf] at hne
  | internal f l r =>
    obtain ⟨i, hi⟩ := List.mem_iff_getElem?.1 hx
    refine ⟨i, f, l, r, hi, ?_⟩
    by_contra hc
    push Not at hc
    simp [childOf, hc] at hne

/-! ### The loop's invariant -/

/-- The internal node at `i` has two children of smaller handles and the sum of their frequencies. -/
def GoodInternal (node : List Node) (i : Nat) : Prop :=
  ∃ f l r x y, node[i]? = some (.internal f l r) ∧ l.toNat < i ∧ r.toNat < i ∧
    node[l.toNat]? = some x ∧ node[r.toNat]? = some y ∧ f.toNat = x.freq.toNat + y.freq.toNat

theorem GoodInternal.append {node : List Node} {i : Nat} (h : GoodInternal node i) (z : Node) :
    GoodInternal (node ++ [z]) i := by
  obtain ⟨f, l, r, x, y, hi, hl, hr, hx, hy, hf⟩ := h
  have up : ∀ {j : Nat} {w : Node}, node[j]? = some w → (node ++ [z])[j]? = some w := by
    intro j w hw
    obtain ⟨hj, -⟩ := List.getElem?_eq_some_iff.1 hw
    rw [List.getElem?_append_left hj, hw]
  exact ⟨f, l, r, x, y, up hi, hl, hr, up hx, up hy, hf⟩

/-- The invariant of the builder's loop: a forest over the leaves `leaf`, whose roots are the live handles. -/
structure Forest (leaf : List Node) (total : Nat) (a : Arena) : Prop where
  leaves : leaf <+: a.node
  size : leaf.length ≤ 256
  isLeaf : ∀ x ∈ leaf, ∃ sym f, x = .leaf sym f
  count : a.node.length + a.live.length = 2 * leaf.length
  nonempty : a.live ≠ []
  sorted : LiveSorted a.live
  alloc : ∀ h ∈ a.live, h.toNat < a.node.length
  internals : ∀ i, leaf.length ≤ i → i < a.node.length → GoodInternal a.node i
  owned : ∀ h : Handle, h.toNat < a.node.length → childCount a.node h + (if h ∈ a.live then 1 else 0) = 1
  sum : (a.live.map (freqOf a.node)).sum = total

theorem freqOf_append {node : List Node} {h : Handle} (hh : h.toNat < node.length) (z : Node) :
    freqOf (node ++ [z]) h = freqOf node h := by
  simp [freqOf, List.getElem?_append_left hh]

theorem sum_erase {l : List Handle} {h : Handle} (hm : h ∈ l) (F : Handle → Nat) :
    ((l.erase h).map F).sum + F h = (l.map F).sum := by
  have := (List.perm_cons_erase hm).map F |>.sum_eq
  simp only [List.map_cons, List.sum_cons] at this
  omega

/-- An internal node of a forest stands at or beyond the leaves. -/
theorem Forest.internal_index {leaf : List Node} {total : Nat} {a : Arena} (hf : Forest leaf total a) {i : Nat}
    {f l r} (hi : a.node[i]? = some (.internal f l r)) : leaf.length ≤ i := by
  by_contra hlt
  push Not at hlt
  have h1 : leaf[i]? = a.node[i]? := by
    obtain ⟨t, ht⟩ := hf.leaves
    rw [← ht, List.getElem?_append_left hlt]
  rw [hi] at h1
  obtain ⟨sym, g, hg⟩ := hf.isLeaf _ (List.mem_of_getElem? h1)
  cases hg

/-- A child's handle is smaller than its parent's (R26, R27). -/
theorem Forest.child_lt {leaf : List Node} {total : Nat} {a : Arena} (hf : Forest leaf total a) {i : Nat}
    {f l r} (hi : a.node[i]? = some (.internal f l r)) : l.toNat < i ∧ r.toNat < i := by
  obtain ⟨f', l', r', x, y, hi', hl, hr, -⟩ :=
    hf.internals i (hf.internal_index hi) (List.getElem?_eq_some_iff.1 hi).1
  rw [hi] at hi'
  cases hi'
  exact ⟨hl, hr⟩

/-- No node names a handle at or beyond the end of the arena. -/
theorem Forest.childCount_beyond {leaf : List Node} {total : Nat} {a : Arena} (hf : Forest leaf total a)
    {h : Handle} (hh : a.node.length ≤ h.toNat + 1) : childCount a.node h = 0 := by
  refine childCount_zero fun f l r hm => ?_
  obtain ⟨i, hi⟩ := List.mem_iff_getElem?.1 hm
  have hlt := (List.getElem?_eq_some_iff.1 hi).1
  have := hf.child_lt hi
  constructor <;> rintro rfl <;> omega

/-- One turn keeps the forest and makes it one tree smaller (R154). -/
theorem Forest.step {leaf : List Node} {total : Nat} {a : Arena} (hf : Forest leaf total a)
    (ht : total < 2 ^ 40) (h2 : 2 ≤ a.live.length) :
    ∃ b, combineStep a = some b ∧ Forest leaf total b ∧ b.live.length + 1 = a.live.length := by
  have hsz := hf.size
  have hct := hf.count
  have hn : a.node.length < 511 := by omega
  obtain ⟨l, r, x, y, hl, hr, hlr, hx, hy, -, -, hstep⟩ := combineStep_spec hf.sorted hf.alloc h2 hn
  have hnew : (BitVec.ofNat 9 a.node.length : Handle).toNat = a.node.length := toNat_ofNat_handle (by omega)
  have hr' : r ∈ a.live.erase l := (mem_erase_sorted hf.sorted).2 ⟨hlr.symm, hr⟩
  have hs' := erase_sorted l hf.sorted
  have hmem : ∀ h, h ∈ (a.live.erase l).erase r ↔ h ≠ r ∧ h ≠ l ∧ h ∈ a.live := fun h => by
    rw [mem_erase_sorted hs', mem_erase_sorted hf.sorted]
  have hsum1 := sum_erase hl (freqOf a.node)
  have hsum2 := sum_erase hr' (freqOf a.node)
  have hsum := hf.sum
  have hfx := freqOf_eq hx
  have hfy := freqOf_eq hy
  have hadd : (x.freq + y.freq).toNat = x.freq.toNat + y.freq.toNat := by
    rw [BitVec.toNat_add, Nat.mod_eq_of_lt (by simp only [Config.nw, Config.cw]; omega)]
  have hlen1 : (a.live.erase l).length = a.live.length - 1 := List.length_erase_of_mem hl
  have hlen2 : ((a.live.erase l).erase r).length = (a.live.erase l).length - 1 := List.length_erase_of_mem hr'
  refine ⟨_, hstep, ⟨?_, hsz, hf.isLeaf, ?_, by simp, ?_, ?_, ?_, ?_, ?_⟩, ?_⟩
  · exact hf.leaves.trans (List.prefix_append _ _)
  · simp only [List.length_append, List.length_singleton]; omega
  · refine List.pairwise_append.2 ⟨erase_sorted r hs', by simp, fun z hz w hw => ?_⟩
    rw [List.mem_singleton.1 hw, handle_lt_iff, hnew]
    exact hf.alloc z ((hmem z).1 hz).2.2
  · intro h hh
    simp only [List.length_append, List.length_singleton]
    rcases List.mem_append.1 hh with hh | hh
    · have := hf.alloc h ((hmem h).1 hh).2.2; omega
    · rw [List.mem_singleton.1 hh, hnew]; omega
  · intro i hi hlt
    by_cases hia : i < a.node.length
    · exact (hf.internals i hi hia).append _
    · simp only [List.length_append, List.length_singleton] at hlt
      have hieq : i = a.node.length := by omega
      subst hieq
      refine ⟨x.freq + y.freq, l, r, x, y, by simp, hf.alloc l hl, hf.alloc r hr, ?_, ?_, hadd⟩
      · rw [List.getElem?_append_left (hf.alloc l hl), hx]
      · rw [List.getElem?_append_left (hf.alloc r hr), hy]
  · intro h hh
    simp only [List.length_append, List.length_singleton] at hh
    rw [childCount_append]
    by_cases hha : h.toNat < a.node.length
    · have ho := hf.owned h hha
      have hne : h ≠ BitVec.ofNat 9 a.node.length := by rintro rfl; omega
      simp only [childOf, List.mem_append, List.mem_singleton, hne, or_false, hmem]
      by_cases h1 : h = l
      · subst h1; simp [hl] at ho; simp [ho, hlr.symm]
      · by_cases h3 : h = r
        · subst h3; simp [hr] at ho; simp [ho, hlr]
        · simpa [Ne.symm h1, Ne.symm h3, h1, h3] using ho
    · have heq : h = BitVec.ofNat 9 a.node.length := BitVec.eq_of_toNat_eq (by rw [hnew]; omega)
      have hz := hf.childCount_beyond (h := h) (by omega)
      have hnl : l ≠ h := by rintro rfl; have := hf.alloc l hl; omega
      have hnr : r ≠ h := by rintro rfl; have := hf.alloc r hr; omega
      simp [hz, childOf, hnl, hnr, ← heq]
  · have hcong : ((a.live.erase l).erase r).map (freqOf (a.node ++ [.internal (x.freq + y.freq) l r])) =
        ((a.live.erase l).erase r).map (freqOf a.node) :=
      List.map_congr_left fun h hh => freqOf_append (hf.alloc h ((hmem h).1 hh).2.2) _
    have hfn : freqOf (a.node ++ [.internal (x.freq + y.freq) l r]) (BitVec.ofNat 9 a.node.length) =
        x.freq.toNat + y.freq.toNat := by
      rw [freqOf_eq (x := .internal (x.freq + y.freq) l r) (by rw [hnew]; simp)]
      exact hadd
    simp only [List.map_append, List.sum_append, hcong, List.map_cons, List.map_nil, List.sum_cons, List.sum_nil, hfn]
    omega
  · simp only [List.length_append, List.length_singleton]; omega

/-- The loop ends with one tree (R155). -/
theorem Forest.loop {leaf : List Node} {total : Nat} (ht : total < 2 ^ 40) :
    ∀ (n : Nat) (a : Arena), Forest leaf total a → a.live.length ≤ n →
      ∃ b, combineLoop n a = some b ∧ Forest leaf total b ∧ b.live.length = 1 := by
  intro n
  induction n with
  | zero => intro a hf hn; exact absurd (List.length_eq_zero_iff.1 (by omega)) hf.nonempty
  | succ n ih =>
    intro a hf hn
    by_cases h2 : 1 < a.live.length
    · obtain ⟨b, hb, hfb, hlen⟩ := hf.step ht h2
      obtain ⟨c, hc, hfc, hc1⟩ := ih b hfb (by omega)
      exact ⟨c, by simp [combineLoop, h2, hb, hc], hfc, hc1⟩
    · have := List.length_pos_iff.2 hf.nonempty
      exact ⟨a, by simp [combineLoop, h2], hf, by omega⟩

theorem Forest.build {leaf : List Node} {total : Nat} {a : Arena} (ht : total < 2 ^ 40) (hf : Forest leaf total a) :
    ∃ b r, buildTree a = some (b, r) ∧ b.live = [r] ∧ Forest leaf total b := by
  obtain ⟨b, hb, hfb, h1⟩ := hf.loop ht _ a le_rfl
  obtain ⟨r, hr⟩ := List.length_eq_one_iff.1 h1
  exact ⟨b, r, by simp [buildTree, hb, hr], hr, hfb⟩

/-- A forest of one tree is a strict tree whose root is its last node (R26, R155). -/
theorem Forest.strictTree {leaf : List Node} {total : Nat} {b : Arena} {r : Handle} (hf : Forest leaf total b)
    (hr : b.live = [r]) : StrictTree b.node r leaf.length := by
  have hct := hf.count
  have hsz := hf.size
  have hle := hf.leaves.length_le
  simp only [hr, List.length_singleton] at hct
  have hal := hf.alloc r (by simp [hr])
  have hlast : r.toNat = 2 * leaf.length - 2 := by
    have hnew : (BitVec.ofNat 9 (b.node.length - 1) : Handle).toNat = b.node.length - 1 := toNat_ofNat_handle (by omega)
    have hz := hf.childCount_beyond (h := BitVec.ofNat 9 (b.node.length - 1)) (by omega)
    have ho := hf.owned (BitVec.ofNat 9 (b.node.length - 1)) (by omega)
    have hm : (BitVec.ofNat 9 (b.node.length - 1) : Handle) ∈ b.live := by
      by_contra hc; simp [hz, hc] at ho
    rw [hr, List.mem_singleton] at hm
    rw [← hm, hnew]; omega
  refine ⟨⟨by omega, hsz⟩, by omega, hlast, ?_, hf.internals, ?_, ?_⟩
  · intro i hi
    obtain ⟨t, ht⟩ := hf.leaves
    obtain ⟨sym, f, hx⟩ := hf.isLeaf leaf[i] (by simp)
    exact ⟨sym, f, by rw [← ht, List.getElem?_append_left hi, List.getElem?_eq_getElem hi, hx]⟩
  · intro h hh hne
    have := hf.owned h hh
    simpa [hr, hne] using this
  · have := hf.owned r hal
    simpa [hr] using this

end Sys2Proof.Machine
end

