-- ==== Sys2Proof/Laws/Leaves.lean ====
section
/-! SUPPORT. The leaves the builder starts from (R151), the first forest, and the tree state: from a map that is
not empty the builder always makes a strict tree (R155, R260). -/

namespace Sys2Proof.Machine

open Sys2Proof.Safety

/-- The counted symbols in ascending order (R27). -/
def counted (freq : Vector Count Config.numSymbols) : List Nat :=
  (List.range Config.numSymbols).filter fun n => (freq[n]?.getD 0) ≠ 0

theorem filterMap_eq_map_filter (f : Nat → Count) (g : Nat → Count → Node) (l : List Nat) :
    (l.filterMap fun n => if f n ≠ 0 then some (g n (f n)) else none) =
      (l.filter fun n => f n ≠ 0).map fun n => g n (f n) := by
  induction l with
  | nil => rfl
  | cons a l ih =>
    by_cases ha : f a = 0
    · rw [List.filterMap_cons_none (by simp only [ha]; rfl), List.filter_cons_of_neg (by simp only [ha]; decide), ih]
    · have hc : (if f a ≠ 0 then some (g a (f a)) else none) = some (g a (f a)) := if_pos ha
      rw [List.filterMap_cons_some (f := fun n => if f n ≠ 0 then some (g n (f n)) else none) hc, List.filter_cons_of_pos (by simpa using ha), ih, List.map_cons]

theorem sum_eq_sum_filter (f : Nat → Count) (l : List Nat) :
    (l.map fun n => (f n).toNat).sum = ((l.filter fun n => f n ≠ 0).map fun n => (f n).toNat).sum := by
  induction l with
  | nil => rfl
  | cons a l ih =>
    by_cases ha : f a = 0
    · rw [List.map_cons, List.sum_cons, ih, List.filter_cons_of_neg (by simp only [ha]; decide), ha]
      exact Nat.zero_add _
    · rw [List.filter_cons_of_pos (by simpa using ha), List.map_cons, List.map_cons, List.sum_cons, List.sum_cons, ih]

/-- The counters with their symbols. -/
theorem zipIdx_toList (freq : Vector Count Config.numSymbols) :
    freq.toList.zipIdx = (List.range Config.numSymbols).map fun n => (freq[n]?.getD 0, n) := by
  apply List.ext_getElem
  · simp
  · intro n h1 h2
    have hn : n < Config.numSymbols := by simpa using h2
    simp [hn]

theorem initLeaves_eq (freq : Vector Count Config.numSymbols) :
    initLeaves freq = (counted freq).map fun n => .leaf (BitVec.ofNat 8 n) (zextFreq (freq[n]?.getD 0)) := by
  rw [initLeaves, zipIdx_toList, List.filterMap_map]
  exact filterMap_eq_map_filter (fun n => freq[n]?.getD 0) (fun n c => .leaf (BitVec.ofNat 8 n) (zextFreq c)) _

theorem mem_counted {freq : Vector Count Config.numSymbols} {n : Nat} :
    n ∈ counted freq ↔ n < 256 ∧ freq[n]?.getD 0 ≠ 0 := by simp [counted]

theorem counted_length_le (freq : Vector Count Config.numSymbols) : (counted freq).length ≤ 256 :=
  (List.length_filter_le _ _).trans (by simp)

theorem initLeaves_length (freq : Vector Count Config.numSymbols) :
    (initLeaves freq).length = (counted freq).length := by simp [initLeaves_eq]

theorem freqAt_eq_getD (s : State) (b : Symbol) : s.freqAt b = s.freq[b.toNat]?.getD 0 := by
  have h : b.toNat < Config.numSymbols := b.isLt
  rw [Vector.getElem?_eq_getElem h]
  rfl

theorem initLeaves_eq_nil_iff (s : State) : initLeaves s.freq = [] ↔ ∀ b, s.freqAt b = 0 := by
  rw [initLeaves_eq, List.map_eq_nil_iff, List.eq_nil_iff_forall_not_mem]
  constructor
  · intro h b
    by_contra hb
    exact h b.toNat (mem_counted.2 ⟨b.isLt, by rwa [← freqAt_eq_getD]⟩)
  · intro h n hn
    obtain ⟨hlt, hne⟩ := mem_counted.1 hn
    apply hne
    have := h (BitVec.ofNat 8 n)
    rw [freqAt_eq_getD] at this
    simpa [Nat.mod_eq_of_lt hlt] using this

@[simp] theorem zextFreq_toNat (c : Count) : (zextFreq c).toNat = c.toNat := by
  simp only [zextFreq, BitVec.toNat_setWidth, Config.nw, Config.cw]
  have := c.isLt
  simp only [Config.cw] at this
  omega

theorem totalCount_lt (freq : Vector Count Config.numSymbols) : totalCount freq < 2 ^ 40 := by
  have h : ∀ l : List Nat, (l.map fun n => (freq[n]?.getD 0).toNat).sum ≤ l.length * (2 ^ 32 - 1) := by
    intro l
    induction l with
    | nil => simp
    | cons a l ih =>
      have := (freq[a]?.getD 0).isLt
      simp only [Config.cw] at this
      simp only [List.map_cons, List.sum_cons, List.length_cons]
      omega
  have := h (List.range Config.numSymbols)
  simp only [List.length_range, Config.numSymbols] at this
  unfold totalCount
  simp only [Config.numSymbols]
  omega

theorem totalCount_eq_counted (freq : Vector Count Config.numSymbols) :
    totalCount freq = ((counted freq).map fun n => (freq[n]?.getD 0).toNat).sum := by
  exact sum_eq_sum_filter (fun n => freq[n]?.getD 0) _

/-- The first forest: every leaf is a tree of its own (R151). -/
theorem forest_initLeaves {freq : Vector Count Config.numSymbols} (hne : initLeaves freq ≠ []) :
    Forest (initLeaves freq) (totalCount freq) ⟨initLeaves freq, liveLeaves (initLeaves freq).length []⟩ := by
  have hk : (initLeaves freq).length ≤ 256 := by rw [initLeaves_length]; exact counted_length_le _
  have hlive := liveLeaves_nil (k := (initLeaves freq).length) (by omega)
  have hpos := List.length_pos_iff.2 hne
  have hleaf : ∀ x ∈ initLeaves freq, ∃ sym f, x = .leaf sym f := by
    intro x hx
    rw [initLeaves_eq] at hx
    obtain ⟨n, -, rfl⟩ := List.mem_map.1 hx
    exact ⟨_, _, rfl⟩
  refine ⟨List.prefix_rfl, hk, hleaf, ?_, ?_, liveLeaves_sorted _ List.Pairwise.nil, ?_, ?_, ?_, ?_⟩
  · simp [hlive]; omega
  · intro h
    simp only [hlive, List.map_eq_nil_iff, List.range_eq_nil] at h
    exact absurd h (by omega)
  · intro h hh
    simp only [hlive] at hh ⊢
    obtain ⟨n, hn, rfl⟩ := List.mem_map.1 hh
    have := List.mem_range.1 hn
    rw [toNat_ofNat_handle (by omega)]
    exact this
  · intro i hi hlt
    exact absurd hlt (by simpa using hi)
  · intro h hh
    have hz : childCount (initLeaves freq) h = 0 := childCount_zero fun f l r hm => by
      obtain ⟨_, _, hx⟩ := hleaf _ hm
      cases hx
    have hm : h ∈ liveLeaves (initLeaves freq).length [] := by
      rw [hlive]
      exact List.mem_map.2 ⟨h.toNat, List.mem_range.2 hh, by simp⟩
    simp [hz, hm]
  · have hmap : (liveLeaves (initLeaves freq).length []).map (freqOf (initLeaves freq)) =
        (initLeaves freq).map fun x => x.freq.toNat := by
      rw [hlive]
      apply List.ext_getElem
      · simp
      · intro i h1 h2
        have hi : i < (initLeaves freq).length := by simpa using h2
        have hmod : i % 2 ^ Config.hw = i := Nat.mod_eq_of_lt (by simp only [Config.hw]; omega)
        simp [freqOf, hmod, hi]
    rw [hmap, totalCount_eq_counted, initLeaves_eq, List.map_map]
    simp [Function.comp_def, Node.freq]

/-- What the builder makes of a map that is not empty (R150, R155). -/
theorem buildTree_spec {freq : Vector Count Config.numSymbols} (hne : initLeaves freq ≠ []) :
    ∃ b r, buildTree ⟨initLeaves freq, liveLeaves (initLeaves freq).length []⟩ = some (b, r) ∧ b.live = [r] ∧
      Forest (initLeaves freq) (totalCount freq) b :=
  (forest_initLeaves hne).build (totalCount_lt freq)

theorem counted_nodup (freq : Vector Count Config.numSymbols) : (counted freq).Nodup :=
  List.nodup_range.filter _

end Sys2Proof.Machine

namespace Sys2Proof.Safety

open Sys2Proof.Machine

/-- The tree state of a valid tree is a forest of one tree. -/
theorem TreeOf.forest {s : State} (h : TreeOf s) :
    s.live = [s.root] ∧ Forest (initLeaves s.freq) (totalCount s.freq) ⟨s.node, s.live⟩ := by
  obtain ⟨hne, -, hb⟩ := h
  obtain ⟨b, r, hb', hl, hf⟩ := buildTree_spec hne
  rw [hb] at hb'
  cases hb'
  exact ⟨hl, hf⟩

theorem TreeOf.nsym_toNat {s : State} (h : TreeOf s) : s.nsym.toNat = (initLeaves s.freq).length := by
  have hk : (initLeaves s.freq).length ≤ 256 := by rw [initLeaves_length]; exact counted_length_le _
  rw [h.2.1, toNat_ofNat_handle (by omega)]

theorem TreeOf.strictTree {s : State} (h : TreeOf s) : StrictTree s.node s.root (initLeaves s.freq).length :=
  h.forest.2.strictTree h.forest.1

theorem TreeOf.leaf_getElem {s : State} (h : TreeOf s) {i : Nat} (hi : i < (initLeaves s.freq).length) :
    s.node[i]? = (initLeaves s.freq)[i]? := by
  obtain ⟨t, ht⟩ := h.forest.2.leaves
  have ht' : s.node = initLeaves s.freq ++ t := ht.symm
  rw [ht', List.getElem?_append_left hi]

/-- A leaf of the tree holds a counted symbol, and stands where its symbol stands in ascending order (R27). -/
theorem TreeOf.leaf_index {s : State} (h : TreeOf s) {i : Nat} {sym : Symbol} {f : NodeFreq}
    (hx : s.node[i]? = some (.leaf sym f)) :
    (counted s.freq)[i]? = some sym.toNat ∧ f = zextFreq (s.freqAt sym) := by
  have hi : i < (initLeaves s.freq).length := by
    by_contra hge
    obtain ⟨_, _, _, _, _, hx', -⟩ :=
      h.forest.2.internals i (by omega) (List.getElem?_eq_some_iff.1 hx).1
    simp only at hx'
    rw [hx] at hx'
    cases hx'
  rw [h.leaf_getElem hi, initLeaves_eq, List.getElem?_map] at hx
  obtain ⟨n, hn, hnl⟩ := Option.map_eq_some_iff.1 hx
  have hlt := (mem_counted.1 (List.mem_of_getElem? hn)).1
  cases hnl
  rw [hn, freqAt_eq_getD]
  simp [Nat.mod_eq_of_lt hlt]

/-- A leaf's symbol names the leaf. -/
theorem TreeOf.leaf_unique {s : State} (h : TreeOf s) {i j : Nat} {sym : Symbol} {f g : NodeFreq}
    (hi : s.node[i]? = some (.leaf sym f)) (hj : s.node[j]? = some (.leaf sym g)) : i = j := by
  have h1 := (h.leaf_index hi).1
  have h2 := (h.leaf_index hj).1
  obtain ⟨hi', e1⟩ := List.getElem?_eq_some_iff.1 h1
  obtain ⟨hj', e2⟩ := List.getElem?_eq_some_iff.1 h2
  exact (counted_nodup s.freq).getElem_inj_iff.1 (e1.trans e2.symm)

/-- Every counted symbol has a leaf. -/
theorem TreeOf.exists_leaf {s : State} (h : TreeOf s) {sym : Symbol} (hs : s.freqAt sym ≠ 0) :
    ∃ i < (initLeaves s.freq).length, s.node[i]? = some (.leaf sym (zextFreq (s.freqAt sym))) := by
  have hm : sym.toNat ∈ counted s.freq := mem_counted.2 ⟨sym.isLt, by rwa [← freqAt_eq_getD]⟩
  obtain ⟨i, hi⟩ := List.mem_iff_getElem?.1 hm
  have hlt := (List.getElem?_eq_some_iff.1 hi).1
  rw [← initLeaves_length] at hlt
  refine ⟨i, hlt, ?_⟩
  rw [h.leaf_getElem hlt, initLeaves_eq, List.getElem?_map, hi, freqAt_eq_getD]
  simp

theorem TreeOf.freq_ne_zero {s : State} (h : TreeOf s) {i : Nat} {sym : Symbol} {f : NodeFreq}
    (hx : s.node[i]? = some (.leaf sym f)) : s.freqAt sym ≠ 0 := by
  rw [freqAt_eq_getD]
  exact (mem_counted.1 (List.mem_of_getElem? (h.leaf_index hx).1)).2

end Sys2Proof.Safety
end

