-- ==== Sys2Proof/Laws/CodeTable.lean ====
section
/-! SUPPORT. The stored form of a code and the code-table generator: the code of a counted symbol is the path
from the root to its leaf (R171, R172, R175). -/

namespace Sys2Proof.Machine

open Sys2Proof.Safety

/-! ### The stored form of a code -/

theorem ofBoolListBE_getLsbD (p : List Bool) {n : Nat} (hn : n < p.length) :
    (BitVec.ofBoolListBE p).getLsbD n = p[p.length - 1 - n]'(by omega) := by
  have h : p.length - 1 - n < p.length := by omega
  rw [BitVec.getLsbD_ofBoolListBE]
  simp [hn, List.getElem?_eq_getElem h]

@[simp] theorem Code.ofBits_len {p : List Bool} (h : p.length ≤ 255) : (Code.ofBits p).len.toNat = p.length := by
  simp only [Code.ofBits, BitVec.toNat_ofNat]
  omega

theorem Code.ofBits_bit {p : List Bool} (h : p.length ≤ 255) {t : Nat} (ht : t < p.length) :
    (Code.ofBits p).bits.getLsbD (255 - t) = p[t] := by
  simp only [Code.ofBits, BitVec.getLsbD_shiftLeft, BitVec.getLsbD_setWidth]
  rw [ofBoolListBE_getLsbD p (by omega)]
  have h1 : 255 - t < 256 := by omega
  have h2 : ¬ 255 - t < 256 - p.length := by omega
  have h3 : 255 - t - (256 - p.length) < 256 := by omega
  have h4 : p.length - 1 - (255 - t - (256 - p.length)) = t := by omega
  simp [h1, h2, h3, h4]

/-- A stored code reads back as the bit string (R32). -/
@[simp] theorem Code.string_ofBits {p : List Bool} (h : p.length ≤ 255) : (Code.ofBits p).string = p := by
  apply List.ext_getElem
  · simp [Code.string, h]
  · intro i h1 h2
    simp only [Code.string, List.getElem_map, List.getElem_range]
    exact Code.ofBits_bit h h2

/-- The bits of a stored code below its end are 0 (R32). -/
theorem Code.ofBits_low {p : List Bool} {n : Nat} (hn : n < 256 - p.length) :
    (Code.ofBits p).bits.getLsbD n = false := by
  simp [Code.ofBits, hn]

theorem Code.ofBits_len_ne_zero {p : List Bool} (h : p.length ≤ 255) (h0 : p ≠ []) : (Code.ofBits p).len ≠ 0 := by
  intro he
  have := Code.ofBits_len h
  rw [he] at this
  exact h0 (List.length_eq_zero_iff.1 this.symm)

@[simp] theorem Code.string_length (c : Code) : c.string.length = c.len.toNat := by simp [Code.string]

@[simp] theorem Code.string_none : Code.none.string = [] := rfl

/-! ### The walk -/

theorem follow_cons_internal {node : List Node} {i : Handle} {f l r} (hi : node[i.toNat]? = some (.internal f l r))
    (v : Bool) (p : List Bool) : follow node (v :: p) i = follow node p (if v then r else l) := by
  simp [follow, hi]

theorem follow_cons_leaf {node : List Node} {i : Handle} {sym f} (hi : node[i.toNat]? = some (.leaf sym f))
    (v : Bool) (p : List Bool) : follow node (v :: p) i = none := by
  simp [follow, hi]

/-- What the walk from handle `i` writes (R171): every symbol at a leaf below `i` gets the way to such a leaf
after the prefix `p`, and no other entry changes. -/
theorem walk_spec {node : List Node} : ∀ {n : Nat} {i : Handle} {p : List Bool} {t t' : Vector Code Config.numSymbols},
    walk node n i p t = some t' → ∀ s : Symbol,
      ((∃ q f, follow node q i = some (.leaf s f)) →
        ∃ q f, follow node q i = some (.leaf s f) ∧ q.length < n ∧ t'[s.toNat]'s.isLt = Code.ofBits (p ++ q)) ∧
      ((¬ ∃ q f, follow node q i = some (.leaf s f)) → t'[s.toNat]'s.isLt = t[s.toNat]'s.isLt) := by
  intro n
  induction n with
  | zero => intro i p t t' h; simp [walk] at h
  | succ n ih =>
    intro i p t t' h s
    cases hi : node[i.toNat]? with
    | none => simp [walk, hi] at h
    | some x =>
      cases x with
      | leaf sym f =>
        simp only [walk, hi, Option.some.injEq] at h
        subst h
        rw [setCode_getElem]
        by_cases hs : s = sym
        · subst hs
          exact ⟨fun _ => ⟨[], f, by simp [follow, hi], by simp, by simp⟩,
            fun hno => absurd ⟨[], f, by simp [follow, hi]⟩ hno⟩
        · simp only [hs, if_false, implies_true, and_true]
          rintro ⟨q, g, hq⟩
          cases q with
          | nil => simp [follow, hi, Ne.symm hs] at hq
          | cons v q => rw [follow_cons_leaf hi] at hq; cases hq
      | internal f l r =>
        simp only [walk, hi] at h
        obtain ⟨t1, ht1, ht2⟩ := Option.bind_eq_some_iff.1 h
        obtain ⟨hl, hl'⟩ := ih ht1 s
        obtain ⟨hr, hr'⟩ := ih ht2 s
        have split : (∃ q g, follow node q i = some (.leaf s g)) ↔
            (∃ q g, follow node q l = some (.leaf s g)) ∨ ∃ q g, follow node q r = some (.leaf s g) := by
          constructor
          · rintro ⟨q, g, hq⟩
            cases q with
            | nil => simp [follow, hi] at hq
            | cons v q =>
              rw [follow_cons_internal hi] at hq
              cases v with
              | false => exact .inl ⟨q, g, by simpa using hq⟩
              | true => exact .inr ⟨q, g, by simpa using hq⟩
          · rintro (⟨q, g, hq⟩ | ⟨q, g, hq⟩)
            · exact ⟨false :: q, g, by rw [follow_cons_internal hi]; simpa using hq⟩
            · exact ⟨true :: q, g, by rw [follow_cons_internal hi]; simpa using hq⟩
        rw [split]
        by_cases her : ∃ q g, follow node q r = some (.leaf s g)
        · refine ⟨fun _ => ?_, fun hno => absurd (.inr her) hno⟩
          obtain ⟨q, g, hq, hlen, hc⟩ := hr her
          exact ⟨true :: q, g, by rw [follow_cons_internal hi]; simpa using hq, by simpa using hlen, by simpa using hc⟩
        · have heq := hr' her
          refine ⟨?_, fun hno => heq.trans (hl' fun h' => hno (.inl h'))⟩
          rintro (hel | hel)
          · obtain ⟨q, g, hq, hlen, hc⟩ := hl hel
            exact ⟨false :: q, g, by rw [follow_cons_internal hi]; simpa using hq, by simpa using hlen,
              heq.trans (by simpa using hc)⟩
          · exact absurd hel her

end Sys2Proof.Machine

namespace Sys2Proof.Safety

open Sys2Proof.Machine

variable {node : List Node} {root : Handle} {k : Nat}

theorem StrictTree.internal_of_ge (h : StrictTree node root k) {i : Nat} (hi : k ≤ i) (hlt : i < node.length) :
    ∃ f l r, node[i]? = some (.internal f l r) ∧ l.toNat < i ∧ r.toNat < i := by
  obtain ⟨f, l, r, _, _, h1, h2, h3, -⟩ := h.internals i hi hlt
  exact ⟨f, l, r, h1, h2, h3⟩

/-- The walk reaches an end in a strict tree: no path is longer than the number of its internal nodes (R174). -/
theorem StrictTree.walk_total (h : StrictTree node root k) :
    ∀ (n : Nat) (i : Handle) (p : List Bool) (t : Vector Code Config.numSymbols), i.toNat < node.length → 1 ≤ n →
      i.toNat + 2 ≤ n + k → ∃ t', walk node n i p t = some t' := by
  intro n
  induction n with
  | zero => intro i p t _ h1; omega
  | succ n ih =>
    intro i p t hi _ hn
    by_cases hk : i.toNat < k
    · obtain ⟨sym, f, hx⟩ := h.leaves _ hk
      exact ⟨setCode t sym p, by simp only [walk, hx]⟩
    · obtain ⟨f, l, r, hx, hl, hr⟩ := h.internal_of_ge (by omega) hi
      have := h.count
      obtain ⟨t1, h1⟩ := ih l (p ++ [false]) t (by omega) (by omega) (by omega)
      obtain ⟨t2, h2⟩ := ih r (p ++ [true]) t1 (by omega) (by omega) (by omega)
      exact ⟨t2, by simp [walk, hx, h1, h2]⟩

theorem StrictTree.root_lt (h : StrictTree node root k) : root.toNat < node.length := by
  have h1 := h.size.1; have := h.count; have := h.rootLast; omega

/-- Every node is reached from the root (R26): some path leads there, and goes on from there. -/
theorem StrictTree.reach (h : StrictTree node root k) :
    ∀ (d : Nat) (i : Handle), i.toNat < node.length → node.length - i.toNat ≤ d →
      ∃ q, ∀ p, follow node (q ++ p) root = follow node p i := by
  intro d
  induction d with
  | zero => intro i hi hd; omega
  | succ d ih =>
    intro i hi hd
    by_cases hr : i = root
    · exact ⟨[], fun p => by rw [hr]; rfl⟩
    · obtain ⟨j, f, l, r, hj, hc⟩ := exists_owner (by rw [h.owned i hi hr]; decide : childCount node i ≠ 0)
      have hjlt := (List.getElem?_eq_some_iff.1 hj).1
      have hk : k ≤ j := by
        by_contra hlt
        obtain ⟨sym, g, hx⟩ := h.leaves j (by omega)
        rw [hj] at hx; cases hx
      have hsz := h.size.2
      have hcnt := h.count
      have hjn : (BitVec.ofNat 9 j : Handle).toNat = j := toNat_ofNat_handle (by simp only [Config.numSymbols] at hsz; omega)
      obtain ⟨f', l', r', hj', hl, hr'⟩ := h.internal_of_ge hk hjlt
      rw [hj] at hj'
      cases hj'
      have hij : i.toNat < j := by rcases hc with rfl | rfl <;> assumption
      obtain ⟨q, hq⟩ := ih (BitVec.ofNat 9 j) (by omega) (by omega)
      have hj2 : node[(BitVec.ofNat 9 j : Handle).toNat]? = some (.internal f l r) := by rw [hjn, hj]
      rcases hc with rfl | rfl
      · exact ⟨q ++ [false], fun p => by rw [List.append_assoc, hq, List.singleton_append, follow_cons_internal hj2]; simp⟩
      · exact ⟨q ++ [true], fun p => by rw [List.append_assoc, hq, List.singleton_append, follow_cons_internal hj2]; simp⟩

theorem StrictTree.root_leaf_iff (h : StrictTree node root k) :
    (∃ sym f, node[root.toNat]? = some (.leaf sym f)) ↔ k = 1 := by
  have h1 := h.size.1
  have h3 := h.rootLast
  constructor
  · rintro ⟨sym, f, hx⟩
    by_contra hk
    obtain ⟨_, _, _, hx', -⟩ := h.internal_of_ge (i := root.toNat) (by omega) h.root_lt
    rw [hx] at hx'; cases hx'
  · intro hk
    obtain ⟨sym, f, hx⟩ := h.leaves root.toNat (by omega)
    exact ⟨sym, f, hx⟩

/-- The generator completes on every strict tree. -/
theorem StrictTree.codeTable_total (h : StrictTree node root k) (t : Vector Code Config.numSymbols) :
    ∃ t', codeTable node root t = some t' := by
  have hsz := h.size
  have h3 := h.rootLast
  by_cases hk : k = 1
  · obtain ⟨sym, f, hx⟩ := h.root_leaf_iff.2 hk
    exact ⟨setCode t sym [false], by simp only [codeTable, hx]⟩
  · obtain ⟨f, l, r, hx, -⟩ := h.internal_of_ge (i := root.toNat) (by omega) h.root_lt
    obtain ⟨t', ht⟩ := h.walk_total (Config.maxDepth + 1) root [] t h.root_lt (by decide)
      (by simp only [Config.maxDepth, Config.numSymbols] at *; omega)
    exact ⟨t', by simp only [codeTable, hx, ht]⟩

variable {s : State}

theorem TreeOf.nsym_eq_one_iff (h : TreeOf s) : s.nsym = 1 ↔ (initLeaves s.freq).length = 1 := by
  rw [← h.nsym_toNat]
  constructor
  · intro e; rw [e]; rfl
  · intro e; exact BitVec.eq_of_toNat_eq e

/-- The code of a counted symbol in a tree of two or more symbols (R171): the path to its leaf. -/
theorem CodesOf.path (ht : TreeOf s) (hc : CodesOf s) (hk : s.nsym ≠ 1) {b : Symbol} (hb : s.freqAt b ≠ 0) :
    ∃ q f, follow s.node q s.root = some (.leaf b f) ∧ q ≠ [] ∧ q.length ≤ 255 ∧ s.codeAt b = Code.ofBits q := by
  have hs := ht.strictTree
  have hk' : (initLeaves s.freq).length ≠ 1 := fun e => hk (ht.nsym_eq_one_iff.2 e)
  have h3 := hs.rootLast
  have hsz := hs.size
  obtain ⟨g, l, r, hx, -⟩ := hs.internal_of_ge (i := s.root.toNat) (by omega) hs.root_lt
  simp only [CodesOf, codeTable, hx] at hc
  obtain ⟨i, hi, hleaf⟩ := ht.exists_leaf hb
  have hcnt := hs.count
  have hin : (BitVec.ofNat 9 i : Handle).toNat = i :=
    toNat_ofNat_handle (by simp only [Config.numSymbols] at hsz; omega)
  obtain ⟨q0, hq0⟩ := hs.reach _ (BitVec.ofNat 9 i) (by omega) le_rfl
  have hreach : follow s.node q0 s.root = some (.leaf b (zextFreq (s.freqAt b))) := by
    have := hq0 []
    rw [List.append_nil] at this
    rw [this, follow, hin, hleaf]
  obtain ⟨q, f, hq, hlen, hcode⟩ := (walk_spec hc b).1 ⟨q0, _, hreach⟩
  refine ⟨q, f, hq, ?_, by simp only [Config.maxDepth] at hlen; omega, by simpa [State.codeAt] using hcode⟩
  rintro rfl
  simp [follow, hx] at hq

/-- The lone symbol's code is "0" (R172). -/
theorem CodesOf.lone (ht : TreeOf s) (hc : CodesOf s) (hk : s.nsym = 1) {b : Symbol} (hb : s.freqAt b ≠ 0) :
    (∃ f, s.node[s.root.toNat]? = some (.leaf b f)) ∧ s.codeAt b = Code.ofBits [false] := by
  have hs := ht.strictTree
  have hk' := ht.nsym_eq_one_iff.1 hk
  obtain ⟨sym, f, hx⟩ := hs.root_leaf_iff.2 hk'
  obtain ⟨i, hi, hleaf⟩ := ht.exists_leaf hb
  have hr : s.root.toNat = 0 := by have := hs.rootLast; omega
  have hi0 : i = 0 := by omega
  subst hi0
  rw [hr, hleaf] at hx
  cases hx
  rw [← hr] at hleaf
  simp only [CodesOf, codeTable, hleaf, Option.some.injEq] at hc
  refine ⟨⟨_, hleaf⟩, ?_⟩
  simp only [State.codeAt, ← hc]
  rw [setCode_getElem]
  simp

/-- A symbol that was not counted has no code (R175 a). -/
theorem CodesOf.no_code (ht : TreeOf s) (hc : CodesOf s) {b : Symbol} (hb : s.freqAt b = 0) :
    s.codeAt b = Code.none := by
  have hs := ht.strictTree
  cases hx : s.node[s.root.toNat]? with
  | none => simp [CodesOf, codeTable, hx] at hc
  | some x =>
    cases x with
    | leaf sym f =>
      simp only [CodesOf, codeTable, hx, Option.some.injEq] at hc
      have hne : b ≠ sym := by rintro rfl; exact ht.freq_ne_zero hx hb
      simp only [State.codeAt, ← hc]
      rw [setCode_getElem]
      simp [hne]
    | internal f l r =>
      simp only [CodesOf, codeTable, hx] at hc
      have := (walk_spec hc b).2 (by
        rintro ⟨q, g, hq⟩
        have hmem : ∃ i : Nat, s.node[i]? = some (.leaf b g) := by
          clear hc hx
          generalize s.root = i at hq
          induction q generalizing i with
          | nil => exact ⟨_, hq⟩
          | cons v q ih =>
            simp only [follow] at hq
            split at hq
            · exact ih _ hq
            · cases hq
            · cases hq
        obtain ⟨i, hi⟩ := hmem
        exact ht.freq_ne_zero hi hb)
      simpa [State.codeAt] using this

/-- Every code is stored from a bit string of 1 to 255 bits (R34). -/
theorem CodesOf.stored (ht : TreeOf s) (hc : CodesOf s) {b : Symbol} (hb : s.freqAt b ≠ 0) :
    ∃ q, q ≠ [] ∧ q.length ≤ 255 ∧ s.codeAt b = Code.ofBits q := by
  by_cases hk : s.nsym = 1
  · exact ⟨[false], by simp, by simp, (hc.lone ht hk hb).2⟩
  · obtain ⟨q, _, -, h1, h2, h3⟩ := hc.path ht hk hb
    exact ⟨q, h1, h2, h3⟩

theorem CodesOf.len_ne_zero_iff (ht : TreeOf s) (hc : CodesOf s) {b : Symbol} :
    (s.codeAt b).len ≠ 0 ↔ s.freqAt b ≠ 0 := by
  constructor
  · intro h hb
    rw [hc.no_code ht hb] at h
    exact h rfl
  · intro hb
    obtain ⟨q, h1, h2, h3⟩ := hc.stored ht hb
    rw [h3]
    exact Code.ofBits_len_ne_zero h2 h1

end Sys2Proof.Safety
end

