-- ==== Sys2Proof/Laws/Decode.lean ====
section
/-! SUPPORT. The fields of an assembled word, and a word from its fields (30_encoding.md R100). -/

namespace Sys2Proof

variable (op : Byte) (sym : Symbol) (data : BitVec 32)

@[simp] theorem opField_assemble : opField (assemble op sym data) = op := by
  ext i hi
  simp [opField, assemble]
  grind

@[simp] theorem symField_assemble : symField (assemble op sym data) = sym := by
  ext i hi
  simp [symField, assemble]
  grind

@[simp] theorem zeroField_assemble : zeroField (assemble op sym data) = 0 := by
  ext i hi
  simp [zeroField, assemble]
  grind

@[simp] theorem dataField_assemble : dataField (assemble op sym data) = data := by
  ext i hi
  simp [dataField, assemble]
  grind

/-- The three bits of an operand in format SJ are the low bits of `DATA` (R101). -/
theorem chunkField_eq (w : CmdWord) : chunkField w = (dataField w).setWidth 3 := by
  ext i hi
  simp [chunkField, dataField]
  grind

theorem chunkZeroField_eq (w : CmdWord) : chunkZeroField w = (dataField w).extractLsb' 3 29 := by
  ext i hi
  simp [chunkZeroField, dataField]

theorem setWidth_chunk (j : BitVec 3) : ((j.setWidth 32).setWidth 3 : BitVec 3) = j := by
  ext i hi
  simp

theorem chunk_high_zero (j : BitVec 3) : (j.setWidth 32).extractLsb' 3 29 = 0 := by
  ext i hi
  simp

/-- A word is made of its fields (R100). -/
theorem assemble_fields {w : CmdWord} (h : zeroField w = 0) : assemble (opField w) (symField w) (dataField w) = w := by
  have hz : ∀ i, i < 16 → w.getLsbD (32 + i) = false := fun i hi => by
    have := congrArg (fun x => x.getLsbD i) h
    simpa [zeroField, hi] using this
  ext i hi
  have := hz (i - 32)
  simp [assemble, opField, symField, dataField]
  grind

/-- Format SJ leaves `DATA` with the operand alone (R101). -/
theorem dataField_of_chunk {w : CmdWord} (h : chunkZeroField w = 0) : dataField w = (chunkField w).setWidth 32 := by
  have hz : ∀ i, i < 29 → w.getLsbD (3 + i) = false := fun i hi => by
    have := congrArg (fun x => x.getLsbD i) h
    simpa [chunkZeroField, hi] using this
  ext i hi
  have := hz (i - 3)
  simp [dataField, chunkField]
  grind

end Sys2Proof
end

