-- ==== Sys2Proof/Laws/Streams.lean ====
section
/-! SUPPORT. The three stream loops, run over a part of their stream: counting (R130), encoding (R190) and
decoding (R210). Each lemma runs the loop over the part and leaves the loop over the rest. -/

namespace Sys2Proof.Machine

open Sys2Proof.Safety

variable {s : State}

theorem getElem?_of_drop {α : Type} {l m : List α} {n : Nat} {a : α} (h : l.drop n = a :: m) : l[n]? = some a := by
  have := congrArg (·[0]?) h
  simpa using this

theorem drop_succ_of_drop {α : Type} {l m : List α} {n : Nat} {a : α} (h : l.drop n = a :: m) :
    l.drop (n + 1) = m := by
  rw [← List.drop_drop, h]; rfl

theorem remaining_eq_length (x : ByteSource) : x.remaining = (x.data.drop x.pos).length := by
  simp [ByteSource.remaining]

theorem bits_remaining_eq_length (x : BitSource) : x.remaining = (x.bits.drop x.pos).length := by
  simp [BitSource.remaining]

/-! ### Counting -/

/-- The counters after the bytes of `l` have been counted. -/
def countAll (f : Vector Count Config.numSymbols) (l : List Byte) : Vector Count Config.numSymbols :=
  l.foldl (fun f b => f.set b.toNat (f[b.toNat]'b.isLt + 1) b.isLt) f

theorem countAll_spec (l : List Byte) : ∀ (f : Vector Count Config.numSymbols),
    (∀ b : Byte, (f[b.toNat]'b.isLt).toNat + l.count b < 2 ^ 32) →
    ∀ b : Byte, ((countAll f l)[b.toNat]'b.isLt).toNat = (f[b.toNat]'b.isLt).toNat + l.count b := by
  induction l with
  | nil => intro f _ b; simp [countAll]
  | cons a l ih =>
    intro f hf b
    have hset : ∀ c : Byte, ((f.set a.toNat (f[a.toNat]'a.isLt + 1) a.isLt)[c.toNat]'c.isLt).toNat =
        (f[c.toNat]'c.isLt).toNat + if a = c then 1 else 0 := by
      intro c
      by_cases hac : a = c
      · subst hac
        have := hf a
        simp only [List.count_cons_self] at this
        simp only [Vector.getElem_set_self, BitVec.toNat_add, if_true]
        change _ % 2 ^ 32 = _
        rw [Nat.mod_eq_of_lt]
        · rfl
        · change _ + 1 < _
          omega
      · have : a.toNat ≠ c.toNat := fun e => hac (BitVec.eq_of_toNat_eq e)
        simp [hac, this]
    have := ih (f.set a.toNat (f[a.toNat]'a.isLt + 1) a.isLt) (fun c => by
      have h1 := hf c
      rw [hset c]
      rw [List.count_cons] at h1
      simp only [beq_iff_eq] at h1
      omega) b
    simp only [countAll, List.foldl_cons] at this ⊢
    rw [this, hset, List.count_cons]
    simp only [beq_iff_eq]
    omega

/-- One counting step below the largest count (R131). -/
theorem freqStep_of_lt {b : Byte} (h : (s.freqAt b).toNat + 1 < 2 ^ 32) :
    freqStep b s = .done (s.setFreq b (s.freqAt b + 1)) := by
  have : s.freqAt b ≠ BitVec.allOnes Config.cw := by
    intro e
    have he : (s.freqAt b).toNat = 2 ^ 32 - 1 := by rw [e]; decide
    omega
  simp [freqStep, this]

/-- `FACC`'s loop over the bytes `l` that come first. -/
theorem faccLoop_prefix (l : List Byte) : ∀ (n : Nat) (s : State) (after : List Byte),
    srcRest s = l ++ after → Succeeds l.length s →
    (∀ b, (s.freqAt b).toNat + l.count b < 2 ^ 32) →
    faccLoop (l.length + n) s = faccLoop n { s with
      freq := countAll s.freq l, src := { s.src with pos := s.src.pos + l.length }, draws := s.draws.drop l.length } := by
  induction l with
  | nil => intro n s after _ _ _; simp [countAll]
  | cons a l ih =>
    intro n s after hr hs hf
    have h1 : s.src.data.drop s.src.pos = a :: (l ++ after) := hr
    have hfa := hf a
    simp only [List.count_cons_self] at hfa
    have hlen : (a :: l).length + n = (l.length + n) + 1 := by simp only [List.length_cons]; omega
    rw [hlen]
    simp only [faccLoop]
    rw [srcRead_of_succeeds hs.nextEvent (getElem?_of_drop h1)]
    have hst : ({ s with src := { s.src with pos := s.src.pos + 1 }, draws := s.draws.tail } : State).freqAt a =
      s.freqAt a := rfl
    rw [freqStep_of_lt (by rw [hst]; omega), Body.done_andThen]
    rw [ih n _ after]
    · simp [State.setFreq, State.freqAt, countAll, Nat.add_assoc, Nat.add_comm 1]
    · exact drop_succ_of_drop h1
    · exact hs.tail rfl
    · intro b
      have hb := hf b
      rw [List.count_cons] at hb
      rw [freqAt_setFreq]
      simp only [beq_iff_eq] at hb
      by_cases hba : b = a
      · subst hba
        simp only [if_true] at hb ⊢
        rw [hst, BitVec.toNat_add]
        change (_ + 1) % 2 ^ 32 + _ < _
        rw [Nat.mod_eq_of_lt (by omega)]
        omega
      · rw [if_neg (Ne.symm hba)] at hb
        rw [if_neg hba]
        exact hb

/-! ### Encoding -/

/-- The write of a bit string over the bits `p` that come first. -/
theorem bitWrites_prefix (p q : List Bool) : ∀ (s : State), Succeeds p.length s → (p ≠ [] → s.bsnk.mode = .opened) →
    bitWrites (p ++ q) s = bitWrites q { s with
      bsnk := { s.bsnk with bits := s.bsnk.bits ++ p }, draws := s.draws.drop p.length } := by
  induction p with
  | nil => intro s _ _; simp
  | cons v p ih =>
    intro s hs hm
    simp only [List.cons_append, bitWrites]
    rw [bitWrite_of_succeeds hs.nextEvent (hm (by simp)), Body.done_andThen, ih]
    · simp
    · exact hs.tail rfl
    · exact fun _ => hm (by simp)

theorem bitWrites_ok (p : List Bool) (s : State) (hs : Succeeds p.length s) (hm : s.bsnk.mode = .opened) :
    bitWrites p s = .done { s with
      bsnk := { s.bsnk with bits := s.bsnk.bits ++ p }, draws := s.draws.drop p.length } := by
  have := bitWrites_prefix p [] s hs fun _ => hm
  rwa [List.append_nil] at this

theorem codeStream_cons (s : State) (b : Byte) (l : List Byte) :
    codeStream s (b :: l) = (s.codeAt b).string ++ codeStream s l := rfl

/-- `BENC`'s loop over the bytes `l` that come first, all of which have a code. -/
theorem bencLoop_prefix (l : List Byte) : ∀ (n : Nat) (s : State) (after : List Byte),
    srcRest s = l ++ after → Succeeds (l.length + (codeStream s l).length) s → (l ≠ [] → s.bsnk.mode = .opened) → (∀ b ∈ l, (s.codeAt b).len ≠ 0) →
    bencLoop (l.length + n) s = bencLoop n { s with
      bsnk := { s.bsnk with bits := s.bsnk.bits ++ codeStream s l }
      src := { s.src with pos := s.src.pos + l.length }
      draws := s.draws.drop (l.length + (codeStream s l).length) } := by
  induction l with
  | nil => intro n s after _ _ _ _; simp [codeStream]
  | cons a l ih =>
    intro n s after hr hs hm hc
    have h1 : s.src.data.drop s.src.pos = a :: (l ++ after) := hr
    have hlen : (a :: l).length + n = (l.length + n) + 1 := by simp only [List.length_cons]; omega
    rw [hlen]
    simp only [bencLoop]
    have hs : Succeeds (1 + ((s.codeAt a).string.length + (l.length + (codeStream s l).length))) s :=
      hs.mono (by simp only [codeStream_cons, List.length_cons, List.length_append]; omega)
    rw [srcRead_of_succeeds (hs.mono (m := 1) (by omega)).nextEvent (getElem?_of_drop h1)]
    have hca : ({ s with src := { s.src with pos := s.src.pos + 1 }, draws := s.draws.tail } : State).codeAt a =
      s.codeAt a := rfl
    simp only [encStep, hca, hc a (by simp), if_false]
    have hs1 : Succeeds ((s.codeAt a).string.length + (l.length + (codeStream s l).length))
        { s with src := { s.src with pos := s.src.pos + 1 }, draws := s.draws.tail } := by
      exact hs.of_drop (m := 1) (by simp)
    rw [bitWrites_ok _ _ (hs1.mono (by omega)) (hm (by simp)), Body.done_andThen, ih n _ after]
    · simp [codeStream, State.codeAt, Nat.add_assoc, Nat.add_comm, Nat.add_left_comm]
    · exact drop_succ_of_drop h1
    · exact hs1.of_drop rfl
    · exact fun _ => hm (by simp)
    · intro b hb; exact hc b (by simp [hb])

theorem string_ne_nil {c : Code} (h : c.len ≠ 0) : c.string ≠ [] := fun e => by
  have hl := congrArg List.length e
  simp only [Code.string, List.length_map, List.length_range, List.length_nil] at hl
  exact h (BitVec.eq_of_toNat_eq hl)

/-- `BENC`'s loop up to any of its port calls (`EncodedUpTo`): what is left is the rest `q` of the last byte's code
and the bytes not yet read. -/
theorem bencLoop_upTo {r : Nat} {w : List Bool} (h : EncodedUpTo s (srcRest s) r w)
    (hs : Succeeds (r + w.length) s) (hm : w ≠ [] → s.bsnk.mode = .opened)
    (hc : ∀ b ∈ (srcRest s).take r, (s.codeAt b).len ≠ 0) :
    ∃ q, codeStream s ((srcRest s).take r) = w ++ q ∧
      bencLoop s.src.remaining s = (bitWrites q { s with
        bsnk := { s.bsnk with bits := s.bsnk.bits ++ w }, src := { s.src with pos := s.src.pos + r }
        draws := s.draws.drop (r + w.length) }).andThen (bencLoop ((srcRest s).length - r)) := by
  obtain ⟨hr, ⟨p, hp⟩, ⟨q, hq⟩⟩ := h
  refine ⟨q, hq.symm, ?_⟩
  rw [remaining_eq_length]
  change bencLoop (srcRest s).length s = _
  cases r with
  | zero =>
    obtain ⟨rfl, rfl⟩ : w = [] ∧ q = [] := by simpa [codeStream] using hq
    simp [bitWrites]
  | succ k =>
    simp only [Nat.add_sub_cancel] at hp
    obtain ⟨b, hb⟩ : ∃ b, (srcRest s)[k]? = some b := ⟨_, List.getElem?_eq_getElem (by omega)⟩
    have htake : (srcRest s).take (k + 1) = (srcRest s).take k ++ [b] := by
      rw [List.take_add_one, hb]; rfl
    have hdrop : (srcRest s).drop k = b :: (srcRest s).drop (k + 1) := by
      rw [List.drop_eq_getElem_cons (by omega)]
      congr 1
      rw [List.getElem?_eq_getElem (by omega)] at hb
      exact Option.some.inj hb
    have hcode : (s.codeAt b).string = p ++ q := by
      have h1 : codeStream s ((srcRest s).take k ++ [b]) = codeStream s ((srcRest s).take k) ++ (s.codeAt b).string := by
        simp [codeStream]
      rw [htake, h1, ← hp, List.append_assoc] at hq
      exact (List.append_cancel_left hq).symm
    have hlk : ((srcRest s).take k).length = k := by rw [List.length_take]; omega
    have hlen : (srcRest s).length = ((srcRest s).take k).length + (((srcRest s).length - (k + 1)) + 1) := by omega
    have hw : w.length = (codeStream s ((srcRest s).take k)).length + p.length := by rw [← hp, List.length_append]
    have hs' : Succeeds ((((srcRest s).take k).length + (codeStream s ((srcRest s).take k)).length) + (1 + p.length)) s :=
      hs.mono (by omega)
    have hck : ∀ c ∈ (srcRest s).take k, (s.codeAt c).len ≠ 0 := fun c hcm => hc c (by rw [htake]; simp [hcm])
    have hne : (srcRest s).take k ≠ [] → w ≠ [] := by
      intro h0 he
      rw [he] at hp
      have hcs := (List.append_eq_nil_iff.1 hp).1
      cases hl : (srcRest s).take k with
      | nil => exact h0 hl
      | cons c l =>
        rw [hl, codeStream_cons] at hcs
        exact string_ne_nil (hck c (by rw [hl]; simp)) (List.append_eq_nil_iff.1 hcs).1
    rw [hlen, bencLoop_prefix _ _ s ((srcRest s).drop k) (List.take_append_drop k _).symm (hs'.mono (by omega))
      (fun h0 => hm (hne h0)) hck, bencLoop, hlk]
    have hs1 : Succeeds (1 + p.length) { s with
        bsnk := { s.bsnk with bits := s.bsnk.bits ++ codeStream s ((srcRest s).take k) }
        src := { s.src with pos := s.src.pos + k }
        draws := s.draws.drop (k + (codeStream s ((srcRest s).take k)).length) } := by
      rw [hlk] at hs'
      exact hs'.of_drop rfl
    have hb' : s.src.data[s.src.pos + k]? = some b := by
      rw [← hb, srcRest, List.getElem?_drop]
    rw [srcRead_of_succeeds (hs1.mono (m := 1) (by omega)).nextEvent hb']
    have hcb : (s.codeAt b).len ≠ 0 := hc b (by rw [htake]; simp)
    have henc : ∀ t : State, t.code = s.code → encStep b t = bitWrites (p ++ q) t := fun t ht => by
      have hca : t.codeAt b = s.codeAt b := by simp [State.codeAt, ht]
      rw [encStep, hca, if_neg hcb, hcode]
    rw [henc _ (by rfl), bitWrites_prefix]
    · congr 2
      · simp only [← hp, List.length_append, List.append_assoc, List.drop_tail, List.drop_drop]
        congr 2; omega
      · congr 1; omega
    · exact hs1.of_drop (m := 1) (by simp)
    · exact fun h0 => hm fun he => h0 (by rw [he] at hp; exact (List.append_eq_nil_iff.1 hp).2)

/-- `BENC`'s body up to any of its port calls: which port the call is for, and that a write or finalize of a sink
that is not OPEN is no success (R66, R190, R193). -/
theorem bencBody_next {r : Nat} {w : List Bool} (h : EncodedUpTo s (srcRest s) r w)
    (hs : Succeeds (r + w.length) s) (hm : w ≠ [] → s.bsnk.mode = .opened)
    (hc : ∀ b ∈ (srcRest s).take r, (s.codeAt b).len ≠ 0) :
    ∃ (p : Port) (act : State → Option Body) (k : State → Body),
      bencBody s = (portCall p act { s with
        bsnk := { s.bsnk with bits := s.bsnk.bits ++ w }, src := { s.src with pos := s.src.pos + r }
        draws := s.draws.drop (r + w.length) }).andThen k ∧
      ((NextIsRead s (srcRest s) r w ∧ p = .src) ∨ (¬ NextIsRead s (srcRest s) r w ∧ p = .bsnk ∧
        ∀ t : State, t.bsnk.mode ≠ .opened → act t = none)) := by
  obtain ⟨q, hq, he⟩ := bencLoop_upTo h hs hm hc
  rw [bencBody, he]
  cases q with
  | cons v q =>
    simp only [bitWrites, Body.andThen_assoc]
    refine ⟨_, _, _, rfl, .inr ⟨?_, rfl, fun t ht => by simp [ht]⟩⟩
    rintro ⟨-, hw⟩
    rw [← hw] at hq
    have := congrArg List.length hq
    simp at this
  | nil =>
    simp only [bitWrites, Body.done_andThen]
    rw [List.append_nil] at hq
    by_cases hr : r = (srcRest s).length
    · rw [hr, Nat.sub_self]
      simp only [bencLoop, Body.done_andThen]
      refine ⟨_, _, _, rfl, .inr ⟨fun h => ?_, rfl, fun t ht => by simp [ht]⟩⟩
      exact absurd h.1 (by omega)
    · obtain ⟨k, hk⟩ : ∃ k, (srcRest s).length - r = k + 1 := ⟨(srcRest s).length - r - 1, by have := h.1; omega⟩
      rw [hk]
      simp only [bencLoop]
      exact ⟨_, _, _, rfl, .inl ⟨⟨by have := h.1; omega, hq.symm⟩, rfl⟩⟩

/-! ### Decoding -/

/-- `BDEC`'s loop over a path from the pointer to a leaf, up to the write of the leaf's symbol (R211). -/
theorem bdecLoop_to_leaf (q : List Bool) : ∀ (n : Nat) (s : State) (after : List Bool) (sym : Symbol) (f : NodeFreq),
    bsrcRest s = q ++ after → Succeeds q.length s →
    (∃ g l r, s.node[s.root.toNat]? = some (.internal g l r)) → q ≠ [] →
    follow s.node q s.ptr = some (.leaf sym f) →
    ∃ p, s.node[p.toNat]? = some (.leaf sym f) ∧
      bdecLoop (q.length + n) s = (emitSymbol sym { s with
        ptr := p, bsrc := { s.bsrc with pos := s.bsrc.pos + q.length }, draws := s.draws.drop q.length }).andThen
          (bdecLoop n) := by
  induction q with
  | nil => intro n s after sym f _ _ _ h; exact absurd rfl h
  | cons v q ih =>
    intro n s after sym f hr hs hroot _ hq
    have h1 : s.bsrc.bits.drop s.bsrc.pos = v :: (q ++ after) := hr
    have hlen : (v :: q).length + n = (q.length + n) + 1 := by simp only [List.length_cons]; omega
    rw [hlen]
    simp only [bdecLoop]
    rw [bitRead_of_succeeds hs.nextEvent (getElem?_of_drop h1)]
    obtain ⟨g, l, r, hg⟩ := hroot
    have hs1 : Succeeds q.length { s with bsrc := { s.bsrc with pos := s.bsrc.pos + 1 }, draws := s.draws.tail } :=
      hs.tail rfl
    cases hx : s.node[s.ptr.toNat]? with
    | none => simp [follow, hx] at hq
    | some x =>
      cases x with
      | leaf _ _ => rw [follow_cons_leaf hx] at hq; cases hq
      | internal g' l' r' =>
        rw [follow_cons_internal hx] at hq
        have hdec : decStep v { s with bsrc := { s.bsrc with pos := s.bsrc.pos + 1 }, draws := s.draws.tail } =
            arrive { s with
              ptr := if v then r' else l', bsrc := { s.bsrc with pos := s.bsrc.pos + 1 }, draws := s.draws.tail } := by
          simp [decStep, descend, State.nodeAt?, hg, hx]
        rw [hdec]
        cases q with
        | nil =>
          simp only [follow] at hq
          refine ⟨if v then r' else l', hq, ?_⟩
          simp only [arrive, State.nodeAt?, hq]
          simp
        | cons w q =>
          have hint : ∃ g'' l'' r'', s.node[(if v then r' else l').toNat]? = some (.internal g'' l'' r'') := by
            cases hy : s.node[(if v then r' else l').toNat]? with
            | none => simp [follow, hy] at hq
            | some y =>
              cases y with
              | leaf _ _ => rw [follow_cons_leaf hy] at hq; cases hq
              | internal g'' l'' r'' => exact ⟨g'', l'', r'', rfl⟩
          obtain ⟨g'', l'', r'', hy⟩ := hint
          simp only [arrive, State.nodeAt?, hy, Body.done_andThen]
          obtain ⟨p, hp, he⟩ := ih n { s with
            ptr := if v then r' else l', bsrc := { s.bsrc with pos := s.bsrc.pos + 1 }, draws := s.draws.tail }
            after sym f (drop_succ_of_drop h1) hs1 ⟨g, l, r, hg⟩ (by simp) hq
          refine ⟨p, hp, ?_⟩
          rw [he]
          simp [Nat.add_comm, Nat.add_left_comm]

/-- The write of a symbol, where it succeeds (R211). -/
theorem emitSymbol_ok {sym : Symbol} (h : s.nextEvent = .succeeds) (hm : s.dsnk.mode = .opened) :
    emitSymbol sym s = .done { s with
      ptr := s.root, dsnk := { s.dsnk with data := s.dsnk.data ++ [sym] }, draws := s.draws.tail } := by
  rw [emitSymbol, sinkWrite_of_succeeds h hm, Body.done_andThen]

/-- `BDEC`'s loop over a path from the pointer to a leaf: the leaf's symbol is emitted (R211). -/
theorem bdecLoop_path (q : List Bool) (n : Nat) (s : State) (after : List Bool) (sym : Symbol) (f : NodeFreq)
    (hr : bsrcRest s = q ++ after) (hs : Succeeds (q.length + 1) s) (hm : s.dsnk.mode = .opened)
    (hroot : ∃ g l r, s.node[s.root.toNat]? = some (.internal g l r)) (hne : q ≠ [])
    (hq : follow s.node q s.ptr = some (.leaf sym f)) :
    bdecLoop (q.length + n) s = bdecLoop n { s with
      ptr := s.root, dsnk := { s.dsnk with data := s.dsnk.data ++ [sym] }
      bsrc := { s.bsrc with pos := s.bsrc.pos + q.length }, draws := s.draws.drop (q.length + 1) } := by
  obtain ⟨p, -, he⟩ := bdecLoop_to_leaf q n s after sym f hr (hs.mono (by omega)) hroot hne hq
  rw [he, emitSymbol_ok, Body.done_andThen]
  · simp
  · exact Succeeds.nextEvent (n := 0) (hs.of_drop rfl)
  · exact hm

/-- `BDEC`'s loop over a path from the pointer to an internal node: nothing is emitted (R213). -/
theorem bdecLoop_partial (q : List Bool) : ∀ (n : Nat) (s : State) (after : List Bool) (x : Node),
    bsrcRest s = q ++ after → Succeeds q.length s → (∃ g l r, s.node[s.root.toNat]? = some (.internal g l r)) →
    (∃ g l r, x = .internal g l r) → follow s.node q s.ptr = some x →
    ∃ p, bdecLoop (q.length + n) s = bdecLoop n { s with
        ptr := p, bsrc := { s.bsrc with pos := s.bsrc.pos + q.length }, draws := s.draws.drop q.length } ∧
      s.node[p.toNat]? = some x ∧ (q = [] → p = s.ptr) ∧ (q ≠ [] → childCount s.node p ≠ 0) := by
  induction q with
  | nil =>
    intro n s after x _ _ _ _ hq
    exact ⟨s.ptr, by simp, hq, fun _ => rfl, fun h => absurd rfl h⟩
  | cons v q ih =>
    intro n s after x hr hs hroot hint hq
    have h1 : s.bsrc.bits.drop s.bsrc.pos = v :: (q ++ after) := hr
    have hlen : (v :: q).length + n = (q.length + n) + 1 := by simp only [List.length_cons]; omega
    rw [hlen]
    simp only [bdecLoop]
    rw [bitRead_of_succeeds hs.nextEvent (getElem?_of_drop h1)]
    obtain ⟨g, l, r, hg⟩ := hroot
    have hs1 : Succeeds q.length { s with bsrc := { s.bsrc with pos := s.bsrc.pos + 1 }, draws := s.draws.tail } :=
      hs.tail rfl
    cases hx : s.node[s.ptr.toNat]? with
    | none => simp [follow, hx] at hq
    | some y =>
      cases y with
      | leaf _ _ => rw [follow_cons_leaf hx] at hq; cases hq
      | internal g' l' r' =>
        rw [follow_cons_internal hx] at hq
        have hint' : ∃ g'' l'' r'', s.node[(if v then r' else l').toNat]? = some (.internal g'' l'' r'') := by
          cases hy : s.node[(if v then r' else l').toNat]? with
          | none => cases q <;> simp [follow, hy] at hq
          | some y =>
            cases y with
            | leaf _ _ =>
              cases q with
              | nil =>
                obtain ⟨_, _, _, rfl⟩ := hint
                simp [follow, hy] at hq
              | cons w q => rw [follow_cons_leaf hy] at hq; cases hq
            | internal g'' l'' r'' => exact ⟨g'', l'', r'', rfl⟩
        obtain ⟨g'', l'', r'', hy⟩ := hint'
        have hdec : decStep v { s with bsrc := { s.bsrc with pos := s.bsrc.pos + 1 }, draws := s.draws.tail } =
            .done { s with
              ptr := if v then r' else l', bsrc := { s.bsrc with pos := s.bsrc.pos + 1 }, draws := s.draws.tail } := by
          simp [decStep, descend, arrive, State.nodeAt?, hg, hx, hy]
        rw [hdec, Body.done_andThen]
        obtain ⟨p, hp, hpx, hp0, hp1⟩ := ih n { s with
          ptr := if v then r' else l', bsrc := { s.bsrc with pos := s.bsrc.pos + 1 }, draws := s.draws.tail }
          after x (drop_succ_of_drop h1) hs1 ⟨g, l, r, hg⟩ hint hq
        refine ⟨p, ?_, hpx, fun h => by simp at h, fun _ => ?_⟩
        · rw [hp]
          simp [Nat.add_comm, Nat.add_left_comm]
        · by_cases hq0 : q = []
          · have hpe : p = if v then r' else l' := hp0 hq0
            have := childCount_pos (h := p) (List.mem_of_getElem? hx) (by cases v <;> simp_all)
            omega
          · exact hp1 hq0

/-- `BDEC`'s loop over whole codes, from the root (R211). -/
theorem bdecLoop_parts (parts : List (Symbol × List Bool)) : ∀ (n : Nat) (s : State) (after : List Bool),
    bsrcRest s = (parts.map Prod.snd).flatten ++ after →
    Succeeds ((parts.map Prod.snd).flatten.length + parts.length) s → (parts ≠ [] → s.dsnk.mode = .opened) →
    (∃ g l r, s.node[s.root.toNat]? = some (.internal g l r)) → s.ptr = s.root →
    (∀ x ∈ parts, ∃ f, follow s.node x.2 s.root = some (.leaf x.1 f)) →
    bdecLoop ((parts.map Prod.snd).flatten.length + n) s = bdecLoop n { s with
      dsnk := { s.dsnk with data := s.dsnk.data ++ parts.map Prod.fst }
      bsrc := { s.bsrc with pos := s.bsrc.pos + (parts.map Prod.snd).flatten.length }
      draws := s.draws.drop ((parts.map Prod.snd).flatten.length + parts.length) } := by
  induction parts with
  | nil => intro n s after _ _ _ _ _ _; simp
  | cons x parts ih =>
    intro n s after hr hs hm hroot hptr hx
    obtain ⟨f, hf⟩ := hx x (by simp)
    obtain ⟨g, l, r, hg⟩ := hroot
    have hne : x.2 ≠ [] := by
      intro he
      rw [he] at hf
      simp [follow, hg] at hf
    have hr' : bsrcRest s = x.2 ++ ((parts.map Prod.snd).flatten ++ after) := by
      rw [hr]; simp
    have hlen : (((x :: parts).map Prod.snd).flatten).length + n =
        x.2.length + ((parts.map Prod.snd).flatten.length + n) := by simp; omega
    have hs : Succeeds ((x.2.length + 1) + ((parts.map Prod.snd).flatten.length + parts.length)) s :=
      hs.mono (by simp only [List.map_cons, List.flatten_cons, List.length_append, List.length_cons]; omega)
    rw [hlen, bdecLoop_path x.2 _ s _ x.1 f hr' (hs.mono (by omega)) (hm (by simp)) ⟨g, l, r, hg⟩ hne (by rw [hptr]; exact hf)]
    rw [ih n _ after]
    · simp [hptr, Nat.add_assoc, Nat.add_comm, Nat.add_left_comm]
    · simp only [bsrcRest] at hr' ⊢
      rw [← List.drop_drop, hr', List.drop_left]
    · exact hs.of_drop rfl
    · exact fun _ => hm (by simp)
    · exact ⟨g, l, r, hg⟩
    · rfl
    · intro y hy; exact hx y (by simp [hy])

/-- `BDEC`'s loop on a single-leaf tree (R212). -/
theorem bdecLoop_single (w : List Bool) : ∀ (n : Nat) (s : State) (after : List Bool) (sym : Symbol) (f : NodeFreq),
    bsrcRest s = w ++ after → Succeeds (2 * w.length) s → (w ≠ [] → s.dsnk.mode = .opened) → s.ptr = s.root →
    s.node[s.root.toNat]? = some (.leaf sym f) →
    bdecLoop (w.length + n) s = bdecLoop n { s with
      dsnk := { s.dsnk with data := s.dsnk.data ++ List.replicate w.length sym }
      bsrc := { s.bsrc with pos := s.bsrc.pos + w.length }, draws := s.draws.drop (2 * w.length) } := by
  induction w with
  | nil => intro n s after sym f _ _ _ _ _; simp
  | cons v w ih =>
    intro n s after sym f hr hs hm hptr hx
    have h1 : s.bsrc.bits.drop s.bsrc.pos = v :: (w ++ after) := hr
    have hlen : (v :: w).length + n = (w.length + n) + 1 := by simp only [List.length_cons]; omega
    rw [hlen]
    simp only [bdecLoop]
    rw [bitRead_of_succeeds hs.nextEvent (getElem?_of_drop h1)]
    have hs : Succeeds (1 + (1 + 2 * w.length)) s := hs.mono (by simp only [List.length_cons]; omega)
    have hs1 : Succeeds (1 + 2 * w.length) { s with
        bsrc := { s.bsrc with pos := s.bsrc.pos + 1 }, draws := s.draws.tail } := hs.of_drop (m := 1) (by simp)
    simp only [decStep, State.nodeAt?, hx]
    rw [emitSymbol_ok (hs1.mono (m := 1) (by omega)).nextEvent (hm (by simp))]
    simp only [Body.done_andThen]
    rw [ih n _ after sym f]
    · simp [hptr, Nat.add_comm, Nat.mul_add, List.replicate_succ, Nat.add_left_comm, ← List.drop_one]
    · exact drop_succ_of_drop h1
    · exact hs1.of_drop (m := 1) (by simp [← List.drop_one])
    · exact fun _ => hm (by simp)
    · rfl
    · exact hx

theorem followed_of_append {l a b : List Bool} (h : a ++ b <+: l) : ∃ after, l = a ++ (b ++ after) := by
  obtain ⟨c, hc⟩ := h
  exact ⟨c, by rw [← hc, List.append_assoc]⟩

/-- `BDEC`'s loop from the root up to any of its port calls (`DecodedUpTo`): where the bits `x` stay inside the tree, the
bits not yet read are left; where they lead to a symbol, its write comes first. -/
theorem bdecLoop_upTo {parts : List (Symbol × List Bool)} {x : List Bool} (h : DecodedUpTo s parts x)
    (hptr : s.ptr = s.root) (hs : Succeeds (((parts.map Prod.snd).flatten ++ x).length + parts.length) s)
    (hm : parts ≠ [] → s.dsnk.mode = .opened) :
    ∃ p, ∃ u : State, u = { s with
        ptr := p, dsnk := { s.dsnk with data := s.dsnk.data ++ parts.map Prod.fst }
        bsrc := { s.bsrc with pos := s.bsrc.pos + ((parts.map Prod.snd).flatten ++ x).length }
        draws := s.draws.drop (((parts.map Prod.snd).flatten ++ x).length + parts.length) } ∧
      (x = [] → p = s.root) ∧
      (StaysInside s x → (x ≠ [] → s.nodeAt? p = follow s.node x s.root) ∧
        bdecLoop s.bsrc.remaining s = bdecLoop ((bsrcRest s).length - ((parts.map Prod.snd).flatten ++ x).length) u) ∧
      (∀ sym, Emits s sym x → (∃ f, s.nodeAt? p = some (.leaf sym f)) ∧
        bdecLoop s.bsrc.remaining s = (emitSymbol sym u).andThen
          (bdecLoop ((bsrcRest s).length - ((parts.map Prod.snd).flatten ++ x).length))) := by
  obtain ⟨hpre, hparts, hx⟩ := h
  obtain ⟨after, hr⟩ := followed_of_append hpre
  rw [bits_remaining_eq_length]
  change ∃ p, ∃ u : State, _ ∧ _ ∧ (_ → _ ∧ bdecLoop (bsrcRest s).length s = _) ∧
    (∀ sym, _ → _ ∧ bdecLoop (bsrcRest s).length s = _)
  have hlen : (bsrcRest s).length = (parts.map Prod.snd).flatten.length +
      (x.length + ((bsrcRest s).length - ((parts.map Prod.snd).flatten ++ x).length)) := by
    rw [hr]; simp only [List.length_append]; omega
  generalize (bsrcRest s).length - ((parts.map Prod.snd).flatten ++ x).length = k at hlen ⊢
  cases hn : s.node[s.root.toNat]? with
  | none =>
    have hno : ∀ sym y, ¬ Emits s sym y := by
      rintro sym y ⟨f, ⟨h1, -⟩ | ⟨h1, h2⟩⟩
      · rw [State.nodeAt?, hn] at h1; cases h1
      · cases y with
        | nil => exact h1 rfl
        | cons v y => simp [follow, hn] at h2
    have hp0 : parts = [] := by
      cases parts with
      | nil => rfl
      | cons y l => exact absurd (hparts y (by simp)) (hno _ _)
    have hx0 : x = [] := by
      rcases hx with (h1 | ⟨f, l, r, h1⟩) | ⟨sym, h1⟩
      · exact h1
      · cases x with
        | nil => rfl
        | cons v y => simp [follow, hn] at h1
      · exact absurd h1 (hno _ _)
    subst hp0 hx0
    refine ⟨s.root, _, rfl, fun _ => rfl, fun _ => ⟨fun h => absurd rfl h, ?_⟩, fun sym h1 => absurd h1 (hno _ _)⟩
    have hk : (bsrcRest s).length = k := by simpa using hlen
    rw [hk]
    refine congrArg _ ?_
    cases s
    simp_all
  | some x0 =>
    cases x0 with
    | leaf sym f =>
      have hem : ∀ sy y, Emits s sy y → sy = sym ∧ y.length = 1 := by
        rintro sy y ⟨g, ⟨h1, h2⟩ | ⟨h1, h2⟩⟩
        · rw [State.nodeAt?, hn] at h1; cases h1; exact ⟨rfl, h2⟩
        · cases y with
          | nil => exact absurd rfl h1
          | cons v y => rw [follow_cons_leaf hn] at h2; cases h2
      have hfl : ∀ l : List (Symbol × List Bool), (∀ y ∈ l, Emits s y.1 y.2) →
          (l.map Prod.snd).flatten.length = l.length ∧ l.map Prod.fst = List.replicate l.length sym := by
        intro l
        induction l with
        | nil => intro _; simp
        | cons y l ih =>
          intro hl
          obtain ⟨h1, h2⟩ := ih fun z hz => hl z (by simp [hz])
          obtain ⟨h3, h4⟩ := hem _ _ (hl y (by simp))
          simp [h1, h2, h3, h4, List.replicate_succ]
          omega
      obtain ⟨hf1, hf2⟩ := hfl parts hparts
      have hrun : ∀ n, bdecLoop ((parts.map Prod.snd).flatten.length + n) s = bdecLoop n { s with
          dsnk := { s.dsnk with data := s.dsnk.data ++ parts.map Prod.fst }
          bsrc := { s.bsrc with pos := s.bsrc.pos + (parts.map Prod.snd).flatten.length }
          draws := s.draws.drop ((parts.map Prod.snd).flatten.length + parts.length) } := fun n => by
        rw [bdecLoop_single _ n s _ sym f hr (hs.mono (by simp only [List.length_append]; omega)) (fun h0 => hm ?_) hptr hn]
        · rw [hf2, hf1, Nat.two_mul]
        · rintro rfl; exact h0 rfl
      refine ⟨s.root, _, rfl, fun _ => rfl, fun hin => ?_, fun sy he => ?_⟩
      · have hx0 : x = [] := by
          rcases hin with h1 | ⟨f, l, r, h1⟩
          · exact h1
          · cases x with
            | nil => rfl
            | cons v y => rw [follow_cons_leaf hn] at h1; cases h1
        subst hx0
        refine ⟨fun h => absurd rfl h, ?_⟩
        rw [hlen, hrun]
        simp [hptr]
      · obtain ⟨rfl, h1⟩ := hem _ _ he
        refine ⟨⟨f, hn⟩, ?_⟩
        obtain ⟨v, rfl⟩ := List.length_eq_one_iff.1 h1
        rw [hlen, hrun]
        rw [show [v].length + k = k + 1 from Nat.add_comm _ _, bdecLoop]
        rw [bitRead_of_succeeds (v := v)]
        · simp only [decStep, State.nodeAt?, hn]
          simp only [List.length_append]
          generalize (parts.map Prod.snd).flatten.length = m
          simp [hptr, Nat.add_assoc, Nat.add_comm 1]
        · refine Succeeds.nextEvent (n := 0) (Succeeds.of_drop (s := s)
            (m := (parts.map Prod.snd).flatten.length + parts.length) (hs.mono ?_) rfl)
          simp only [List.length_append, List.length_cons, List.length_nil]; omega
        · have := congrArg (·[(parts.map Prod.snd).flatten.length]?) hr
          simpa [bsrcRest] using this
    | internal g l r =>
      have hem : ∀ sy y, Emits s sy y → y ≠ [] ∧ ∃ f, follow s.node y s.root = some (.leaf sy f) := by
        rintro sy y ⟨g, ⟨h1, h2⟩ | ⟨h1, h2⟩⟩
        · rw [State.nodeAt?, hn] at h1; cases h1
        · exact ⟨h1, g, h2⟩
      have hroot : ∃ g l r, s.node[s.root.toNat]? = some (.internal g l r) := ⟨g, l, r, hn⟩
      have hrun : ∀ n, bdecLoop ((parts.map Prod.snd).flatten.length + n) s = bdecLoop n { s with
          dsnk := { s.dsnk with data := s.dsnk.data ++ parts.map Prod.fst }
          bsrc := { s.bsrc with pos := s.bsrc.pos + (parts.map Prod.snd).flatten.length }
          draws := s.draws.drop ((parts.map Prod.snd).flatten.length + parts.length) } := fun n =>
        bdecLoop_parts parts n s _ hr (hs.mono (by simp only [List.length_append]; omega)) hm hroot hptr
          fun y hy => (hem _ _ (hparts y hy)).2
      generalize hu : ({ s with
          dsnk := { s.dsnk with data := s.dsnk.data ++ parts.map Prod.fst }
          bsrc := { s.bsrc with pos := s.bsrc.pos + (parts.map Prod.snd).flatten.length }
          draws := s.draws.drop ((parts.map Prod.snd).flatten.length + parts.length) } : State) = u at hrun
      have hur : bsrcRest u = x ++ after := by
        rw [← hu, bsrcRest, ← List.drop_drop]
        change ((bsrcRest s).drop _) = _
        rw [hr, List.drop_left]
      have hus : Succeeds x.length u := Succeeds.of_drop (s := s)
        (m := (parts.map Prod.snd).flatten.length + parts.length)
        (hs.mono (by simp only [List.length_append]; omega)) (by rw [← hu])
      have hun : u.node = s.node := by rw [← hu]
      have huroot : u.root = s.root := by rw [← hu]
      have hup : u.ptr = s.root := by rw [← hu]; exact hptr
      rcases hx with hin | ⟨sym, he⟩
      · have hnode : ∃ y, follow s.node x s.root = some y ∧ ∃ g l r, y = .internal g l r := by
          rcases hin with rfl | ⟨f, l, r, h1⟩
          · exact ⟨_, hn, g, l, r, rfl⟩
          · exact ⟨_, h1, f, l, r, rfl⟩
        obtain ⟨y, hy, hyi⟩ := hnode
        obtain ⟨p, hp1, hp2, hp3, -⟩ := bdecLoop_partial x k u after y hur hus
          (by rw [hun, huroot]; exact hroot) hyi (by rw [hun, hup]; exact hy)
        refine ⟨p, _, rfl, fun h0 => by rw [hp3 h0, hup], fun _ => ⟨fun _ => ?_, ?_⟩, fun sym he => ?_⟩
        · rw [hun] at hp2
          rw [hy]; exact hp2
        · rw [hlen, hrun, hp1, ← hu]
          simp only [List.length_append]
          generalize (parts.map Prod.snd).flatten.length = m
          simp [Nat.add_assoc, Nat.add_comm, Nat.add_left_comm]
        · obtain ⟨h1, f, h2⟩ := hem _ _ he
          obtain ⟨_, _, _, rfl⟩ := hyi
          rw [h2] at hy; cases hy
      · obtain ⟨hne, f, hf⟩ := hem _ _ he
        obtain ⟨p, hp1, hp2⟩ := bdecLoop_to_leaf x k u after sym f hur hus
          (by rw [hun, huroot]; exact hroot) hne (by rw [hun, hup]; exact hf)
        refine ⟨p, _, rfl, fun h0 => absurd h0 hne, fun hin => ?_, fun sy he' => ?_⟩
        · rcases hin with h1 | ⟨f', l', r', h1⟩
          · exact absurd h1 hne
          · rw [hf] at h1; cases h1
        · obtain ⟨-, f', h2⟩ := hem _ _ he'
          rw [hf] at h2
          cases h2
          rw [hun] at hp1
          refine ⟨⟨f, hp1⟩, ?_⟩
          rw [hlen, hrun, hp2, ← hu]
          simp only [List.length_append]
          generalize (parts.map Prod.snd).flatten.length = m
          simp [Nat.add_assoc, Nat.add_comm, Nat.add_left_comm]

/-- `BDEC`'s body up to any of its port calls (R66, R210, R215). -/
theorem bdecBody_next {parts : List (Symbol × List Bool)} {x : List Bool} (h : DecodedUpTo s parts x)
    (hs : Succeeds (((parts.map Prod.snd).flatten ++ x).length + parts.length) s)
    (hm : parts ≠ [] → s.dsnk.mode = .opened) :
    ∃ (h : Handle) (p : Port) (act : State → Option Body) (k : State → Body),
      bdecBody s = (portCall p act { s with
        ptr := h, dsnk := { s.dsnk with data := s.dsnk.data ++ parts.map Prod.fst }
        bsrc := { s.bsrc with pos := s.bsrc.pos + ((parts.map Prod.snd).flatten ++ x).length }
        draws := s.draws.drop (((parts.map Prod.snd).flatten ++ x).length + parts.length) }).andThen k ∧
      (x = [] → h = s.root) ∧ (x ≠ [] → StaysInside s x → s.nodeAt? h = follow s.node x s.root) ∧
      (∀ sym, Emits s sym x → ∃ f, s.nodeAt? h = some (.leaf sym f)) ∧
      ((p = .bsrc ∧ StaysInside s x ∧ (parts.map Prod.snd).flatten ++ x ≠ bsrcRest s) ∨
       (p = .dsnk ∧ (∀ t : State, t.dsnk.mode ≠ .opened → act t = none) ∧
          ((StaysInside s x ∧ (parts.map Prod.snd).flatten ++ x = bsrcRest s) ∨ ∃ sym, Emits s sym x))) := by
  have hs0 : Succeeds (((parts.map Prod.snd).flatten ++ x).length + parts.length) { s with ptr := s.root } := hs
  obtain ⟨p, u, hu, h1, h2, h3⟩ := bdecLoop_upTo (s := { s with ptr := s.root }) h rfl hs0 hm
  have hx := h.2.2
  simp only at hu
  rw [bdecBody]
  by_cases hem : ∃ sym, Emits s sym x
  · obtain ⟨sym, hem⟩ := hem
    obtain ⟨hl, he⟩ := h3 sym hem
    change ∃ h _ _ _, (bdecLoop ({ s with ptr := s.root } : State).bsrc.remaining _).andThen _ = _ ∧ _
    rw [he, hu]
    simp only [emitSymbol, Body.andThen_assoc]
    exact ⟨p, .dsnk, _, _, rfl, h1, fun hne hin => (h2 hin).1 hne, fun sy hy => (h3 sy hy).1, .inr ⟨rfl, fun t ht => by simp [ht], .inr ⟨sym, hem⟩⟩⟩
  · have hin : StaysInside s x := hx.resolve_right hem
    obtain ⟨hn, he⟩ := h2 hin
    change ∃ h _ _ _, (bdecLoop ({ s with ptr := s.root } : State).bsrc.remaining _).andThen _ = _ ∧ _
    have hb : bsrcRest ({ s with ptr := s.root } : State) = bsrcRest s := rfl
    rw [he, hb]
    obtain ⟨after, hr⟩ := h.1
    by_cases hall : (parts.map Prod.snd).flatten ++ x = bsrcRest s
    · rw [hall, Nat.sub_self]
      simp only [bdecLoop, Body.done_andThen]
      rw [hu, hall]
      exact ⟨p, .dsnk, _, _, rfl, h1, fun hne hin => (h2 hin).1 hne, fun sy hy => (h3 sy hy).1,
        .inr ⟨rfl, fun t ht => by simp [ht], .inl ⟨hin, trivial⟩⟩⟩
    · obtain ⟨k, hk⟩ : ∃ k, (bsrcRest s).length - ((parts.map Prod.snd).flatten ++ x).length = k + 1 := by
        rw [← hr] at hall ⊢
        cases after with
        | nil => exact absurd (List.append_nil _).symm hall
        | cons v l => exact ⟨l.length, by simp only [List.length_append, List.length_cons]; omega⟩
      rw [hk, hu]
      simp only [bdecLoop]
      exact ⟨p, .bsrc, _, _, rfl, h1, fun hne hin => (h2 hin).1 hne, fun sy hy => (h3 sy hy).1, .inl ⟨rfl, hin, hall⟩⟩

end Sys2Proof.Machine

namespace Sys2Proof.Safety

open Sys2Proof.Machine

variable {node : List Node} {root : Handle} {k : Nat}

/-- From an internal node of a strict tree every bit string stays inside or starts with a path to a leaf. -/
theorem StrictTree.follow_cases (h : StrictTree node root k) (w : List Bool) : ∀ (i : Handle),
    (∃ f l r, node[i.toNat]? = some (.internal f l r)) →
    (∃ f l r, follow node w i = some (.internal f l r)) ∨
    ∃ q after sym f, w = q ++ after ∧ q ≠ [] ∧ follow node q i = some (.leaf sym f) := by
  induction w with
  | nil => intro i hi; exact .inl hi
  | cons v w ih =>
    intro i ⟨f, l, r, hi⟩
    have hk : k ≤ i.toNat := by
      by_contra hlt
      obtain ⟨sym, g, hx⟩ := h.leaves i.toNat (by omega)
      rw [hi] at hx; cases hx
    obtain ⟨f', l', r', hi', hl, hr⟩ := h.internal_of_ge hk (List.getElem?_eq_some_iff.1 hi).1
    rw [hi] at hi'
    cases hi'
    have hlt := (List.getElem?_eq_some_iff.1 hi).1
    have hc : (if v then r else l).toNat < node.length := by cases v <;> simp <;> omega
    have hy := List.getElem?_eq_getElem hc
    cases hz : node[(if v then r else l).toNat]'hc with
    | leaf sym g =>
      refine .inr ⟨[v], w, sym, g, by simp, by simp, ?_⟩
      rw [follow_cons_internal hi, follow, hy, hz]
    | internal g l' r' =>
      rcases ih _ ⟨g, l', r', by rw [hy, hz]⟩ with ⟨f2, l2, r2, h2⟩ | ⟨q, after, sym, f2, h2, h3, h4⟩
      · exact .inl ⟨f2, l2, r2, by rw [follow_cons_internal hi]; exact h2⟩
      · exact .inr ⟨v :: q, after, sym, f2, by simp [h2], by simp, by rw [follow_cons_internal hi]; exact h4⟩

/-- Every bit string is a sequence of paths to leaves and a rest that stays inside the tree (R213, R216). -/
theorem StrictTree.parse (h : StrictTree node root k) (hroot : ∃ f l r, node[root.toNat]? = some (.internal f l r)) :
    ∀ (d : Nat) (w : List Bool), w.length ≤ d →
      ∃ (parts : List (Symbol × List Bool)) (rest : List Bool),
        w = (parts.map Prod.snd).flatten ++ rest ∧
        (∀ x ∈ parts, ∃ f, follow node x.2 root = some (.leaf x.1 f)) ∧
        ∃ f l r, follow node rest root = some (.internal f l r) := by
  intro d
  induction d with
  | zero =>
    intro w hw
    obtain rfl := List.length_eq_zero_iff.1 (Nat.le_zero.1 hw)
    exact ⟨[], [], rfl, by simp, hroot⟩
  | succ d ih =>
    intro w hw
    rcases h.follow_cases w root hroot with hin | ⟨q, after, sym, f, rfl, hq, hf⟩
    · exact ⟨[], w, by simp, by simp, hin⟩
    · have := List.length_pos_iff.2 hq
      simp only [List.length_append] at hw
      obtain ⟨parts, rest, h1, h2, h3⟩ := ih after (by omega)
      refine ⟨(sym, q) :: parts, rest, by simp [h1], ?_, h3⟩
      intro x hx
      rcases List.mem_cons.1 hx with rfl | hx
      · exact ⟨f, hf⟩
      · exact h2 x hx

end Sys2Proof.Safety
end

