-- ==== Sys2Proof/Laws/Exec.lean ====
section
/-! SUPPORT. Everything a command can do: the cases of `exec`, and for each body one lemma that says which fields
its end, its fault and a cut by a reset can have changed. Later proofs cite these lemmas and unfold no meaning. -/

namespace Sys2Proof.Machine

open Sys2Proof.Safety

variable {s t : State}

/-! ### The cases of a command -/

/-- The body of a command; `CLR`, `STAT`, `FREAD` and `CREAD` answer without one. -/
def bodyOf : Instr → State → Option Body
  | .clr, _ => none
  | .rewind, s => some (srcRewind s)
  | .stat, _ => none
  | .facc, s => some (faccBody s)
  | .fload sym count, s => some (floadBody sym count s)
  | .fread _, _ => none
  | .tbuild, s => some (tbuildBody s)
  | .cgen, s => some (cgenBody s)
  | .cread _ _, _ => none
  | .benc, s => some (bencBody s)
  | .bdec, s => some (bdecBody s)
  | .encode, s => some (encodeBody s)
  | .decode, s => some (decodeBody s)

/-- What a command that reads a value answers (R133, R173). -/
def answerOf : Instr → State → Option RspValue
  | .clr, _ => none
  | .rewind, _ => none
  | .stat, _ => none
  | .facc, _ => none
  | .fload _ _, _ => none
  | .fread sym, s => some (countValue (s.freqAt sym))
  | .tbuild, _ => none
  | .cgen, _ => none
  | .cread sym j, s => some ((s.codeAt sym).value j)
  | .benc, _ => none
  | .bdec, _ => none
  | .encode, _ => none
  | .decode, _ => none

/-- Everything a command can answer (R111). -/
theorem exec_next_cases {i : Instr} (h : exec i s = .next t) :
    (i = .clr ∧ t = returnFromFault s) ∨ (i = .stat ∧ t = respond okCode s.status s) ∨
    (i ≠ .clr ∧ i ≠ .stat ∧ s.fault = true ∧ t = refuseFaulted s) ∨
    (s.fault = false ∧ s.ready i = false ∧ t = takeFault .eseq (zextInfo i.opcode) s) ∨
    (s.fault = false ∧ s.ready i = true ∧ ∃ v, answerOf i s = some v ∧ t = respond okCode v s) ∨
    (s.fault = false ∧ s.ready i = true ∧ ∃ b, bodyOf i s = some b ∧ b.finish = .next t) := by
  cases i with
  | clr => cases h; exact .inl ⟨rfl, rfl⟩
  | stat => cases h; exact .inr (.inl ⟨rfl, rfl⟩)
  | _ =>
    simp only [exec, execRewind, execFacc, execFload, execFread, execTbuild, execCgen, execCread, execBenc, execBdec,
      execEncode, execDecode] at h
    obtain ⟨hf, ht⟩ | ⟨hf, hr, ht⟩ | ⟨hf, hr, ht⟩ := dispatch_next_cases h
    · exact .inr (.inr (.inl ⟨by simp, by simp, hf, ht⟩))
    · exact .inr (.inr (.inr (.inl ⟨hf, hr, ht⟩)))
    · first
        | exact .inr (.inr (.inr (.inr (.inr ⟨hf, hr, _, rfl, ht⟩))))
        | exact .inr (.inr (.inr (.inr (.inl ⟨hf, hr, _, rfl, by cases ht; rfl⟩))))

/-- `FAULT = 1`: every command but `CLR` and `STAT` is refused (R287). -/
theorem exec_of_fault {i : Instr} (hf : s.fault = true) (h1 : i ≠ .clr) (h2 : i ≠ .stat) :
    exec i s = .next (refuseFaulted s) := by
  cases i with
  | clr => exact absurd rfl h1
  | stat => exact absurd rfl h2
  | _ =>
    simp only [exec, execRewind, execFacc, execFload, execFread, execTbuild, execCgen, execCread, execBenc, execBdec,
      execEncode, execDecode]
    exact dispatch_of_fault hf

/-- A command whose precondition does not hold (R284). -/
theorem exec_of_not_ready {i : Instr} (hf : s.fault = false) (hr : s.ready i = false) :
    exec i s = .next (takeFault .eseq (zextInfo i.opcode) s) := by
  cases i with
  | clr => cases hr
  | stat => cases hr
  | _ =>
    simp only [exec, execRewind, execFacc, execFload, execFread, execTbuild, execCgen, execCread, execBenc, execBdec,
      execEncode, execDecode]
    exact dispatch_of_not_ready hf hr

/-- A ready command with a body ends as its body does. -/
theorem exec_of_body {i : Instr} {b : Body} (hf : s.fault = false) (hr : s.ready i = true) (hb : bodyOf i s = some b) :
    exec i s = b.finish := by
  cases i <;> simp only [bodyOf, Option.some.injEq, reduceCtorEq] at hb <;> subst hb <;>
    simp only [exec, execRewind, execFacc, execFload, execTbuild, execCgen, execBenc, execBdec, execEncode,
      execDecode] <;>
    exact dispatch_of_ready hf hr

/-- A command that is ready, or that needs not be, answers unless its body is stuck. -/
theorem exec_completes {i : Instr} (h : ∀ b, bodyOf i s = some b → s.fault = false → s.ready i = true → ∃ t, b.finish = .next t) :
    ∃ t, exec i s = .next t := by
  cases i with
  | clr => exact ⟨_, rfl⟩
  | stat => exact ⟨_, rfl⟩
  | _ =>
    simp only [exec, execRewind, execFacc, execFload, execFread, execTbuild, execCgen, execCread, execBenc, execBdec,
      execEncode, execDecode, dispatch]
    split
    · exact ⟨_, rfl⟩
    · split
      · first | exact ⟨_, rfl⟩ | exact h _ rfl (by simp_all) ‹_›
      · exact ⟨_, rfl⟩

/-! ### REWIND, FLOAD, TBUILD, CGEN -/

/-- `REWIND`'s body changes the cursor only (R233). -/
theorem srcRewind_post : (srcRewind s).Post
    (fun t => t = { s with src := { s.src with pos := 0 }, draws := s.draws.tail })
    (fun t => t = s.popEvent) (fun t => t = s.popEvent ∧ ¬ NoResetStrike s) False :=
  portCall_post (fun b hb => by simp only [Option.some.injEq] at hb; subst hb; rfl) rfl
    fun h => ⟨rfl, not_noResetStrike h⟩

/-- `FLOAD`'s body writes one counter or faults with nothing written (R132, R290). -/
theorem floadBody_post {sym : Symbol} {count : BitVec 32} : (floadBody sym count s).Post
    (fun t => t = s.setFreq sym (countOperand count)) (fun t => t = s) (fun _ => False) False := by
  unfold floadBody
  split
  · exact ⟨by decide, rfl⟩
  · split
    · exact ⟨by decide, rfl⟩
    · split
      · rfl
      · exact ⟨by decide, rfl⟩

/-- `TBUILD`'s body on an empty collection: the builder's tree, or EEMPTY with `FVALID` set and no node; it is never
stuck (R150, R157). -/
theorem tbuildBody_post (hl : s.live = []) : (tbuildBody s).Post
    (fun t => TreeOf t ∧
      t = { s with node := t.node, live := t.live, nsym := t.nsym, root := t.root, fvalid := true, tvalid := true })
    (fun t => t = { s with node := [], nsym := 0, fvalid := true } ∧ ∀ b, s.freqAt b = 0) (fun _ => False) False := by
  have hk : (initLeaves s.freq).length ≤ 256 := by rw [initLeaves_length]; exact counted_length_le _
  by_cases h0 : initLeaves s.freq = []
  · have : tbuildBody s = .trap .eempty 0 (afterInitLeaves s) := by simp [tbuildBody, afterInitLeaves, h0]
    rw [this]
    refine ⟨by decide, ?_, (initLeaves_eq_nil_iff s).1 h0⟩
    simp [afterInitLeaves, h0, hl, liveLeaves]
  · have hn : (BitVec.ofNat 9 (initLeaves s.freq).length) ≠ 0 := by
      intro e
      have := congrArg BitVec.toNat e
      rw [toNat_ofNat_handle (by omega)] at this
      exact h0 (List.length_eq_zero_iff.1 this)
    obtain ⟨b, r, hb, -, -⟩ := buildTree_spec h0
    have : tbuildBody s = .done { s with
        node := b.node, live := b.live, nsym := BitVec.ofNat 9 (initLeaves s.freq).length, root := r
        fvalid := true, tvalid := true } := by
      have hn' : (afterInitLeaves s).nsym ≠ 0 := hn
      have hb' : buildTree ⟨(afterInitLeaves s).node, (afterInitLeaves s).live⟩ = some (b, r) := by
        simpa [afterInitLeaves, hl] using hb
      simp only [tbuildBody, hn', hb', if_false]
      rfl
    rw [this]
    exact ⟨⟨h0, rfl, hb⟩, rfl⟩

/-- `TBUILD`'s body on any state: what it can write (R150). -/
theorem tbuildBody_frame : (tbuildBody s).Post
    (fun t => t = { s with node := t.node, live := t.live, nsym := t.nsym, root := t.root, fvalid := true, tvalid := true })
    (fun t => t = { s with node := t.node, live := t.live, nsym := t.nsym, fvalid := true })
    (fun _ => False) True := by
  unfold tbuildBody
  simp only
  split
  · exact ⟨by decide, rfl⟩
  · split
    · rfl
    · trivial

/-- `CGEN`'s body writes the Code Map only, and is stuck only where there is no tree (R170). -/
theorem cgenBody_post : (cgenBody s).Post
    (fun t => codeTable s.node s.root s.code = some t.code ∧ t = { s with code := t.code, cvalid := true })
    (fun _ => False) (fun _ => False) (¬ TreeOf s) := by
  unfold cgenBody
  split
  · exact ⟨‹_›, rfl⟩
  · intro ht
    obtain ⟨t', h⟩ := ht.strictTree.codeTable_total s.code
    simp_all

/-! ### FACC and BENC -/

/-- What a run of `FACC`'s loop over at most `n` bytes can have changed (R130, R291). -/
def FaccFrame (n : Nat) (s t : State) : Prop :=
  ∃ f p d, t = { s with freq := f, src := { s.src with pos := p }, draws := d } ∧ d <:+ s.draws ∧
    s.src.pos ≤ p ∧ p ≤ s.src.pos + n

theorem FaccFrame.refl (n : Nat) (s : State) : FaccFrame n s s :=
  ⟨s.freq, s.src.pos, s.draws, rfl, List.suffix_rfl, le_rfl, Nat.le_add_right _ _⟩

theorem FaccFrame.trans {m n : Nat} {u : State} (h : FaccFrame m s t) (h' : FaccFrame n t u) : FaccFrame (m + n) s u := by
  obtain ⟨f, p, d, rfl, hd, h1, h2⟩ := h
  obtain ⟨f', p', d', rfl, hd', h3, h4⟩ := h'
  simp only at h3 h4 hd'
  exact ⟨f', p', d', rfl, hd'.trans hd, by omega, by omega⟩

theorem FaccFrame.suffix {n : Nat} (h : FaccFrame n s t) : t.draws <:+ s.draws := by
  obtain ⟨f, p, d, rfl, hd, -⟩ := h; exact hd

theorem faccFrame_popEvent (n : Nat) (s : State) : FaccFrame n s s.popEvent :=
  ⟨s.freq, s.src.pos, s.draws.tail, rfl, List.tail_suffix _, le_rfl, Nat.le_add_right _ _⟩

theorem freqStep_post (b : Byte) (s : State) : (freqStep b s).Post
    (FaccFrame 0 s) (FaccFrame 0 s) (fun _ => False) False := by
  unfold freqStep
  split
  · exact ⟨by decide, FaccFrame.refl 0 s⟩
  · exact ⟨_, _, _, rfl, List.suffix_rfl, le_rfl, le_rfl⟩

theorem faccLoop_post : ∀ (n : Nat) (s : State), (faccLoop n s).Post
    (fun t => FaccFrame n s t ∧ t.src.pos = s.src.pos + n) (FaccFrame n s)
    (fun t => FaccFrame n s t ∧ ¬ NoResetStrike s) False := by
  intro n
  induction n with
  | zero => intro s; exact ⟨FaccFrame.refl 0 s, rfl⟩
  | succ n ih =>
    intro s
    rw [faccLoop, srcRead]
    refine portCall_post (fun b hb => ?_) (faccFrame_popEvent _ s) fun h => ⟨faccFrame_popEvent _ s, not_noResetStrike h⟩
    obtain ⟨a, -, rfl⟩ := Option.map_eq_some_iff.1 hb
    have h1 : FaccFrame 1 s { s.popEvent with src := { s.popEvent.src with pos := s.popEvent.src.pos + 1 } } :=
      ⟨s.freq, s.src.pos + 1, s.draws.tail, rfl, List.tail_suffix _, Nat.le_succ _, le_rfl⟩
    have hadd : ∀ {u : State}, FaccFrame (1 + 0 + n) s u → FaccFrame (n + 1) s u := fun h => by
      rwa [show 1 + 0 + n = n + 1 by omega] at h
    refine Body.Post.andThen ((freqStep_post a _).mono (fun u hu => hu)
      (fun u hu => hadd ((h1.trans hu).trans (FaccFrame.refl n u))) (fun _ hu => hu.elim) id) fun u hu => ?_
    have h2 := h1.trans hu
    have hpos : u.src.pos = s.src.pos + 1 := by
      obtain ⟨_, _, _, rfl, -, h3, h4⟩ := hu
      simp only [State.popEvent] at h3 h4 ⊢
      omega
    refine (ih u).mono (fun t ht => ⟨hadd (h2.trans ht.1), ?_⟩) (fun t ht => hadd (h2.trans ht))
      (fun t ht => ⟨hadd (h2.trans ht.1), not_noResetStrike_of_suffix ht.2 h2.suffix⟩) id
    rw [ht.2, hpos]
    omega

/-- `FACC`'s body (R130). -/
theorem faccBody_post : (faccBody s).Post
    (fun t => ∃ u, FaccFrame s.src.remaining s u ∧ t = { u with fvalid := true } ∧
      t.src.pos = s.src.pos + s.src.remaining)
    (FaccFrame s.src.remaining s) (fun t => FaccFrame s.src.remaining s t ∧ ¬ NoResetStrike s) False :=
  (faccLoop_post _ s).andThen fun t ht => ⟨t, ht.1, rfl, ht.2⟩

/-- What a run of `BENC`'s loop over at most `n` bytes can have changed (R190, R291). -/
def BencFrame (n : Nat) (s t : State) : Prop :=
  ∃ w p d, t = { s with bsnk := { s.bsnk with bits := s.bsnk.bits ++ w }, src := { s.src with pos := p }, draws := d } ∧
    d <:+ s.draws ∧ s.src.pos ≤ p ∧ p ≤ s.src.pos + n

theorem BencFrame.refl (n : Nat) (s : State) : BencFrame n s s :=
  ⟨[], s.src.pos, s.draws, by simp, List.suffix_rfl, le_rfl, Nat.le_add_right _ _⟩

theorem BencFrame.trans {m n : Nat} {u : State} (h : BencFrame m s t) (h' : BencFrame n t u) : BencFrame (m + n) s u := by
  obtain ⟨f, p, d, rfl, hd, h1, h2⟩ := h
  obtain ⟨f', p', d', rfl, hd', h3, h4⟩ := h'
  simp only at h3 h4 hd'
  exact ⟨f ++ f', p', d', by simp, hd'.trans hd, by omega, by omega⟩

theorem BencFrame.suffix {n : Nat} (h : BencFrame n s t) : t.draws <:+ s.draws := by
  obtain ⟨f, p, d, rfl, hd, -⟩ := h; exact hd

theorem bencFrame_popEvent (n : Nat) (s : State) : BencFrame n s s.popEvent :=
  ⟨[], s.src.pos, s.draws.tail, by simp [State.popEvent], List.tail_suffix _, le_rfl, Nat.le_add_right _ _⟩

theorem bitWrites_post : ∀ (p : List Bool) (s : State), (bitWrites p s).Post
    (BencFrame 0 s) (BencFrame 0 s) (fun t => BencFrame 0 s t ∧ ¬ NoResetStrike s) False := by
  intro p
  induction p with
  | nil => intro s; exact BencFrame.refl 0 s
  | cons v p ih =>
    intro s
    have h1 : (bitWrite v s).Post (BencFrame 0 s) (BencFrame 0 s) (fun t => BencFrame 0 s t ∧ ¬ NoResetStrike s) False := by
      refine portCall_post (fun b hb => ?_) (bencFrame_popEvent _ s) fun h => ⟨bencFrame_popEvent _ s, not_noResetStrike h⟩
      split at hb
      · cases hb
        exact ⟨[v], s.src.pos, s.draws.tail, rfl, List.tail_suffix _, le_rfl, le_rfl⟩
      · cases hb
    exact h1.andThen fun t ht => (ih t).mono (fun u hu => ht.trans hu) (fun u hu => ht.trans hu)
      (fun u hu => ⟨ht.trans hu.1, not_noResetStrike_of_suffix hu.2 ht.suffix⟩) id

theorem encStep_post (b : Byte) (s : State) : (encStep b s).Post
    (BencFrame 0 s) (BencFrame 0 s) (fun t => BencFrame 0 s t ∧ ¬ NoResetStrike s) False := by
  unfold encStep
  split
  · exact ⟨by decide, BencFrame.refl 0 s⟩
  · exact bitWrites_post _ s

theorem bencLoop_post : ∀ (n : Nat) (s : State), (bencLoop n s).Post
    (fun t => BencFrame n s t ∧ t.src.pos = s.src.pos + n) (BencFrame n s)
    (fun t => BencFrame n s t ∧ ¬ NoResetStrike s) False := by
  intro n
  induction n with
  | zero => intro s; exact ⟨BencFrame.refl 0 s, rfl⟩
  | succ n ih =>
    intro s
    rw [bencLoop, srcRead]
    refine portCall_post (fun b hb => ?_) (bencFrame_popEvent _ s) fun h => ⟨bencFrame_popEvent _ s, not_noResetStrike h⟩
    obtain ⟨a, -, rfl⟩ := Option.map_eq_some_iff.1 hb
    have h1 : BencFrame 1 s { s.popEvent with src := { s.popEvent.src with pos := s.popEvent.src.pos + 1 } } :=
      ⟨[], s.src.pos + 1, s.draws.tail, by simp [State.popEvent], List.tail_suffix _, Nat.le_succ _, le_rfl⟩
    have hadd : ∀ {u : State}, BencFrame (1 + 0 + n) s u → BencFrame (n + 1) s u := fun h => by
      rwa [show 1 + 0 + n = n + 1 by omega] at h
    refine Body.Post.andThen ((encStep_post a _).mono (D' := fun u => BencFrame 0 { s.popEvent with
        src := { s.popEvent.src with pos := s.popEvent.src.pos + 1 } } u) (fun u hu => hu)
      (fun u hu => hadd ((h1.trans hu).trans (BencFrame.refl n u)))
      (fun u hu => ⟨hadd ((h1.trans hu.1).trans (BencFrame.refl n u)), not_noResetStrike_of_suffix hu.2 h1.suffix⟩) id)
      fun u hu => ?_
    have h2 := h1.trans hu
    have hpos : u.src.pos = s.src.pos + 1 := by
      obtain ⟨_, _, _, rfl, -, h3, h4⟩ := hu
      simp only [State.popEvent] at h3 h4 ⊢
      omega
    refine (ih u).mono (fun t ht => ⟨hadd (h2.trans ht.1), ?_⟩) (fun t ht => hadd (h2.trans ht))
      (fun t ht => ⟨hadd (h2.trans ht.1), not_noResetStrike_of_suffix ht.2 h2.suffix⟩) id
    rw [ht.2, hpos]
    omega

/-- `BENC`'s body: its sink becomes FINAL only at its end (R190, R193). -/
theorem bencBody_post : (bencBody s).Post
    (fun t => ∃ u, BencFrame s.src.remaining s u ∧ u.src.pos = s.src.pos + s.src.remaining ∧ s.bsnk.mode = .opened ∧
      t = { u with
        bsnk := { u.bsnk with mode := .finalized, flushed := pack Config.bitOrder Config.padBit u.bsnk.bits }
        draws := u.draws.tail, edone := true })
    (BencFrame s.src.remaining s) (fun t => BencFrame s.src.remaining s t ∧ ¬ NoResetStrike s) False := by
  refine (bencLoop_post _ s).andThen fun u hu => ?_
  have hpop : BencFrame s.src.remaining s u.popEvent := hu.1.trans (n := 0) (bencFrame_popEvent 0 u)
  refine Body.Post.andThen (D := fun t => s.bsnk.mode = .opened ∧ t = { u with
      bsnk := { u.bsnk with mode := .finalized, flushed := pack Config.bitOrder Config.padBit u.bsnk.bits }
      draws := u.draws.tail })
    (portCall_post (fun b hb => ?_) hpop fun h => ⟨hpop, not_noResetStrike_of_suffix (not_noResetStrike h) hu.1.suffix⟩)
    fun t ht => ⟨u, hu.1, hu.2, ht.1, by rw [ht.2]⟩
  split at hb
  · rename_i hm
    cases hb
    obtain ⟨_, _, _, rfl, -⟩ := hu.1
    exact ⟨hm, rfl⟩
  · cases hb

/-! ### BDEC -/

/-- What a run of `BDEC`'s loop over at most `n` bits can have changed (R210, R291). -/
def BdecFrame (n : Nat) (s t : State) : Prop :=
  ∃ q w p d, t = { s with
      ptr := q, dsnk := { s.dsnk with data := s.dsnk.data ++ w }, bsrc := { s.bsrc with pos := p }, draws := d } ∧
    d <:+ s.draws ∧ s.bsrc.pos ≤ p ∧ p ≤ s.bsrc.pos + n

theorem BdecFrame.refl (n : Nat) (s : State) : BdecFrame n s s :=
  ⟨s.ptr, [], s.bsrc.pos, s.draws, by simp, List.suffix_rfl, le_rfl, Nat.le_add_right _ _⟩

theorem BdecFrame.trans {m n : Nat} {u : State} (h : BdecFrame m s t) (h' : BdecFrame n t u) : BdecFrame (m + n) s u := by
  obtain ⟨q, f, p, d, rfl, hd, h1, h2⟩ := h
  obtain ⟨q', f', p', d', rfl, hd', h3, h4⟩ := h'
  simp only at h3 h4 hd'
  exact ⟨q', f ++ f', p', d', by simp, hd'.trans hd, by omega, by omega⟩

theorem BdecFrame.suffix {n : Nat} (h : BdecFrame n s t) : t.draws <:+ s.draws := by
  obtain ⟨q, f, p, d, rfl, hd, -⟩ := h; exact hd

theorem bdecFrame_popEvent (n : Nat) (s : State) : BdecFrame n s s.popEvent :=
  ⟨s.ptr, [], s.bsrc.pos, s.draws.tail, by simp [State.popEvent], List.tail_suffix _, le_rfl, Nat.le_add_right _ _⟩

/-- Where the decoder's pointer stands between two bits (R211, R213): at the root, or at an internal node. -/
def PtrInside (s : State) : Prop := s.ptr = s.root ∨ ∃ f l r, s.nodeAt? s.ptr = some (.internal f l r)

theorem emitSymbol_post (sym : Symbol) (s : State) : (emitSymbol sym s).Post
    (fun t => BdecFrame 0 s t ∧ PtrInside t) (BdecFrame 0 s) (fun t => BdecFrame 0 s t ∧ ¬ NoResetStrike s) False := by
  refine Body.Post.andThen (D := BdecFrame 0 s) (portCall_post (fun b hb => ?_) (bdecFrame_popEvent _ s)
    fun h => ⟨bdecFrame_popEvent _ s, not_noResetStrike h⟩) fun t ht => ⟨ht.trans (n := 0) ?_, .inl rfl⟩
  · split at hb
    · cases hb
      exact ⟨s.ptr, [sym], s.bsrc.pos, s.draws.tail, rfl, List.tail_suffix _, le_rfl, le_rfl⟩
    · cases hb
  · exact ⟨t.root, [], t.bsrc.pos, t.draws, by simp, List.suffix_rfl, le_rfl, le_rfl⟩

/-- One decode step (R211): it is stuck only where there is no tree. -/
theorem decStep_post (v : Bool) (hp : PtrInside s) : (decStep v s).Post
    (fun t => BdecFrame 0 s t ∧ PtrInside t) (BdecFrame 0 s) (fun t => BdecFrame 0 s t ∧ ¬ NoResetStrike s)
    (¬ ∃ k, StrictTree s.node s.root k) := by
  unfold decStep
  split
  · rename_i hx
    rintro ⟨k, hk⟩
    have := hk.root_lt
    simp only [State.nodeAt?, List.getElem?_eq_none_iff] at hx
    omega
  · exact (emitSymbol_post _ s).mono (fun _ h => h) (fun _ h => h) (fun _ h => h) False.elim
  · rename_i f l r hx
    obtain ⟨f', l', r', hy⟩ : ∃ f l r, s.nodeAt? s.ptr = some (.internal f l r) := by
      rcases hp with hp | hp
      · exact ⟨f, l, r, by rw [hp, hx]⟩
      · exact hp
    simp only [descend, hy]
    have h1 : BdecFrame 0 s { s with ptr := if v then r' else l' } :=
      ⟨if v then r' else l', [], s.bsrc.pos, s.draws, by simp, List.suffix_rfl, le_rfl, le_rfl⟩
    unfold arrive
    split
    · rename_i hz
      rintro ⟨k, hk⟩
      have hlt := (List.getElem?_eq_some_iff.1 hy).1
      have hge : k ≤ s.ptr.toNat := by
        by_contra hc
        obtain ⟨_, _, he⟩ := hk.leaves s.ptr.toNat (by omega)
        rw [State.nodeAt?, he] at hy
        cases hy
      obtain ⟨_, _, _, he, hl, hr⟩ := hk.internal_of_ge hge hlt
      rw [State.nodeAt?, he] at hy
      cases hy
      simp only [State.nodeAt?, List.getElem?_eq_none_iff] at hz
      cases v <;> simp at hz <;> omega
    · exact (emitSymbol_post _ _).mono (fun t h => ⟨h1.trans h.1, h.2⟩) (fun t h => h1.trans h)
        (fun t h => ⟨h1.trans h.1, not_noResetStrike_of_suffix h.2 h1.suffix⟩) False.elim
    · exact ⟨h1, .inr ⟨_, _, _, ‹_›⟩⟩

theorem bdecLoop_post : ∀ (n : Nat) (s : State), PtrInside s → (bdecLoop n s).Post
    (fun t => BdecFrame n s t ∧ t.bsrc.pos = s.bsrc.pos + n ∧ PtrInside t) (BdecFrame n s)
    (fun t => BdecFrame n s t ∧ ¬ NoResetStrike s) (¬ ∃ k, StrictTree s.node s.root k) := by
  intro n
  induction n with
  | zero => intro s hp; exact ⟨BdecFrame.refl 0 s, rfl, hp⟩
  | succ n ih =>
    intro s hp
    rw [bdecLoop, bitRead]
    refine portCall_post (fun b hb => ?_) (bdecFrame_popEvent _ s) fun h => ⟨bdecFrame_popEvent _ s, not_noResetStrike h⟩
    obtain ⟨a, -, rfl⟩ := Option.map_eq_some_iff.1 hb
    have h1 : BdecFrame 1 s { s.popEvent with bsrc := { s.popEvent.bsrc with pos := s.popEvent.bsrc.pos + 1 } } :=
      ⟨s.ptr, [], s.bsrc.pos + 1, s.draws.tail, by simp [State.popEvent], List.tail_suffix _, Nat.le_succ _, le_rfl⟩
    have hadd : ∀ {u : State}, BdecFrame (1 + 0 + n) s u → BdecFrame (n + 1) s u := fun h => by
      rwa [show 1 + 0 + n = n + 1 by omega] at h
    refine Body.Post.andThen ((decStep_post a (s := { s.popEvent with
        bsrc := { s.popEvent.bsrc with pos := s.popEvent.bsrc.pos + 1 } }) hp).mono (fun u hu => hu)
      (fun u hu => hadd ((h1.trans hu).trans (BdecFrame.refl n u)))
      (fun u hu => ⟨hadd ((h1.trans hu.1).trans (BdecFrame.refl n u)), not_noResetStrike_of_suffix hu.2 h1.suffix⟩) id)
      fun u hu => ?_
    obtain ⟨hu, hpu⟩ := hu
    have h2 := h1.trans hu
    have hpos : u.bsrc.pos = s.bsrc.pos + 1 ∧ u.node = s.node ∧ u.root = s.root := by
      obtain ⟨_, _, _, _, rfl, -, h3, h4⟩ := hu
      refine ⟨?_, rfl, rfl⟩
      simp only [State.popEvent] at h3 h4 ⊢
      omega
    refine (ih u hpu).mono (fun t ht => ⟨hadd (h2.trans ht.1), ?_, ht.2.2⟩) (fun t ht => hadd (h2.trans ht))
      (fun t ht => ⟨hadd (h2.trans ht.1), not_noResetStrike_of_suffix ht.2 h2.suffix⟩) (by rw [hpos.2.1, hpos.2.2]; exact id)
    rw [ht.2.1, hpos.1]
    omega

/-- `BDEC`'s body: its sink becomes FINAL only at its end (R210, R213, R215). -/
theorem bdecBody_post : (bdecBody s).Post
    (fun t => ∃ u, BdecFrame s.bsrc.remaining s u ∧ u.bsrc.pos = s.bsrc.pos + s.bsrc.remaining ∧ PtrInside u ∧
      s.dsnk.mode = .opened ∧
      t = { u with dsnk := { u.dsnk with mode := .finalized }, draws := u.draws.tail, ddone := true })
    (BdecFrame s.bsrc.remaining s) (fun t => BdecFrame s.bsrc.remaining s t ∧ ¬ NoResetStrike s)
    (¬ ∃ k, StrictTree s.node s.root k) := by
  have h1 : BdecFrame 0 s { s with ptr := s.root } :=
    ⟨s.root, [], s.bsrc.pos, s.draws, by simp, List.suffix_rfl, le_rfl, le_rfl⟩
  have hadd : ∀ {u : State}, BdecFrame (0 + s.bsrc.remaining) s u → BdecFrame s.bsrc.remaining s u := fun h => by
    rwa [Nat.zero_add] at h
  refine Body.Post.andThen ((bdecLoop_post s.bsrc.remaining { s with ptr := s.root } (.inl rfl)).mono (fun u hu => hu)
    (fun u hu => hadd (h1.trans hu)) (fun u hu => ⟨hadd (h1.trans hu.1), hu.2⟩) id) fun u hu => ?_
  have hf : BdecFrame s.bsrc.remaining s u := hadd (h1.trans hu.1)
  have hpop : BdecFrame s.bsrc.remaining s u.popEvent := hf.trans (n := 0) (bdecFrame_popEvent 0 u)
  refine Body.Post.andThen (D := fun t => s.dsnk.mode = .opened ∧ t = { u with
      dsnk := { u.dsnk with mode := .finalized }, draws := u.draws.tail })
    (portCall_post (fun b hb => ?_) hpop fun h => ⟨hpop, not_noResetStrike_of_suffix (not_noResetStrike h) hf.suffix⟩)
    fun t ht => ⟨u, hf, hu.2.1, hu.2.2, ht.1, by rw [ht.2]⟩
  split at hb
  · rename_i hm
    cases hb
    obtain ⟨_, _, _, _, rfl, -⟩ := hf
    exact ⟨hm, rfl⟩
  · cases hb

/-! ### ENCODE and DECODE -/

/-- What a run of `ENCODE`'s body that does not end well can have changed: the core, the source's cursor, the bits
of the sink (R230, R291). -/
def EncodeFrame (s t : State) : Prop :=
  ∃ w p d, t = { t with
      rsp := s.rsp, src := { s.src with pos := p }, bsnk := { s.bsnk with bits := s.bsnk.bits ++ w }, bsrc := s.bsrc
      dsnk := s.dsnk, draws := d, host := s.host } ∧
    d <:+ s.draws ∧ p ≤ max s.src.pos s.src.data.length

theorem EncodeFrame.suffix (h : EncodeFrame s t) : t.draws <:+ s.draws := by
  obtain ⟨w, p, d, ht, hd, -⟩ := h
  rw [ht]
  exact hd

theorem EncodeFrame.trans_facc {u : State} (h : EncodeFrame s t) (h' : FaccFrame t.src.remaining t u) :
    EncodeFrame s u := by
  obtain ⟨w, p, d, ht, hd, hp⟩ := h
  rw [ht] at h'
  obtain ⟨f', p', d', rfl, hd', h3, h4⟩ := h'
  refine ⟨w, p', d', rfl, List.IsSuffix.trans hd' hd, ?_⟩
  simp only [ByteSource.remaining] at h4
  omega

theorem EncodeFrame.trans_benc {u : State} (h : EncodeFrame s t) (h' : BencFrame t.src.remaining t u) :
    EncodeFrame s u := by
  obtain ⟨w, p, d, ht, hd, hp⟩ := h
  rw [ht] at h'
  obtain ⟨w', p', d', rfl, hd', h3, h4⟩ := h'
  refine ⟨w ++ w', p', d', by simp, List.IsSuffix.trans hd' hd, ?_⟩
  simp only [ByteSource.remaining] at h4
  omega

theorem EncodeFrame.core {u : State} (h : EncodeFrame s t)
    (hu : u = { u with
      rsp := t.rsp, src := t.src, bsnk := t.bsnk, bsrc := t.bsrc, dsnk := t.dsnk, draws := t.draws, host := t.host }) :
    EncodeFrame s u := by
  obtain ⟨w, p, d, ht, hd, hp⟩ := h
  refine ⟨w, p, d, ?_, hd, hp⟩
  rw [hu, ht]

theorem EncodeFrame.pop (h : EncodeFrame s t) : EncodeFrame s t.popEvent := by
  obtain ⟨w, p, d, ht, hd, hp⟩ := h
  refine ⟨w, p, d.tail, ?_, (List.tail_suffix d).trans hd, hp⟩
  rw [ht]
  rfl

theorem EncodeFrame.rewind (h : EncodeFrame s t) :
    EncodeFrame s { t with src := { t.src with pos := 0 }, draws := t.draws.tail } := by
  obtain ⟨w, p, d, ht, hd, hp⟩ := h
  refine ⟨w, 0, d.tail, ?_, (List.tail_suffix d).trans hd, Nat.zero_le _⟩
  rw [ht]

theorem encodeFrame_clear (s : State) : EncodeFrame s (coreClear s) :=
  ⟨[], s.src.pos, s.draws, by simp [coreClear], List.suffix_rfl, le_max_left _ _⟩

theorem encodeFrame_rewind (h : EncodeFrame s t) : (srcRewind t).Post
    (fun u => EncodeFrame s u ∧ u = { t with src := { t.src with pos := 0 }, draws := t.draws.tail }) (EncodeFrame s)
    (fun u => EncodeFrame s u ∧ ¬ NoResetStrike s) False :=
  srcRewind_post.mono (fun _ hu => ⟨hu ▸ h.rewind, hu⟩) (fun _ hu => hu ▸ h.pop)
    (fun _ hu => ⟨hu.1 ▸ h.pop, not_noResetStrike_of_suffix hu.2 h.suffix⟩) id

/-- `ENCODE`'s body is never stuck; where it ends well, the core holds the builder's tree and the generator's codes
and the sink has become FINAL (R230). -/
theorem encodeBody_post : (encodeBody s).Post
    (fun t => TreeOf t ∧ CodesOf t ∧ s.bsnk.mode = .opened ∧ ∃ w d, d <:+ s.draws ∧ t = { coreClear s with
        freq := t.freq, node := t.node, live := t.live, nsym := t.nsym, root := t.root, code := t.code
        fvalid := true, tvalid := true, cvalid := true, edone := true
        src := { s.src with pos := s.src.data.length }
        bsnk := ⟨s.bsnk.bits ++ w, .finalized, pack Config.bitOrder Config.padBit (s.bsnk.bits ++ w)⟩
        draws := d })
    (EncodeFrame s) (fun t => EncodeFrame s t ∧ ¬ NoResetStrike s) False := by
  refine (encodeFrame_rewind (encodeFrame_clear s)).andThen fun t1 ⟨h1, e1⟩ => ?_
  refine Body.Post.andThen (D := fun t => EncodeFrame s t ∧ ∃ f p d,
      t = { coreClear s with freq := f, fvalid := true, src := { s.src with pos := p }, draws := d })
    (faccBody_post.mono (fun t ⟨u, hu, ht, _⟩ => ?_) (fun t ht => h1.trans_facc ht)
      (fun t ht => ⟨h1.trans_facc ht.1, not_noResetStrike_of_suffix ht.2 h1.suffix⟩) id) fun t2 ⟨h2, e2⟩ => ?_
  · have h := h1.trans_facc hu
    refine ⟨h.core (by rw [ht]), ?_⟩
    obtain ⟨f, p, d, hu', -⟩ := hu
    exact ⟨f, p, d, by rw [ht, hu', e1]; rfl⟩
  have hl2 : t2.live = [] := by obtain ⟨f, p, d, e2⟩ := e2; rw [e2]; rfl
  refine Body.Post.andThen (D := fun t => EncodeFrame s t ∧ TreeOf t ∧ ∃ p d, t = { coreClear s with
      freq := t.freq, node := t.node, live := t.live, nsym := t.nsym, root := t.root, fvalid := true, tvalid := true
      src := { s.src with pos := p }, draws := d })
    ((tbuildBody_post hl2).mono (fun t ht => ⟨h2.core (by rw [ht.2]), ht.1, ?_⟩) (fun t ht => h2.core (by rw [ht.1]))
      (fun t ht => ht.elim) id) fun t3 ⟨h3, ht3, e3⟩ => ?_
  · obtain ⟨f, p, d, e2⟩ := e2
    refine ⟨p, d, ?_⟩
    have := ht.2
    rw [e2] at this
    rw [this]
  have hc3 : t3.code = Vector.replicate Config.numSymbols Code.none := by obtain ⟨p, d, e3⟩ := e3; rw [e3]; rfl
  refine Body.Post.andThen (D := fun t => EncodeFrame s t ∧ TreeOf t ∧ CodesOf t ∧ ∃ p d, t = { coreClear s with
      freq := t.freq, node := t.node, live := t.live, nsym := t.nsym, root := t.root, code := t.code
      fvalid := true, tvalid := true, cvalid := true, src := { s.src with pos := p }, draws := d })
    (cgenBody_post.mono (fun t ht => ⟨h3.core (by rw [ht.2]), ?_, ?_, ?_⟩) (fun t ht => ht.elim)
      (fun t ht => ht.elim) (fun h => h ht3)) fun t4 ⟨h4, ht4, hc4, e4⟩ => ?_
  · rw [ht.2]; exact ht3
  · rw [hc3] at ht
    rw [CodesOf, ht.2]
    exact ht.1
  · obtain ⟨p, d, e3⟩ := e3
    refine ⟨p, d, ?_⟩
    have := ht.2
    rw [e3] at this
    rw [this]
  refine (encodeFrame_rewind h4).andThen fun t5 ⟨h5, e5⟩ => ?_
  refine bencBody_post.mono (fun t ⟨u, hu, hpos, hm, ht⟩ => ?_) (fun t ht => h5.trans_benc ht)
    (fun t ht => ⟨h5.trans_benc ht.1, not_noResetStrike_of_suffix ht.2 h5.suffix⟩) id
  have hsuf := hu.suffix.trans h5.suffix
  obtain ⟨w, p', d', hu, -⟩ := hu
  obtain ⟨p, d, e4⟩ := e4
  have hu' := hu
  have e5' := e5
  rw [e4] at e5
  rw [e5] at hu hpos hm
  rw [hu] at hpos
  simp only [ByteSource.remaining] at hpos
  have hp' : p' = s.src.data.length := by omega
  have hut : TreeOf t ∧ CodesOf t := by rw [ht, hu', e5']; exact ⟨ht4, hc4⟩
  refine ⟨hut.1, hut.2, hm, w, d'.tail, ?_, ?_⟩
  · rw [hu] at hsuf
    exact (List.tail_suffix _).trans hsuf
  · rw [ht, hu, hp']
    rfl

/-- What a run of `DECODE`'s body that does not end well can have changed (R231, R291). -/
def DecodeFrame (s t : State) : Prop :=
  ∃ w p d, t = { s with
      node := t.node, live := t.live, nsym := t.nsym, root := t.root, ptr := t.ptr, fvalid := true, tvalid := t.tvalid
      dsnk := { s.dsnk with data := s.dsnk.data ++ w }, bsrc := { s.bsrc with pos := p }, draws := d } ∧
    d <:+ s.draws ∧ s.bsrc.pos ≤ p ∧ p ≤ s.bsrc.pos + s.bsrc.remaining

theorem decodeBody_post {S : Prop} (hS : S ∨ s.live = []) : (decodeBody s).Post
    (fun t => (s.live = [] → TreeOf t) ∧ PtrInside t ∧ s.dsnk.mode = .opened ∧ ∃ w d, d <:+ s.draws ∧ t = { s with
        node := t.node, live := t.live, nsym := t.nsym, root := t.root, ptr := t.ptr
        fvalid := true, tvalid := true, ddone := true
        dsnk := ⟨s.dsnk.data ++ w, .finalized⟩
        bsrc := { s.bsrc with pos := s.bsrc.pos + s.bsrc.remaining }, draws := d })
    (DecodeFrame s) (fun t => DecodeFrame s t ∧ ¬ NoResetStrike s) S := by
  have hb : (tbuildBody s).Post
      (fun t => (s.live = [] → TreeOf t) ∧
        t = { s with node := t.node, live := t.live, nsym := t.nsym, root := t.root, fvalid := true, tvalid := true })
      (fun t => t = { s with node := t.node, live := t.live, nsym := t.nsym, fvalid := true })
      (fun _ => False) S := by
    by_cases hl : s.live = []
    · refine (tbuildBody_post hl).mono (fun t ht => ⟨fun _ => ht.1, ht.2⟩) (fun t ht => ?_) (fun _ h => h) False.elim
      rw [ht.1]
    · exact tbuildBody_frame.mono (fun t ht => ⟨fun h => absurd h hl, ht⟩) (fun t ht => ht) (fun _ h => h)
        fun _ => hS.resolve_right hl
  refine Body.Post.andThen (hb.mono (fun t ht => ht) (fun t ht => ?_) (fun t ht => ht.elim) id) fun t ⟨hT, ht⟩ => ?_
  · rw [ht]
    exact ⟨[], s.bsrc.pos, s.draws, by simp, List.suffix_rfl, le_rfl, Nat.le_add_right _ _⟩
  have hE : ∀ u, BdecFrame t.bsrc.remaining t u → DecodeFrame s u := by
    rintro u ⟨q, w, p, d, hu, hd, h1, h2⟩
    rw [ht] at hu hd h1 h2
    exact ⟨w, p, d, by rw [hu], hd, h1, h2⟩
  have hd : t.draws = s.draws := by rw [ht]
  refine bdecBody_post.mono (fun u ⟨v, hv, hpos, hpv, hm, hu⟩ => ?_) hE
    (fun u hu => ⟨hE u hu.1, not_noResetStrike_of_suffix hu.2 (by rw [hd])⟩) (fun h => hS.resolve_right fun hl => ?_)
  · obtain ⟨q, w, p, d, hv, hd, h1, h2⟩ := hv
    have hv' := hv
    rw [ht] at hv hd hpos hm
    rw [hv] at hpos
    simp only at hpos
    refine ⟨fun hl => ?_, ?_, hm, w, d.tail, (List.tail_suffix _).trans hd, ?_⟩
    · rw [hu, hv']; exact hT hl
    · rw [hu]; exact hpv
    · rw [hu, hv, hpos]
  · exact h ⟨_, (hT hl).strictTree⟩

/-! ### The environment's answers are used up from the front -/

/-- Whatever a command does, the answers left are a final part of those it started with, and a reset cuts its body
short only where the environment has one to strike (R80, R320). -/
theorem bodyOf_suffix {i : Instr} {b : Body} (hb : bodyOf i s = some b) :
    b.Post (fun t => t.draws <:+ s.draws) (fun t => t.draws <:+ s.draws)
      (fun t => t.draws <:+ s.draws ∧ ¬ NoResetStrike s) True := by
  have hpop : s.popEvent.draws <:+ s.draws := popEvent_suffix s
  have htail : ∀ {u : State}, u.draws <:+ s.draws → u.draws.tail <:+ s.draws := fun h => (List.tail_suffix _).trans h
  cases i <;> simp only [bodyOf, Option.some.injEq, reduceCtorEq] at hb <;> subst hb
  · exact srcRewind_post.mono (by rintro u rfl; exact hpop) (by rintro u rfl; exact hpop)
      (by rintro u ⟨rfl, h⟩; exact ⟨hpop, h⟩) False.elim
  · exact faccBody_post.mono (by rintro u ⟨v, hv, rfl, -⟩; exact hv.suffix) (fun u hu => hu.suffix)
      (fun u hu => ⟨hu.1.suffix, hu.2⟩) False.elim
  · exact floadBody_post.mono (by rintro u rfl; exact List.suffix_rfl) (by rintro u rfl; exact List.suffix_rfl)
      (fun _ h => h.elim) False.elim
  · exact tbuildBody_frame.mono (fun u hu => by rw [hu]) (fun u hu => by rw [hu])
      (fun _ h => h.elim) id
  · exact cgenBody_post.mono (fun u hu => by rw [hu.2]) (fun u hu => hu.elim)
      (fun _ h => h.elim) fun _ => trivial
  · exact bencBody_post.mono (by rintro u ⟨v, hv, -, -, rfl⟩; exact htail hv.suffix) (fun u hu => hu.suffix)
      (fun u hu => ⟨hu.1.suffix, hu.2⟩) False.elim
  · exact bdecBody_post.mono (by rintro u ⟨v, hv, -, -, -, rfl⟩; exact htail hv.suffix) (fun u hu => hu.suffix)
      (fun u hu => ⟨hu.1.suffix, hu.2⟩) fun _ => trivial
  · exact encodeBody_post.mono (by rintro u ⟨-, -, -, w, d, hd, hu⟩; rw [hu]; exact hd) (fun u hu => hu.suffix)
      (fun u hu => ⟨hu.1.suffix, hu.2⟩) False.elim
  · have hdec : ∀ u, DecodeFrame s u → u.draws <:+ s.draws := by
      rintro u ⟨w, p, d, hu, hd, -⟩
      rw [hu]
      exact hd
    exact (decodeBody_post (S := True) (.inl trivial)).mono
      (by rintro u ⟨-, -, -, w, d, hd, hu⟩; rw [hu]; exact hd) hdec (fun u hu => ⟨hdec u hu.1, hu.2⟩) id

/-- Where no reset strikes during the command, its body runs to its end or to a fault whose entry runs to its end. -/
theorem finish_of_noResetStrike {i : Instr} {b : Body} (hb : bodyOf i s = some b) (hn : NoResetStrike s)
    (ht : b.finish = .next t) :
    (∃ u, b = .done u ∧ t = respond okCode 0 u) ∨ ∃ c n u, b = .trap c n u ∧ t = faulted c n u := by
  have h := bodyOf_suffix hb
  obtain ⟨u, rfl, rfl⟩ | ⟨c, n, u, rfl, rfl⟩ | ⟨u, rfl, rfl⟩ := Body.finish_eq_next.1 ht
  · exact .inl ⟨u, rfl, rfl⟩
  · exact .inr ⟨c, n, u, rfl, takeFault_eq c n ((hn.of_suffix h.2).abortsRun 0)⟩
  · exact absurd hn h.2

/-! ### No body reads `RSP` -/

/-- The state with another response word. -/
def State.setRsp (v : RspWord) (s : State) : State := { s with rsp := v }

/-- The same end with another response word. -/
def Body.setRsp (v : RspWord) : Body → Body
  | .done s => .done (s.setRsp v)
  | .trap c n s => .trap c n (s.setRsp v)
  | .cut s => .cut (s.setRsp v)
  | .stuck f => .stuck f

/-- The command answers the same (R107, R286). -/
theorem Body.finish_setRsp (v : RspWord) (b : Body) : (b.setRsp v).finish = b.finish := by
  cases b with
  | done s => rfl
  | trap c n s => rfl
  | cut s => rfl
  | stuck f => rfl

/-- `f` does not read `RSP`. -/
def IgnoresRsp (f : State → Body) : Prop := ∀ v s, f (s.setRsp v) = (f s).setRsp v

theorem IgnoresRsp.andThen {f k : State → Body} (hf : IgnoresRsp f) (hk : IgnoresRsp k) :
    IgnoresRsp fun s => (f s).andThen k := fun v s => by
  change (f (s.setRsp v)).andThen k = ((f s).andThen k).setRsp v
  rw [hf]
  cases f s with
  | done t => exact hk v t
  | trap _ _ _ => rfl
  | cut _ => rfl
  | stuck _ => rfl

theorem ignoresRsp_portCall {p : Port} {act : State → Option Body}
    (h : ∀ v s, act (s.setRsp v) = (act s).map (Body.setRsp v)) : IgnoresRsp (portCall p act) := fun v s => by
  have he : (s.setRsp v).nextEvent = s.nextEvent := rfl
  have hp : (s.setRsp v).popEvent = s.popEvent.setRsp v := rfl
  rw [portCall, portCall, he, hp]
  cases s.nextEvent with
  | fails => rfl
  | resetStrikes => rfl
  | succeeds =>
    simp only [h]
    cases act s.popEvent <;> rfl

theorem ignoresRsp_srcRead {k : Byte → State → Body} (h : ∀ b, IgnoresRsp (k b)) : IgnoresRsp (srcRead k) :=
  ignoresRsp_portCall fun v s => by
    simp only [State.setRsp, Option.map_map]
    exact congrArg (Option.map · _) (funext fun b => h b v { s with src := { s.src with pos := s.src.pos + 1 } })

theorem ignoresRsp_bitRead {k : Bool → State → Body} (h : ∀ b, IgnoresRsp (k b)) : IgnoresRsp (bitRead k) :=
  ignoresRsp_portCall fun v s => by
    simp only [State.setRsp, Option.map_map]
    exact congrArg (Option.map · _) (funext fun b => h b v { s with bsrc := { s.bsrc with pos := s.bsrc.pos + 1 } })

theorem ignoresRsp_srcRewind : IgnoresRsp srcRewind := ignoresRsp_portCall fun _ _ => rfl

theorem ignoresRsp_bitWrite (b : Bool) : IgnoresRsp (bitWrite b) := ignoresRsp_portCall fun v s => by
  by_cases h : s.bsnk.mode = .opened <;> simp [State.setRsp, Body.setRsp, h]

theorem ignoresRsp_bitFinalize : IgnoresRsp bitFinalize := ignoresRsp_portCall fun v s => by
  by_cases h : s.bsnk.mode = .opened <;> simp [State.setRsp, Body.setRsp, h]

theorem ignoresRsp_sinkWrite (b : Byte) : IgnoresRsp (sinkWrite b) := ignoresRsp_portCall fun v s => by
  by_cases h : s.dsnk.mode = .opened <;> simp [State.setRsp, Body.setRsp, h]

theorem ignoresRsp_sinkFinalize : IgnoresRsp sinkFinalize := ignoresRsp_portCall fun v s => by
  by_cases h : s.dsnk.mode = .opened <;> simp [State.setRsp, Body.setRsp, h]

theorem ignoresRsp_faccBody : IgnoresRsp faccBody := by
  have hstep : ∀ b, IgnoresRsp (freqStep b) := fun b v s => by
    by_cases h : s.freqAt b = BitVec.allOnes Config.cw
    · have h' : (s.setRsp v).freqAt b = BitVec.allOnes Config.cw := h
      simp only [freqStep, h, h', if_true]
      rfl
    · have h' : ¬ (s.setRsp v).freqAt b = BitVec.allOnes Config.cw := h
      simp only [freqStep, h, h', if_false]
      rfl
  have hloop : ∀ n, IgnoresRsp (faccLoop n) := fun n => by
    induction n with
    | zero => exact fun _ _ => rfl
    | succ n ih => exact ignoresRsp_srcRead fun b => (hstep b).andThen ih
  exact fun v s => (hloop s.src.remaining).andThen (k := fun t => .done { t with fvalid := true }) (fun _ _ => rfl) v s

theorem ignoresRsp_bencBody : IgnoresRsp bencBody := by
  have hbits : ∀ p, IgnoresRsp (bitWrites p) := fun p => by
    induction p with
    | nil => exact fun _ _ => rfl
    | cons b p ih => exact (ignoresRsp_bitWrite b).andThen ih
  have hstep : ∀ b, IgnoresRsp (encStep b) := fun b v s => by
    have h' : (s.setRsp v).codeAt b = s.codeAt b := rfl
    simp only [encStep, h']
    split
    · rfl
    · exact hbits _ v s
  have hloop : ∀ n, IgnoresRsp (bencLoop n) := fun n => by
    induction n with
    | zero => exact fun _ _ => rfl
    | succ n ih => exact ignoresRsp_srcRead fun b => (hstep b).andThen ih
  exact fun v s => (hloop s.src.remaining).andThen (ignoresRsp_bitFinalize.andThen
    (k := fun t => .done { t with edone := true }) fun _ _ => rfl) v s

theorem ignoresRsp_bdecBody : IgnoresRsp bdecBody := by
  have hemit : ∀ sym, IgnoresRsp (emitSymbol sym) := fun sym =>
    (ignoresRsp_sinkWrite sym).andThen (k := fun t => .done { t with ptr := t.root }) fun _ _ => rfl
  have harrive : IgnoresRsp arrive := fun v s => by
    have h : (s.setRsp v).nodeAt? (s.setRsp v).ptr = s.nodeAt? s.ptr := rfl
    rw [arrive, arrive, h]
    cases s.nodeAt? s.ptr with
    | none => rfl
    | some x => cases x with
      | leaf sym f => exact hemit sym v s
      | internal _ _ _ => rfl
  have hdesc : ∀ b, IgnoresRsp (descend b) := fun b v s => by
    have h : (s.setRsp v).nodeAt? (s.setRsp v).ptr = s.nodeAt? s.ptr := rfl
    rw [descend, descend, h]
    cases s.nodeAt? s.ptr with
    | none => rfl
    | some x => cases x with
      | leaf sym f => rfl
      | internal _ l r => exact harrive v { s with ptr := if b then r else l }
  have hstep : ∀ b, IgnoresRsp (decStep b) := fun b v s => by
    have h : (s.setRsp v).nodeAt? (s.setRsp v).root = s.nodeAt? s.root := rfl
    rw [decStep, decStep, h]
    cases s.nodeAt? s.root with
    | none => rfl
    | some x => cases x with
      | leaf sym f => exact hemit sym v s
      | internal _ _ _ => exact hdesc b v s
  have hloop : ∀ n, IgnoresRsp (bdecLoop n) := fun n => by
    induction n with
    | zero => exact fun _ _ => rfl
    | succ n ih => exact ignoresRsp_bitRead fun b => (hstep b).andThen ih
  exact fun v s => (hloop s.bsrc.remaining).andThen (ignoresRsp_sinkFinalize.andThen
    (k := fun t => .done { t with ddone := true }) fun _ _ => rfl) v { s with ptr := s.root }

theorem ignoresRsp_tbuildBody : IgnoresRsp tbuildBody := fun v s => by
  have h : afterInitLeaves (s.setRsp v) = (afterInitLeaves s).setRsp v := rfl
  simp only [tbuildBody, h]
  have h1 : ((afterInitLeaves s).setRsp v).nsym = (afterInitLeaves s).nsym := rfl
  have h2 : ((afterInitLeaves s).setRsp v).node = (afterInitLeaves s).node := rfl
  have h3 : ((afterInitLeaves s).setRsp v).live = (afterInitLeaves s).live := rfl
  rw [h1, h2, h3]
  split
  · rfl
  · cases buildTree ⟨(afterInitLeaves s).node, (afterInitLeaves s).live⟩ <;> rfl

theorem ignoresRsp_cgenBody : IgnoresRsp cgenBody := fun v s => by
  have h : codeTable (s.setRsp v).node (s.setRsp v).root (s.setRsp v).code = codeTable s.node s.root s.code := rfl
  rw [cgenBody, cgenBody, h]
  cases codeTable s.node s.root s.code <;> rfl

/-- A command that decodes on the tree of `t` ends as `BDEC`'s body does on `t`, and `t` has the streams and the
environment it starts with (R210, R231). -/
theorem decodesOn_exec {i : Instr} (h : DecodesOn i s t) :
    exec i s = (bdecBody t).finish ∧ t.src = s.src ∧ t.bsrc = s.bsrc ∧ t.bsnk = s.bsnk ∧
      t.dsnk = s.dsnk ∧ t.draws = s.draws ∧ t.host = s.host := by
  obtain ⟨hf, hd, ht, ⟨rfl, rfl⟩ | ⟨rfl, htv, he⟩⟩ := h
  · rw [exec_of_body (b := bdecBody t) hf (by simp [State.ready, ht, hd]) rfl]
    simp
  · rw [exec_of_body (b := tbuildBody s) hf (by simp [State.ready, htv]) rfl] at he
    rw [exec_of_body (b := decodeBody s) hf (by simp [State.ready, htv, hd]) rfl]
    have hp := tbuildBody_frame (s := s)
    rw [decodeBody]
    cases hb : tbuildBody s with
    | done u =>
      rw [hb] at hp he
      simp only [Body.finish_done] at he
      cases he
      have hu : u = { s with node := u.node, live := u.live, nsym := u.nsym, root := u.root, fvalid := true, tvalid := true } := hp
      refine ⟨?_, by rw [hu]; rfl, by rw [hu]; rfl, by rw [hu]; rfl, by rw [hu]; rfl, by rw [hu]; rfl, by rw [hu]; rfl⟩
      rw [Body.done_andThen]
      exact (Body.finish_setRsp _ _).symm.trans (congrArg Body.finish (ignoresRsp_bdecBody _ _).symm)
    | trap c n u => 
      rw [hb] at hp he
      have hu : u = { s with node := u.node, live := u.live, nsym := u.nsym, fvalid := true } := hp.2
      simp only [Body.finish_trap] at he
      cases he
      rcases takeFault_cases c n u with h | ⟨-, h⟩ | ⟨-, h⟩ <;> rw [h] at ht <;> simp at ht
      rw [hu] at ht
      simp [htv] at ht
    | cut u => rw [hb] at hp; exact hp.elim
    | stuck f => rw [hb] at he; cases he

end Sys2Proof.Machine
end

