-- ==== Sys2Proof/Laws/PerInstr.lean ====
section
/-! SUPPORT. The family `EncodedFields`: the word of every command carries its opcode in `OP`, zeros in `ZERO`, and the
command's operands in `SYM` and `DATA`, with zeros where its format has no operand (30_encoding.md R100, R101). -/

namespace Sys2Proof.Laws.EncodedFields

open Sys2Proof

/-- The `SYM` field of a command (R101). -/
def symOf : Instr → Symbol
  | .fload sym _ => sym
  | .fread sym => sym
  | .cread sym _ => sym
  | .clr => 0
  | .rewind => 0
  | .stat => 0
  | .facc => 0
  | .tbuild => 0
  | .cgen => 0
  | .benc => 0
  | .bdec => 0
  | .encode => 0
  | .decode => 0

/-- The `DATA` field of a command (R101). -/
def dataOf : Instr → BitVec 32
  | .fload _ count => count
  | .fread _ => 0
  | .cread _ j => j.setWidth 32
  | .clr => 0
  | .rewind => 0
  | .stat => 0
  | .facc => 0
  | .tbuild => 0
  | .cgen => 0
  | .benc => 0
  | .bdec => 0
  | .encode => 0
  | .decode => 0

/-- The fields of the command's word. -/
def Statement (i : Instr) : Prop :=
  opField (encode i) = i.opcode ∧ symField (encode i) = symOf i ∧ zeroField (encode i) = 0 ∧
    dataField (encode i) = dataOf i

theorem clr : Statement .clr := by unfold Statement; decide
theorem rewind : Statement .rewind := by unfold Statement; decide
theorem stat : Statement .stat := by unfold Statement; decide
theorem facc : Statement .facc := by unfold Statement; decide
theorem fload (sym : Symbol) (count : BitVec 32) : Statement (.fload sym count) := by simp [Statement, encode, symOf, dataOf]
theorem fread (sym : Symbol) : Statement (.fread sym) := by simp [Statement, encode, symOf, dataOf]
theorem tbuild : Statement .tbuild := by unfold Statement; decide
theorem cgen : Statement .cgen := by unfold Statement; decide
theorem cread (sym : Symbol) (j : BitVec 3) : Statement (.cread sym j) := by simp [Statement, encode, symOf, dataOf]
theorem benc : Statement .benc := by unfold Statement; decide
theorem bdec : Statement .bdec := by unfold Statement; decide
theorem encode : Statement .encode := by unfold Statement; decide
theorem decode : Statement .decode := by unfold Statement; decide

end Sys2Proof.Laws.EncodedFields
end

