-- ==== Sys2Proof/Tests/Slice0.lean ====
section
/-! SUPPORT. Tests of the model against values worked out in the spec (95_test_vectors.md: each test names its
vector), and one witness for every statement that has hypotheses. -/

namespace Sys2Proof.Tests

open Sys2Proof Sys2Proof.Machine Sys2Proof.Safety

set_option Elab.async false

/-! ### Words: well-formedness and decoding (V-WORD-1, V-WORD-2, the encodings of 30_encoding.md R103) -/

theorem test_wf_op_00 : wellFormed 0x0000000000000000#64 = false := by decide
theorem test_wf_op_ff : wellFormed 0xFFFFFFFFFFFFFFFF#64 = false := by decide
theorem test_wf_op_21 : wellFormed 0x2100000000000000#64 = false := by decide
theorem test_wf_z_data : wellFormed 0x0100000000000001#64 = false := by decide
theorem test_wf_z_sym : wellFormed 0x6041000000000000#64 = false := by decide
theorem test_wf_z_zero : wellFormed 0x4000000100000000#64 = false := by decide
theorem test_wf_sd_zero : wellFormed 0x1141000100000003#64 = false := by decide
theorem test_wf_s_data : wellFormed 0x1200000000000001#64 = false := by decide
theorem test_wf_s_zero : wellFormed 0x1200800000000000#64 = false := by decide
theorem test_wf_sj_data : wellFormed 0x3143000000000008#64 = false := by decide
theorem test_wf_sj_zero : wellFormed 0x3143000100000000#64 = false := by decide
theorem test_wf_ok : wellFormed 0x3143000000000007#64 = true := by decide

theorem test_decode_clr : decode 0b0000000100000000000000000000000000000000000000000000000000000000#64 = some .clr := by decide
theorem test_decode_rewind : decode 0b0000001000000000000000000000000000000000000000000000000000000000#64 = some .rewind := by decide
theorem test_decode_stat : decode 0b0000001100000000000000000000000000000000000000000000000000000000#64 = some .stat := by decide
theorem test_decode_facc : decode 0b0001000000000000000000000000000000000000000000000000000000000000#64 = some .facc := by decide
theorem test_decode_fload : decode 0b0001000111111111000000000000000011111111111111111111111111111110#64 =
    some (.fload 0xFF#8 0xFFFFFFFE#32) := by decide
theorem test_decode_fread : decode 0b0001001010000001000000000000000000000000000000000000000000000000#64 =
    some (.fread 0x81#8) := by decide
theorem test_decode_tbuild : decode 0b0010000000000000000000000000000000000000000000000000000000000000#64 = some .tbuild := by decide
theorem test_decode_cgen : decode 0b0011000000000000000000000000000000000000000000000000000000000000#64 = some .cgen := by decide
theorem test_decode_cread : decode 0b0011000101000011000000000000000000000000000000000000000000000110#64 =
    some (.cread 0x43#8 6#3) := by decide
theorem test_decode_benc : decode 0b0100000000000000000000000000000000000000000000000000000000000000#64 = some .benc := by decide
theorem test_decode_bdec : decode 0b0101000000000000000000000000000000000000000000000000000000000000#64 = some .bdec := by decide
theorem test_decode_encode : decode 0b0110000000000000000000000000000000000000000000000000000000000000#64 = some .encode := by decide
theorem test_decode_decode : decode 0b0110000100000000000000000000000000000000000000000000000000000000#64 = some .decode := by decide
theorem test_decode_illegal : decode 0x3143000000000008#64 = none ∧ decode 0x2100000000000000#64 = none := by decide

/-! ### Small states -/

/-- The outcome is a next state with the property `p`. -/
def ends (o : Host.Outcome State Fault Refusal) (p : State → Bool) : Bool :=
  match o with
  | .next t => p t
  | .fault _ => false
  | .refused _ => false

theorem ends_next {o : Host.Outcome State Fault Refusal} {p : State → Bool} (h : ends o p = true) :
    ∃ t, o = .next t ∧ p t = true := by
  cases o with
  | next t => exact ⟨t, rfl, h⟩
  | fault _ => cases h
  | refused _ => cases h

/-- Counts of `A A A B B C` (S7). -/
def abcFreq : Vector Count 256 := (((Vector.replicate 256 0).set 0x41 3).set 0x42 2).set 0x43 1

/-- The bytes of `A A A B B C`. -/
def abcBytes : List Byte := [0x41#8, 0x41#8, 0x41#8, 0x42#8, 0x42#8, 0x43#8]

/-- The stream of `A A A B B C`: 0 0 0 11 11 10 (S7, V-ENC-1). -/
def abcStream : List Bool := [false, false, false, true, true, true, true, true, false]

/-- A map loaded and not yet sealed. -/
def loaded : State := { State.reset with freq := abcFreq }

/-- The tree of V-TRE-1. -/
def built : State := { loaded with
  node := [.leaf 0x41 3, .leaf 0x42 2, .leaf 0x43 1, .internal 3 2 1, .internal 6 0 3]
  live := [4], nsym := 3, root := 4, fvalid := true, tvalid := true }

/-- The Code Map of V-COD-1: A = 0, B = 11, C = 10. -/
def coded : State := { built with
  code := (((Vector.replicate 256 ⟨0, 0⟩).set 0x41 ⟨1, 0⟩).set 0x43 ⟨2, 2#256 <<< 254⟩).set 0x42 ⟨2, 3#256 <<< 254⟩
  cvalid := true }

/-- A map of one symbol: `Z` four times (V-TRE-16). -/
def lone : State := { State.reset with freq := (Vector.replicate 256 0).set 0x5A 4 }

/-- Its tree. -/
def loneBuilt : State := { lone with
  node := [.leaf 0x5A 4], live := [0], nsym := 1, root := 0, fvalid := true, tvalid := true }

/-! ### One step of each command -/

/-- V-CTL-3: `CLR` leaves the faulted state and touches no sink. -/
theorem test_clr : ends (exec .clr { coded with fault := true, errcode := 1, bsnk := ⟨[true], .aborted, []⟩ })
    (fun t => t.rsp = 0 ∧ t.fault = false ∧ t.node = [] ∧ t.bsnk.mode = .aborted) = true := by decide +kernel

/-- P1 line 2 without `EDONE`: `NSYM` = 3, three flags. -/
theorem test_stat : ends (exec .stat coded) (fun t => t.rsp = 0x0000000000030007#64) = true := by decide +kernel

/-- V-FRQ-4: the status word after a fault. -/
theorem test_stat_fault : ends (exec .stat { State.reset with fault := true, errcode := 3, errinfo := 0x41 })
    (fun t => t.rsp = 0x0000004100000320#64) = true := by decide +kernel

/-- V-CTL-2. -/
theorem test_rewind : ends (exec .rewind { State.reset with src := ⟨abcBytes, 6⟩ })
    (fun t => t.rsp = 0 ∧ t.src.pos = 0 ∧ t.src.data = abcBytes) = true := by decide +kernel

/-- V-FRQ-1. -/
theorem test_facc : ends (exec .facc { State.reset with src := ⟨abcBytes, 0⟩ })
    (fun t => t.rsp = 0 ∧ t.freqAt 0x41 = 3 ∧ t.freqAt 0x42 = 2 ∧ t.freqAt 0x43 = 1 ∧ t.freqAt 0x44 = 0 ∧ t.src.pos = 6 ∧ t.fvalid) = true := by decide +kernel

/-- V-FRQ-8: the third read fails. -/
theorem test_facc_eio : ends (exec .facc { State.reset with src := ⟨abcBytes, 0⟩, draws := [.succeeds, .succeeds, .fails] })
    (fun t => t.rsp = 0x0400000000000000#64 ∧ t.freqAt 0x41 = 2 ∧ t.src.pos = 2 ∧ t.status = 0x00000100000420#56) = true := by
  decide +kernel

/-- V-FRQ-5: the largest count. -/
theorem test_fload : ends (exec (.fload 0x41 0xFFFFFFFF) State.reset)
    (fun t => t.rsp = 0 ∧ t.freqAt 0x41 = 0xFFFFFFFF ∧ t.freqAt 0x42 = 0) = true := by decide +kernel

/-- V-FRQ-4: a zero count. -/
theorem test_fload_zero : ends (exec (.fload 0x41 0) State.reset)
    (fun t => t.rsp = 0x0300000000000000#64 ∧ t.status = 0x00004100000320#56) = true := by decide +kernel

/-- V-FRQ-1. -/
theorem test_fread : ends (exec (.fread 0x42) built) (fun t => t.rsp = 2) = true := by decide +kernel

/-- V-FRQ-7: the map is not complete. -/
theorem test_fread_eseq : ends (exec (.fread 0x41) State.reset)
    (fun t => t.rsp = 0x1100000000000000#64 ∧ t.status = 0x00001200001120#56) = true := by decide +kernel

/-- V-TRE-1: a leaf and an internal node of equal frequency. -/
theorem test_tbuild : ends (exec .tbuild loaded)
    (fun t => t.rsp = 0 ∧ t.node = built.node ∧ t.live = [4] ∧ t.nsym = 3 ∧ t.root = 4 ∧ t.fvalid ∧ t.tvalid) = true := by decide +kernel

/-- V-TRE-17: no symbol. -/
theorem test_tbuild_empty : ends (exec .tbuild State.reset)
    (fun t => t.rsp = 0x0100000000000000#64 ∧ t.status = 0x00000000000121#56) = true := by decide +kernel

/-- V-COD-1. -/
theorem test_cgen : ends (exec .cgen built)
    (fun t => t.rsp = 0 ∧ t.codeAt 0x41 = ⟨1, 0⟩ ∧ t.codeAt 0x42 = ⟨2, 3#256 <<< 254⟩ ∧ t.codeAt 0x43 = ⟨2, 2#256 <<< 254⟩ ∧
      (t.codeAt 0x44).len = 0 ∧ t.cvalid) = true := by decide +kernel

/-- V-COD-17: the single leaf has the code 0. -/
theorem test_cgen_lone : ends (exec .cgen loneBuilt)
    (fun t => (t.codeAt 0x5A).len = 1 ∧ (t.codeAt 0x5A).bits = 0 ∧ (t.codeAt 0x41).len = 0) = true := by decide +kernel

/-- V-COD-19. -/
theorem test_cread : ends (exec (.cread 0x42 0) coded) (fun t => t.rsp = 0x00000002C0000000#64) = true := by decide +kernel

/-- V-COD-20: the second chunk of the code of 38 ones and a zero. -/
theorem test_cread_chunk : ends (exec (.cread 0 1) { coded with
    code := (Vector.replicate 256 ⟨0, 0⟩).set 0 ⟨39, 0x3FFFFFFFFF#256 <<< 218⟩ })
    (fun t => t.rsp = 0x00000027FC000000#64) = true := by decide +kernel

/-- V-ENC-1. -/
theorem test_benc : ends (exec .benc { coded with src := ⟨abcBytes, 0⟩ })
    (fun t => t.rsp = 0 ∧ t.bsnk = ⟨abcStream, .finalized, [0x1F#8, 0x00#8]⟩ ∧ t.src.pos = 6 ∧ t.edone) = true := by
  decide +kernel

/-- V-ENC-22 with the codes of V-COD-1: `D` has no code. -/
theorem test_benc_missing : ends (exec .benc { coded with src := ⟨[0x41#8, 0x44#8, 0x42#8], 0⟩ })
    (fun t => t.rsp = 0x0200000000000000#64 ∧ t.bsnk = ⟨[false], .aborted, []⟩ ∧ t.src.pos = 2 ∧ t.errinfo = 0x44) = true := by
  decide +kernel

/-- V-DEC-1. -/
theorem test_bdec : ends (exec .bdec { built with bsrc := ⟨abcStream, 0⟩ })
    (fun t => t.rsp = 0 ∧ t.dsnk = ⟨abcBytes, .finalized⟩ ∧ t.ptr = 4 ∧ t.bsrc.pos = 9 ∧ t.ddone) = true := by decide +kernel

/-- V-DEC-25: the stream ends in mid-path. -/
theorem test_bdec_partial : ends (exec .bdec { built with bsrc := ⟨[false, true], 0⟩ })
    (fun t => t.rsp = 0 ∧ t.dsnk = ⟨[0x41#8], .finalized⟩ ∧ t.ptr = 3) = true := by decide +kernel

/-- P1. -/
theorem test_encode : ends (exec .encode { State.reset with src := ⟨abcBytes, 0⟩ })
    (fun t => t.rsp = 0 ∧ t.node = built.node ∧ t.root = 4 ∧ t.status = 0x0000000003000F#56 ∧ t.src.pos = 6 ∧
      t.bsnk = ⟨abcStream, .finalized, [0x1F#8, 0x00#8]⟩) = true := by decide +kernel

/-- S6: empty input. -/
theorem test_encode_empty : ends (exec .encode State.reset)
    (fun t => t.rsp = 0x0100000000000000#64 ∧ t.status = 0x00000000000121#56 ∧ t.bsnk = ⟨[], .aborted, []⟩ ∧
      t.dsnk.mode = .aborted) = true := by decide +kernel

/-- P2a line 5. -/
theorem test_decode_run : ends (exec .decode { loaded with bsrc := ⟨abcStream, 0⟩ })
    (fun t => t.rsp = 0 ∧ t.dsnk = ⟨abcBytes, .finalized⟩ ∧ t.ptr = 4 ∧ t.status = 0x00000000030013#56) = true := by
  decide +kernel

/-- V-DEC-23: in a single-leaf tree every bit emits the symbol. -/
theorem test_decode_lone : ends (exec .decode { lone with bsrc := ⟨[false, true, true, false], 0⟩ })
    (fun t => t.rsp = 0 ∧ t.dsnk.data = [0x5A#8, 0x5A#8, 0x5A#8, 0x5A#8] ∧ t.ptr = 0) = true := by decide +kernel

/-- V-WORD-2, through the step: an illegal word. -/
theorem test_step_illegal : ends (step { State.reset with host := [.command 0x3143000000000008#64] })
    (fun t => t.rsp = 0x1000000000000000#64 ∧ t.status = 0x00003100001020#56 ∧ t.host = []) = true := by decide +kernel

/-- V-WORD-3: an illegal `CLR` does not clear. -/
theorem test_step_illegal_clr : ends (step { State.reset with
    fault := true, errcode := 1, host := [.command 0x0100000000000001#64] })
    (fun t => t.rsp = 0x1300000000000000#64 ∧ t.fault ∧ t.errcode = 1) = true := by decide +kernel

/-- `withFetchWord` runs the word as the next step, and `decodeTableWord` reads the same command. -/
theorem test_fetch : ends (step (State.reset.withFetchWord 64 0x1141000000000003))
    (fun t => t.rsp = 0 ∧ t.freqAt 0x41 = 3 ∧ t.freqAt 0x40 = 0 ∧ t.host = []) = true ∧
    decodeTableWord 64 0x1141000000000003 = some (.fload 0x41 3) := by decide +kernel

/-- R286, R321: a reset between the two aborts of a fault entry finds `BSNK` aborted and `DSNK` still OPEN. -/
theorem test_reset_between_aborts : ends (exec (.fread 0) { State.reset with draws := [.succeeds, .resetStrikes] })
    (fun t => t.rsp = 0 ∧ t.fault = false ∧ t.bsnk.mode = .aborted ∧ t.dsnk.mode = .opened ∧ t.draws = []) = true := by
  decide +kernel

/-- V-PAK-1. -/
theorem test_pack : pack .msbFirst false abcStream = [0x1F#8, 0x00#8] ∧ pack .lsbFirst false abcStream = [0xF8#8, 0x00#8] ∧
    pack .msbFirst true abcStream = [0x1F#8, 0x7F#8] ∧
    unpack .msbFirst [0xE2#8] = [true, true, true, false, false, false, true, false] := by decide +kernel

/-! ### Properties of the small states, for the witnesses -/

theorem quiet {s : State} (h : s.draws = []) : NoIoFailure s := fun d hd => by simp [h] at hd

theorem runs {s : State} (h : s.draws = []) (n : Nat) : AbortsRun n s := ⟨by simp [eventAt, h], by simp [eventAt, h]⟩

/-- `n` port calls that succeed, then `e`; the calls beyond succeed. -/
def after (n : Nat) (e : PortEvent) : List PortEvent := List.replicate n .succeeds ++ [e]

theorem after_spec {s : State} {n : Nat} {e : PortEvent} (h : s.draws = after n e) :
    Succeeds n s ∧ eventAt s n = e ∧ AbortsRun (n + 1) s := by
  refine ⟨fun k hk => ?_, ?_, ?_, ?_⟩ <;> simp_all [eventAt, after, List.getElem?_append]

theorem built_tree : TreeOf built := ⟨by decide +kernel, by decide +kernel, by decide +kernel⟩

theorem coded_tree : TreeOf coded := built_tree

theorem ofBits_0 : Code.ofBits [false] = ⟨1, 0⟩ := by decide +kernel
theorem ofBits_10 : Code.ofBits [true, false] = ⟨2, 2#256 <<< 254⟩ := by decide +kernel
theorem ofBits_11 : Code.ofBits [true, true] = ⟨2, 3#256 <<< 254⟩ := by decide +kernel

/-- The traversal of the tree of V-TRE-1: A, then C, then B. -/
theorem coded_walk (t : Vector Code 256) : codeTable coded.node coded.root t =
    some (setCode (setCode (setCode t 0x41 [false]) 0x43 [true, false]) 0x42 [true, true]) := rfl

theorem coded_codes : CodesOf coded := by
  rw [CodesOf, coded_walk]
  simp only [setCode, ofBits_0, ofBits_10, ofBits_11]
  rfl

/-- The Code Map of the single leaf (V-COD-17). -/
def loneCoded : State := { loneBuilt with code := (Vector.replicate 256 ⟨0, 0⟩).set 0x5A ⟨1, 0⟩, cvalid := true }

theorem lone_walk (t : Vector Code 256) : codeTable loneCoded.node loneCoded.root t = some (setCode t 0x5A [false]) := rfl

theorem loneCoded_codes : CodesOf loneCoded := by
  rw [CodesOf, lone_walk]
  simp only [setCode, ofBits_0]
  rfl

theorem test_encode_ok : ends (exec .encode { State.reset with src := ⟨[0x41#8], 0⟩ }) (fun t => t.fault = false) = true := by
  decide +kernel

theorem lone_tree : TreeOf loneBuilt := ⟨by decide +kernel, by decide +kernel, by decide +kernel⟩

theorem coded_inv : Inv coded where
  srcCursor := by decide
  bsrcCursor := by decide
  flags := fun _ => ⟨fun _ => rfl, fun _ => rfl, nofun, nofun⟩
  noCause := fun _ => ⟨rfl, rfl⟩
  cause := nofun
  noTree := fun _ h => nomatch h
  tree := fun _ _ => coded_tree
  noCodes := fun _ h => nomatch h
  codes := fun _ _ => coded_codes
  noPtr := fun _ _ => rfl
  ptr := fun _ h => nomatch h

/-! ### Witnesses: one for every statement with hypotheses -/

theorem witness_DecodedWordIsTheEncoding : ∃ w i, decode w = some i := ⟨0x3143000000000007#64, .cread 0x43 7, by decide⟩

theorem witness_OpcodeRowsAreDisjoint : ∃ (w : CmdWord) (r r' : OpcodeRow), r ∈ opcodeMap ∧ r' ∈ opcodeMap ∧
    r.accepts w = true ∧ r'.accepts w = true :=
  ⟨0x1141000000000003#64, ⟨"FLOAD", 0x1100000000000000#64, 0xFF00FFFF00000000#64⟩,
    ⟨"FLOAD", 0x1100000000000000#64, 0xFF00FFFF00000000#64⟩, by decide, by decide, by decide, by decide⟩

theorem witness_StepRunsTheIssuedCommand : ∃ (s : State) (w : CmdWord) (rest : List HostMove) (i : Instr),
    s.host = .command w :: rest ∧ decode w = some i :=
  ⟨{ State.reset with host := [.command 0x1141000000000003#64] }, _, _, .fload 0x41 3, rfl, by decide⟩

theorem witness_HostReplacesStreamsOrCoreWaits (rest : List HostMove) (data : List Byte) (bits : List Bool) :
    (∃ s : State, s.host = []) ∧ (∃ s : State, s.host = .attachSrc data :: rest) ∧
    (∃ s : State, s.host = .attachBsrc bits :: rest) ∧ (∃ s : State, s.host = .attachBsnk :: rest) ∧
    ∃ s : State, s.host = .attachDsnk :: rest :=
  ⟨⟨State.reset, rfl⟩, ⟨{ State.reset with host := _ }, rfl⟩, ⟨{ State.reset with host := _ }, rfl⟩,
    ⟨{ State.reset with host := _ }, rfl⟩, ⟨{ State.reset with host := _ }, rfl⟩⟩

theorem witness_FaultedCoreRefuses : ∃ (s : State) (w : CmdWord),
    s.fault = true ∧ decode w ≠ some .clr ∧ decode w ≠ some .stat :=
  ⟨{ State.reset with fault := true }, 0x0100000000000001#64, rfl, by decide, by decide⟩

theorem witness_IllegalWordFaults : ∃ (s : State) (w : CmdWord),
    s.fault = false ∧ wellFormed w = false ∧ AbortsRun 0 s :=
  ⟨State.reset, 0x0100000000000001#64, rfl, by decide, runs rfl 0⟩

/-- One state for each command that has a precondition: `coded` where a flag must be 1, the reset state where it must
be 0, and a state after a run for `EDONE` and `DDONE`. -/
theorem witness_BrokenPreconditionFaults :
    coded.fault = false ∧ coded.fvalid = true ∧ coded.tvalid = true ∧ coded.cvalid = true ∧
    State.reset.fault = false ∧ State.reset.fvalid = false ∧ State.reset.tvalid = false ∧ State.reset.cvalid = false ∧
    ({ coded with edone := true } : State).edone = true ∧ ({ built with ddone := true } : State).ddone = true ∧
    AbortsRun 0 coded ∧ AbortsRun 0 State.reset ∧ AbortsRun 0 { coded with edone := true } ∧
    AbortsRun 0 { built with ddone := true } :=
  ⟨rfl, rfl, rfl, rfl, rfl, rfl, rfl, rfl, rfl, rfl, runs rfl 0, runs rfl 0, runs rfl 0, runs rfl 0⟩

theorem witness_EveryFaultIsRecordedAndAbortsSinks :
    (∃ (i : Instr) (s t : State), s.fault = false ∧ exec i s = .next t ∧ t.fault = true) ∧
    (∃ s : State, eventAt s 0 = .resetStrikes) ∧
    ∃ s : State, eventAt s 0 ≠ .resetStrikes ∧ eventAt s 1 = .resetStrikes :=
  ⟨⟨.fread 0, State.reset, _, rfl, rfl, rfl⟩, ⟨{ State.reset with draws := [.resetStrikes] }, rfl⟩,
    ⟨{ State.reset with draws := [.succeeds, .resetStrikes] }, by decide, rfl⟩⟩

theorem witness_OnlyClrOrResetLeavesFault : (∃ s t : State, s.fault = true ∧
    s.host.head? = some (.command 0x0100000000000000#64) ∧ step s = .next t ∧ t.fault = false) ∧
    ∃ s t : State, s.fault = true ∧ s.host.head? = some .reset ∧ step s = .next t ∧ t.fault = false :=
  ⟨⟨{ State.reset with fault := true, host := [.command 0x0100000000000000#64] }, _, rfl, rfl, rfl, rfl⟩,
    ⟨{ State.reset with fault := true, host := [.reset] }, _, rfl, rfl, rfl, rfl⟩⟩

/-- `A` was decoded from the first bit of the stream. -/
def partsA : List (Symbol × List Bool) := [(0x41, [false])]

theorem emits_A : Emits built 0x41 [false] := ⟨3, .inr ⟨by decide, by rfl⟩⟩

theorem emits_B : Emits built 0x42 [true, true] := ⟨2, .inr ⟨by decide, by rfl⟩⟩

/-- In the middle of a path, with bits left. -/
theorem upTo_path (d : List PortEvent) : DecodedUpTo { built with bsrc := ⟨[false, true, true], 0⟩, draws := d } partsA [true] :=
  ⟨⟨[true], rfl⟩, fun y hy => by obtain rfl := List.mem_singleton.1 hy; exact emits_A, .inl (.inr ⟨3, 2, 1, by rfl⟩)⟩

/-- Before the write of `B`. -/
theorem upTo_write (d : List PortEvent) :
    DecodedUpTo { built with bsrc := ⟨[false, true, true], 0⟩, draws := d } partsA [true, true] :=
  ⟨⟨[], rfl⟩, fun y hy => by obtain rfl := List.mem_singleton.1 hy; exact emits_A, .inr ⟨0x42, emits_B⟩⟩

/-- At the end of the stream, in the middle of a path. -/
theorem upTo_end (d : List PortEvent) : DecodedUpTo { built with bsrc := ⟨[false, true], 0⟩, draws := d } partsA [true] :=
  ⟨⟨[], rfl⟩, fun y hy => by obtain rfl := List.mem_singleton.1 hy; exact emits_A, .inl (.inr ⟨3, 2, 1, by rfl⟩)⟩

/-- On the single leaf, before the write of its second symbol. -/
theorem upTo_lone (d : List PortEvent) :
    DecodedUpTo { loneBuilt with bsrc := ⟨[true, false], 0⟩, draws := d } [(0x5A, [true])] [false] :=
  ⟨⟨[], rfl⟩, fun y hy => by obtain rfl := List.mem_singleton.1 hy; exact ⟨4, .inl ⟨by rfl, rfl⟩⟩,
    .inr ⟨0x5A, 4, .inl ⟨by rfl, rfl⟩⟩⟩

/-- Nothing has been decoded yet. -/
theorem upTo_start (t : State) : DecodedUpTo t [] [] := ⟨List.nil_prefix, by simp, .inl (.inl rfl)⟩

theorem bdec_starts (s : State) (h1 : s.fault = false) (h2 : s.ddone = false) (h3 : s.tvalid = true) : DecodesOn .bdec s s :=
  ⟨h1, h2, h3, .inl ⟨rfl, rfl⟩⟩

/-- `DECODE` makes its tree first. -/
theorem decode_starts (e : PortEvent) : ∃ t, DecodesOn .decode { loaded with bsrc := ⟨abcStream, 0⟩, draws := [e] } t := by
  have h : ends (exec .tbuild { loaded with bsrc := ⟨abcStream, 0⟩, draws := [e] }) (fun t => t.tvalid) = true := by
    cases e <;> decide +kernel
  obtain ⟨t, ht, hv⟩ := ends_next h
  exact ⟨t, rfl, rfl, hv, .inr ⟨rfl, rfl, ht⟩⟩

/-- Between two commands; during `BDEC` before a read, before a write (on both kinds of tree) and before the finalize;
during `DECODE` before the first read. -/
theorem witness_HardwareResetKeepsStreams (rest : List HostMove) : (∃ s : State, s.host = .reset :: rest) ∧
    ∀ x, x ∈ [([true], [false, true, true], 3), ([true, true], [false, true, true], 4), ([true], [false, true], 3)] →
      (∃ s, s.bsrc.bits = x.2.1 ∧ DecodesOn .bdec s s ∧ DecodedUpTo s partsA x.1 ∧ s.dsnk.mode = .opened ∧
        x.2.2 = ((partsA.map Prod.snd).flatten ++ x.1).length + partsA.length ∧ Succeeds x.2.2 s ∧
        eventAt s x.2.2 = .resetStrikes) ∧
      (∃ s, DecodesOn .bdec s s ∧ DecodedUpTo s [(0x5A, [true])] [false] ∧ s.dsnk.mode = .opened ∧ Succeeds 3 s ∧
        eventAt s 3 = .resetStrikes) ∧
      ∃ s t, DecodesOn .decode s t ∧ DecodedUpTo t [] [] ∧ Succeeds 0 s ∧ eventAt s 0 = .resetStrikes := by
  refine ⟨⟨{ State.reset with host := _ }, rfl⟩, fun x hx => ⟨?_, ?_, ?_⟩⟩
  · simp only [List.mem_cons, List.not_mem_nil, or_false] at hx
    rcases hx with rfl | rfl | rfl
    · exact ⟨_, rfl, bdec_starts _ rfl rfl rfl, upTo_path (after 3 .resetStrikes), rfl, rfl, (after_spec rfl).1, (after_spec rfl).2.1⟩
    · exact ⟨_, rfl, bdec_starts _ rfl rfl rfl, upTo_write (after 4 .resetStrikes), rfl, rfl, (after_spec rfl).1, (after_spec rfl).2.1⟩
    · exact ⟨_, rfl, bdec_starts _ rfl rfl rfl, upTo_end (after 3 .resetStrikes), rfl, rfl, (after_spec rfl).1, (after_spec rfl).2.1⟩
  · exact ⟨_, bdec_starts _ rfl rfl rfl, upTo_lone (after 3 .resetStrikes), rfl, (after_spec rfl).1, (after_spec rfl).2.1⟩
  · obtain ⟨t, ht⟩ := decode_starts .resetStrikes
    exact ⟨_, t, ht, upTo_start t, fun k hk => absurd hk (Nat.not_lt_zero k), rfl⟩

/-- Before the read of the second byte, before the last write of `B`, and before the finalize. -/
theorem encoded_upTo (s : State) (hs : s.code = coded.code) :
    EncodedUpTo s [0x41#8, 0x42#8] 1 [false] ∧ NextIsRead s [0x41#8, 0x42#8] 1 [false] ∧
    EncodedUpTo s [0x41#8, 0x42#8] 2 [false, true] ∧ ¬ NextIsRead s [0x41#8, 0x42#8] 2 [false, true] ∧
    EncodedUpTo s [0x41#8, 0x42#8] 2 [false, true, true] ∧ ¬ NextIsRead s [0x41#8, 0x42#8] 2 [false, true, true] := by
  have h : ∀ l, codeStream s l = codeStream coded l := fun l => by simp [codeStream, State.codeAt, hs]
  simp only [EncodedUpTo, NextIsRead, h]
  decide +kernel

/-- The state for a `BENC` of `A B` (codes of V-COD-1). -/
def codedAB (d : List PortEvent) : State := { coded with src := ⟨[0x41#8, 0x42#8], 0⟩, draws := d }

/-- `REWIND` and `ENCODE` at once. -/
theorem witness_ResetCutsEncodingShort_first : ∃ s : State, s.fault = false ∧ eventAt s 0 = .resetStrikes :=
  ⟨{ State.reset with draws := [.resetStrikes] }, rfl, rfl⟩

/-- `FACC` before its last read. -/
theorem witness_ResetCutsEncodingShort_facc : ∃ s : State, s.fault = false ∧ s.fvalid = false ∧ 5 < (srcRest s).length ∧
    (∀ c, (s.freqAt c).toNat + ((srcRest s).take 5).count c < 2 ^ 32) ∧ Succeeds 5 s ∧ eventAt s 5 = .resetStrikes :=
  ⟨{ State.reset with src := ⟨abcBytes, 0⟩, draws := after 5 .resetStrikes }, rfl, rfl, by decide, by decide +kernel,
    (after_spec rfl).1, (after_spec rfl).2.1⟩

/-- `BENC` before a read, a write and the finalize. -/
theorem witness_ResetCutsEncodingShort_benc :
    ∀ x, x ∈ [(1, [false]), (2, [false, true]), (2, [false, true, true])] → ∃ s : State, s.fault = false ∧ s.cvalid = true ∧
      s.edone = false ∧ EncodedUpTo s (srcRest s) x.1 x.2 ∧ (∀ b ∈ (srcRest s).take x.1, (s.codeAt b).len ≠ 0) ∧
      s.bsnk.mode = .opened ∧ Succeeds (x.1 + x.2.length) s ∧ eventAt s (x.1 + x.2.length) = .resetStrikes := by
  intro x hx
  refine ⟨codedAB (after (x.1 + x.2.length) .resetStrikes), rfl, rfl, rfl, ?_, ?_, rfl, (after_spec rfl).1, (after_spec rfl).2.1⟩
  · obtain ⟨h1, -, h2, -, h3, -⟩ := encoded_upTo (codedAB (after (x.1 + x.2.length) .resetStrikes)) rfl
    simp only [List.mem_cons, List.not_mem_nil, or_false] at hx
    rcases hx with rfl | rfl | rfl
    · exact h1
    · exact h2
    · exact h3
  · intro b hb
    have : b ∈ [0x41#8, 0x42#8] := List.mem_of_mem_take hb
    simp only [List.mem_cons, List.not_mem_nil, or_false] at this
    rcases this with rfl | rfl
    · exact (by decide +kernel : (coded.codeAt 0x41#8).len ≠ 0)
    · exact (by decide +kernel : (coded.codeAt 0x42#8).len ≠ 0)

/-- `ENCODE` before the first read of its first pass, and between its passes. -/
theorem witness_ResetCutsEncodingShort_count : ∀ n, n = 0 ∨ n = 6 → ∃ s : State, s.fault = false ∧ n ≤ s.src.data.length ∧
    (∀ c, (s.src.data.take n).count c < 2 ^ 32) ∧ Succeeds (n + 1) s ∧ eventAt s (n + 1) = .resetStrikes := by
  intro n hn
  refine ⟨{ State.reset with src := ⟨abcBytes, 3⟩, draws := after (n + 1) .resetStrikes }, rfl, ?_, ?_,
    (after_spec rfl).1, (after_spec rfl).2.1⟩
  · change n ≤ 6; omega
  · rcases hn with rfl | rfl <;> decide +kernel

/-- `ENCODE` in its second pass, after the read of the first byte. -/
theorem witness_ResetCutsEncodingShort_encode : ∃ s t : State, s.fault = false ∧ TreeOf t ∧ CodesOf t ∧
    (∀ b, (t.freqAt b).toNat = s.src.data.count b) ∧ EncodedUpTo t s.src.data 1 [] ∧ Succeeds 9 s ∧
    eventAt s 9 = .resetStrikes :=
  ⟨{ State.reset with src := ⟨abcBytes, 0⟩, draws := after 9 .resetStrikes }, coded, rfl, coded_tree, coded_codes,
    by decide +kernel, ⟨by decide, by decide +kernel, by decide +kernel⟩, (after_spec rfl).1, (after_spec rfl).2.1⟩

/-- Before and between the aborts after an overflow. -/
theorem witness_ResetCutsEncodingShort_overflow : ∀ d, d = after 3 .resetStrikes ∨ d = after 4 .resetStrikes →
    ∃ (s : State) (before rest : List Byte) (b : Byte), s.draws = d ∧ s.fault = false ∧ s.fvalid = false ∧
      srcRest s = before ++ b :: rest ∧ (∀ c, (s.freqAt c).toNat + before.count c < 2 ^ 32) ∧
      (s.freqAt b).toNat + before.count b = 2 ^ 32 - 1 ∧ before.length + 1 = 3 ∧ Succeeds 3 s ∧
      (eventAt s 3 = .resetStrikes ∨ (eventAt s 3 ≠ .resetStrikes ∧ eventAt s 4 = .resetStrikes)) := by
  intro d hd
  refine ⟨{ State.reset with
      freq := (Vector.replicate 256 0).set 0x41 0xFFFFFFFE, src := ⟨[0x42#8, 0x41#8, 0x41#8, 0x42#8], 0⟩, draws := d },
    [0x42#8, 0x41#8], [0x42#8], 0x41#8, rfl, rfl, rfl, rfl, ?_, ?_, rfl, ?_, ?_⟩
  · exact (by decide +kernel : ∀ c : Byte, (({ State.reset with freq := (Vector.replicate 256 0).set 0x41 0xFFFFFFFE } : State).freqAt c).toNat +
      [0x42#8, 0x41#8].count c < 2 ^ 32)
  · exact (by decide +kernel : (({ State.reset with freq := (Vector.replicate 256 0).set 0x41 0xFFFFFFFE } : State).freqAt 0x41#8).toNat +
      [0x42#8, 0x41#8].count 0x41#8 = 2 ^ 32 - 1)
  · rcases hd with rfl | rfl
    · exact (after_spec rfl).1
    · exact fun k hk => (after_spec (n := 4) (e := .resetStrikes) rfl).1 k (by omega)
  · rcases hd with rfl | rfl
    · exact .inl rfl
    · exact .inr ⟨by simp [eventAt, after], rfl⟩

/-- Before and between the aborts after a byte without a code. -/
theorem witness_ResetCutsEncodingShort_missing : ∀ d, d = after 3 .resetStrikes ∨ d = after 4 .resetStrikes →
    ∃ (s : State) (before rest : List Byte) (b : Byte), s.draws = d ∧ s.fault = false ∧ s.cvalid = true ∧
      s.edone = false ∧ s.bsnk.mode = .opened ∧ srcRest s = before ++ b :: rest ∧
      (∀ c ∈ before, (s.codeAt c).len ≠ 0) ∧ (s.codeAt b).len = 0 ∧
      before.length + (codeStream s before).length + 1 = 3 ∧ Succeeds 3 s ∧
      (eventAt s 3 = .resetStrikes ∨ (eventAt s 3 ≠ .resetStrikes ∧ eventAt s 4 = .resetStrikes)) := by
  intro d hd
  refine ⟨{ coded with src := ⟨[0x41#8, 0x44#8, 0x42#8], 0⟩, draws := d }, [0x41#8], [0x42#8], 0x44#8,
    rfl, rfl, rfl, rfl, rfl, rfl, ?_, ?_, ?_, ?_, ?_⟩
  · exact (by decide +kernel : ∀ c ∈ [0x41#8], (coded.codeAt c).len ≠ 0)
  · exact (by decide +kernel : (coded.codeAt 0x44#8).len = 0)
  · exact (by decide +kernel : [0x41#8].length + (codeStream coded [0x41#8]).length + 1 = 3)
  · rcases hd with rfl | rfl
    · exact (after_spec rfl).1
    · exact fun k hk => (after_spec (n := 4) (e := .resetStrikes) rfl).1 k (by omega)
  · rcases hd with rfl | rfl
    · exact .inl rfl
    · exact .inr ⟨by simp [eventAt, after], rfl⟩

theorem witness_RewindMovesTheCursor : (∃ s : State, s.fault = false ∧ eventAt s 0 = .succeeds) ∧
    ∃ s : State, s.fault = false ∧ eventAt s 0 = .fails ∧ AbortsRun 1 s :=
  ⟨⟨State.reset, rfl, rfl⟩, ⟨{ State.reset with draws := after 0 .fails }, rfl, rfl, (after_spec rfl).2.2⟩⟩

theorem witness_FaccCountsTheSource : ∃ s : State, s.fault = false ∧ s.fvalid = false ∧ NoIoFailure s ∧
    s.src.pos ≤ s.src.data.length ∧ ∀ b, (s.freqAt b).toNat + (srcRest s).count b < 2 ^ 32 :=
  ⟨{ State.reset with src := ⟨abcBytes, 0⟩ }, rfl, rfl, quiet rfl, by decide, by decide +kernel⟩

theorem witness_FaccOverflowIsPrecise : ∃ (s : State) (before after : List Byte) (b : Byte),
    s.fault = false ∧ s.fvalid = false ∧ NoIoFailure s ∧ srcRest s = before ++ b :: after ∧
    (∀ c, (s.freqAt c).toNat + before.count c < 2 ^ 32) ∧ (s.freqAt b).toNat + before.count b = 2 ^ 32 - 1 :=
  ⟨{ State.reset with freq := (Vector.replicate 256 0).set 0x41 0xFFFFFFFE, src := ⟨[0x42#8, 0x41#8, 0x41#8, 0x42#8], 0⟩ },
    [0x42#8, 0x41#8], [0x42#8], 0x41#8, rfl, rfl, quiet rfl, rfl, by decide +kernel, by decide +kernel⟩

theorem witness_FaccReadFailureIsPrecise : ∃ (s : State) (n : Nat),
    s.fault = false ∧ s.fvalid = false ∧ Succeeds n s ∧ eventAt s n = .fails ∧ AbortsRun (n + 1) s ∧
    n < (srcRest s).length ∧ ∀ c, (s.freqAt c).toNat + ((srcRest s).take n).count c < 2 ^ 32 :=
  ⟨{ State.reset with src := ⟨abcBytes, 0⟩, draws := after 2 .fails }, 2,
    rfl, rfl, (after_spec rfl).1, (after_spec rfl).2.1, (after_spec rfl).2.2, by decide, by decide +kernel⟩

theorem witness_FloadStoresTheCount : ∃ (s : State) (sym : Symbol) (count : BitVec 32),
    s.fault = false ∧ s.fvalid = false ∧ count ≠ 0 ∧ s.freqAt sym = 0 :=
  ⟨State.reset, 0xFF, 0xFFFFFFFF, rfl, rfl, by decide, by decide +kernel⟩

theorem witness_FloadRejectsMalformedEntries :
    (∃ (s : State) (sym : Symbol) (count : BitVec 32),
      s.fault = false ∧ s.fvalid = false ∧ AbortsRun 0 s ∧ count = 0 ∧ s.freqAt sym = 0) ∧
    ∃ (s : State) (sym : Symbol) (count : BitVec 32),
      s.fault = false ∧ s.fvalid = false ∧ AbortsRun 0 s ∧ count ≠ 0 ∧ s.freqAt sym ≠ 0 :=
  ⟨⟨State.reset, 0x41, 0, rfl, rfl, runs rfl 0, rfl, by decide +kernel⟩,
    ⟨loaded, 0x41, 5, rfl, rfl, runs rfl 0, by decide, by decide +kernel⟩⟩

theorem witness_FreadAnswersTheCounter : ∃ s : State, s.fault = false ∧ s.fvalid = true := ⟨built, rfl, rfl⟩

theorem witness_FreadReturnsTheLoadedCount : ∃ (s : State) (sym : Symbol) (n : BitVec 32), s.fault = false ∧
    s.fvalid = false ∧ s.tvalid = false ∧ s.live = [] ∧ n ≠ 0 ∧ s.freqAt sym = 0 :=
  ⟨State.reset, 0x41, 0xFFFFFFFF, rfl, rfl, rfl, rfl, by decide, by decide +kernel⟩

theorem witness_TbuildBuildsATree : ∃ s : State, s.fault = false ∧ s.tvalid = false ∧ s.live = [] ∧ ∃ b, s.freqAt b ≠ 0 :=
  ⟨loaded, rfl, rfl, rfl, 0x43, by decide +kernel⟩

/-- For `TBUILD` and for `DECODE`. -/
theorem witness_TbuildRejectsAnEmptyMap : ∃ s : State, s.ddone = false ∧ s.fault = false ∧ s.tvalid = false ∧
    AbortsRun 0 s ∧ ∀ b, s.freqAt b = 0 :=
  ⟨State.reset, rfl, rfl, rfl, runs rfl 0, by decide +kernel⟩

theorem witness_CombineStepMergesTheTwoFirst : ∃ (a : Arena) (F : Handle → Nat), a.node.length < 511 ∧
    2 ≤ a.live.length ∧ a.live.Pairwise (· < ·) ∧ ∀ h ∈ a.live, ∃ x, a.node[h.toNat]? = some x ∧ x.freq.toNat = F h :=
  ⟨⟨[.leaf 0x41 3, .leaf 0x42 2, .leaf 0x43 1], [0, 1, 2]⟩, fun h => [3, 2, 1].getD h.toNat 0, by decide, by decide,
    by decide, by
      intro h hh
      simp only [List.mem_cons, List.not_mem_nil, or_false] at hh
      rcases hh with rfl | rfl | rfl
      · exact ⟨_, rfl, rfl⟩
      · exact ⟨_, rfl, rfl⟩
      · exact ⟨_, rfl, rfl⟩⟩

theorem witness_BuiltTreeIsStrict : ∃ s : State, TreeOf s := ⟨built, built_tree⟩

theorem witness_LeavesStandInSymbolOrder : ∃ (s : State) (i n : Nat), TreeOf s ∧
    ((List.range 256).filter fun n => (s.freq[n]?.getD 0) ≠ 0)[i]? = some n :=
  ⟨built, 2, 0x43, built_tree, by decide +kernel⟩

theorem witness_RootFrequencyIsTheTotal : ∃ s : State, TreeOf s := ⟨built, built_tree⟩

theorem witness_TbuildDependsOnTheCountersOnly : ∃ s s' t t' : State, s.freq = s'.freq ∧ s.live = [] ∧ s'.live = [] ∧
    s.fault = false ∧ s'.fault = false ∧ s.tvalid = false ∧ s'.tvalid = false ∧ AbortsRun 0 s ∧ AbortsRun 0 s' ∧
    exec .tbuild s = .next t ∧ exec .tbuild s' = .next t' := by
  obtain ⟨t, h, -⟩ := ends_next test_tbuild
  exact ⟨loaded, loaded, t, t, rfl, rfl, rfl, rfl, rfl, rfl, rfl, runs rfl 0, runs rfl 0, h, h⟩

theorem witness_OneSymbolGivesOneLeaf : ∃ (s : State) (b : Symbol), s.fault = false ∧ s.tvalid = false ∧ s.live = [] ∧
    ∀ a, s.freqAt a ≠ 0 ↔ a = b :=
  ⟨lone, 0x5A, rfl, rfl, rfl, by decide +kernel⟩

theorem witness_CgenGeneratesTheCodeMap : ∃ s : State, s.fault = false ∧ s.tvalid = true ∧ s.cvalid = false ∧ TreeOf s ∧
    s.code = Vector.replicate 256 ⟨0, 0⟩ :=
  ⟨built, rfl, rfl, rfl, built_tree, rfl⟩

theorem witness_ExactlyCountedSymbolsHaveCodes : ∃ s : State, TreeOf s ∧ CodesOf s := ⟨coded, coded_tree, coded_codes⟩

/-- Both clauses: a tree of three symbols and a single leaf. -/
theorem witness_CodeIsThePathToTheLeaf :
    (∃ (s : State) (b : Symbol), TreeOf s ∧ CodesOf s ∧ s.freqAt b ≠ 0 ∧ s.nsym ≠ 1) ∧
    ∃ (s : State) (b : Symbol), TreeOf s ∧ CodesOf s ∧ s.freqAt b ≠ 0 ∧ s.nsym = 1 :=
  ⟨⟨coded, 0x42, coded_tree, coded_codes, by decide +kernel, by decide⟩,
    ⟨loneCoded, 0x5A, lone_tree, loneCoded_codes, by decide +kernel, rfl⟩⟩

theorem witness_CodesArePrefixFree : ∃ (s : State) (a b : Symbol), TreeOf s ∧ CodesOf s ∧ a ≠ b ∧
    (s.codeAt a).len ≠ 0 ∧ (s.codeAt b).len ≠ 0 :=
  ⟨coded, 0x42, 0x43, coded_tree, coded_codes, by decide, by decide +kernel, by decide +kernel⟩

theorem witness_MoreFrequentSymbolsHaveNoLongerCodes : ∃ (s : State) (a b : Symbol), TreeOf s ∧ CodesOf s ∧
    s.freqAt b ≠ 0 ∧ s.freqAt b < s.freqAt a :=
  ⟨coded, 0x41, 0x43, coded_tree, coded_codes, by decide +kernel, by decide +kernel⟩

theorem witness_CreadAnswersTheChunk : ∃ s : State, s.fault = false ∧ s.cvalid = true := ⟨coded, rfl, rfl⟩

theorem witness_BencWritesTheCodes : ∃ s : State, s.fault = false ∧ s.cvalid = true ∧ s.edone = false ∧ NoIoFailure s ∧
    s.bsnk.mode = .opened ∧ s.src.pos ≤ s.src.data.length ∧ ∀ b ∈ srcRest s, (s.codeAt b).len ≠ 0 :=
  ⟨{ coded with src := ⟨abcBytes, 0⟩ }, rfl, rfl, rfl, quiet rfl, rfl, by decide, by decide +kernel⟩

theorem witness_BencMissingCodeIsPrecise : ∃ (s : State) (before after : List Byte) (b : Byte), s.fault = false ∧
    s.cvalid = true ∧ s.edone = false ∧ NoIoFailure s ∧ s.bsnk.mode = .opened ∧ srcRest s = before ++ b :: after ∧
    (∀ c ∈ before, (s.codeAt c).len ≠ 0) ∧ (s.codeAt b).len = 0 :=
  ⟨{ coded with src := ⟨[0x41#8, 0x44#8, 0x42#8], 0⟩ }, [0x41#8], [0x42#8], 0x44#8, rfl, rfl, rfl, quiet rfl, rfl, rfl,
    by decide +kernel, by decide +kernel⟩

theorem witness_BencNeedsAnOpenSink : ∃ (s : State) (b : Byte), s.fault = false ∧ s.cvalid = true ∧ s.edone = false ∧
    NoIoFailure s ∧ s.bsnk.mode ≠ .opened ∧ s.src.data[s.src.pos]? = some b ∧ (s.codeAt b).len ≠ 0 :=
  ⟨{ coded with src := ⟨abcBytes, 0⟩, bsnk := ⟨[], .finalized, []⟩ }, 0x41#8, rfl, rfl, rfl, quiet rfl, by decide, rfl,
    by decide +kernel⟩

theorem witness_BdecParsesEveryStream : ∃ s : State, s.fault = false ∧ s.tvalid = true ∧ s.ddone = false ∧ TreeOf s ∧
    s.nsym ≠ 1 ∧ NoIoFailure s ∧ s.dsnk.mode = .opened ∧ s.bsrc.pos ≤ s.bsrc.bits.length :=
  ⟨{ built with bsrc := ⟨[false, true], 0⟩ }, rfl, rfl, rfl, built_tree, by decide, quiet rfl, rfl, by decide⟩

theorem witness_BdecSingleLeafEmitsPerBit : ∃ (s : State) (sym : Symbol) (f : NodeFreq), s.fault = false ∧
    s.tvalid = true ∧ s.ddone = false ∧ s.nodeAt? s.root = some (.leaf sym f) ∧ NoIoFailure s ∧
    s.dsnk.mode = .opened ∧ s.bsrc.pos ≤ s.bsrc.bits.length :=
  ⟨{ loneBuilt with bsrc := ⟨[false, true, true], 0⟩ }, 0x5A, 4, rfl, rfl, rfl, rfl, quiet rfl, rfl, by decide⟩

/-- `BENC`: a refused read, write and finalize, and the write and finalize of a sink that is not OPEN. -/
theorem witness_RefusedPortCallsNameTheirPort_benc :
    (∃ s, s.fault = false ∧ s.cvalid = true ∧ s.edone = false ∧ EncodedUpTo s (srcRest s) 1 [false] ∧
      NextIsRead s (srcRest s) 1 [false] ∧ (∀ b ∈ (srcRest s).take 1, (s.codeAt b).len ≠ 0) ∧ s.bsnk.mode = .opened ∧
      Succeeds 2 s ∧ eventAt s 2 = .fails ∧ AbortsRun 3 s) ∧
    (∃ s, s.fault = false ∧ s.cvalid = true ∧ s.edone = false ∧ EncodedUpTo s (srcRest s) 2 [false, true] ∧
      ¬ NextIsRead s (srcRest s) 2 [false, true] ∧ (∀ b ∈ (srcRest s).take 2, (s.codeAt b).len ≠ 0) ∧
      s.bsnk.mode = .opened ∧ Succeeds 4 s ∧ eventAt s 4 = .fails ∧ AbortsRun 5 s) ∧
    (∃ s, s.fault = false ∧ s.cvalid = true ∧ s.edone = false ∧ EncodedUpTo s (srcRest s) 2 [false, true, true] ∧
      ¬ NextIsRead s (srcRest s) 2 [false, true, true] ∧ (∀ b ∈ (srcRest s).take 2, (s.codeAt b).len ≠ 0) ∧
      s.bsnk.mode = .opened ∧ Succeeds 5 s ∧ eventAt s 5 = .fails ∧ AbortsRun 6 s) ∧
    (∃ s, s.fault = false ∧ s.cvalid = true ∧ s.edone = false ∧ EncodedUpTo s (srcRest s) 1 [] ∧
      ¬ NextIsRead s (srcRest s) 1 [] ∧ (∀ b ∈ (srcRest s).take 1, (s.codeAt b).len ≠ 0) ∧
      s.bsnk.mode ≠ .opened ∧ Succeeds 1 s ∧ eventAt s 1 = .succeeds ∧ AbortsRun 2 s) ∧
    ∃ s, s.fault = false ∧ s.cvalid = true ∧ s.edone = false ∧ EncodedUpTo s (srcRest s) 0 [] ∧
      ¬ NextIsRead s (srcRest s) 0 [] ∧ s.bsnk.mode ≠ .opened ∧ Succeeds 0 s ∧ eventAt s 0 = .succeeds ∧ AbortsRun 1 s := by
  have hc : ∀ n (s : State), s.code = coded.code → srcRest s = [0x41#8, 0x42#8] → ∀ b ∈ (srcRest s).take n, (s.codeAt b).len ≠ 0 := by
    intro n s hs hr b hb
    have hb' : b ∈ [0x41#8, 0x42#8] := hr ▸ List.mem_of_mem_take hb
    have : s.codeAt b = coded.codeAt b := by simp [State.codeAt, hs]
    rw [this]
    simp only [List.mem_cons, List.not_mem_nil, or_false] at hb'
    rcases hb' with rfl | rfl <;> decide +kernel
  obtain ⟨e1, n1, -⟩ := encoded_upTo (codedAB (after 2 .fails)) rfl
  obtain ⟨-, -, e2, n2, -⟩ := encoded_upTo (codedAB (after 4 .fails)) rfl
  obtain ⟨-, -, -, -, e3, n3⟩ := encoded_upTo (codedAB (after 5 .fails)) rfl
  have h0 : ¬ [] = codeStream coded [0x41#8] := by decide +kernel
  refine ⟨⟨_, rfl, rfl, rfl, e1, n1, hc _ _ rfl rfl, rfl, (after_spec rfl).1, (after_spec rfl).2.1, (after_spec rfl).2.2⟩,
    ⟨_, rfl, rfl, rfl, e2, n2, hc _ _ rfl rfl, rfl, (after_spec rfl).1, (after_spec rfl).2.1, (after_spec rfl).2.2⟩,
    ⟨_, rfl, rfl, rfl, e3, n3, hc _ _ rfl rfl, rfl, (after_spec rfl).1, (after_spec rfl).2.1, (after_spec rfl).2.2⟩,
    ⟨{ codedAB (after 1 .succeeds) with bsnk := ⟨[], .finalized, []⟩ }, rfl, rfl, rfl, ⟨by decide, List.nil_prefix, List.nil_prefix⟩,
      fun h => h0 h.2, hc _ _ rfl rfl, by decide, (after_spec rfl).1, (after_spec rfl).2.1, (after_spec rfl).2.2⟩,
    ⟨{ coded with bsnk := ⟨[], .aborted, []⟩ }, rfl, rfl, rfl, ⟨Nat.zero_le _, List.nil_prefix, List.nil_prefix⟩,
      fun h => absurd h.1 (Nat.lt_irrefl 0), by decide, fun k hk => absurd hk (Nat.not_lt_zero k), rfl, runs rfl 1⟩⟩

/-- `BDEC`: a refused read, write (on both kinds of tree) and finalize, and the finalize of a sink that is not OPEN;
`DECODE`: a refused first read. -/
theorem witness_RefusedPortCallsNameTheirPort_decode :
    (∃ s, DecodesOn .bdec s s ∧ DecodedUpTo s partsA [true] ∧ StaysInside s [true] ∧
      (partsA.map Prod.snd).flatten ++ [true] ≠ bsrcRest s ∧ s.dsnk.mode = .opened ∧ Succeeds 3 s ∧
      eventAt s 3 = .fails ∧ AbortsRun 4 s) ∧
    (∃ s, DecodesOn .bdec s s ∧ DecodedUpTo s partsA [true, true] ∧ Emits s 0x42 [true, true] ∧ s.dsnk.mode = .opened ∧
      Succeeds 4 s ∧ eventAt s 4 = .fails ∧ AbortsRun 5 s) ∧
    (∃ s, DecodesOn .bdec s s ∧ DecodedUpTo s [(0x5A, [true])] [false] ∧ Emits s 0x5A [false] ∧ s.dsnk.mode = .opened ∧
      Succeeds 3 s ∧ eventAt s 3 = .fails ∧ AbortsRun 4 s) ∧
    (∃ s, DecodesOn .bdec s s ∧ DecodedUpTo s partsA [true] ∧ StaysInside s [true] ∧
      (partsA.map Prod.snd).flatten ++ [true] = bsrcRest s ∧ s.dsnk.mode = .opened ∧ Succeeds 3 s ∧
      eventAt s 3 = .fails ∧ AbortsRun 4 s) ∧
    (∃ s, DecodesOn .bdec s s ∧ DecodedUpTo s [] [] ∧ StaysInside s [] ∧ [] = bsrcRest s ∧ s.dsnk.mode ≠ .opened ∧
      Succeeds 0 s ∧ eventAt s 0 = .succeeds ∧ AbortsRun 1 s) ∧
    ∃ s t, DecodesOn .decode s t ∧ DecodedUpTo t [] [] ∧ StaysInside t [] ∧ [] ≠ bsrcRest s ∧ Succeeds 0 s ∧
      eventAt s 0 = .fails ∧ AbortsRun 1 s := by
  obtain ⟨t, ht⟩ := decode_starts .fails
  exact ⟨⟨_, bdec_starts _ rfl rfl rfl, upTo_path (after 3 .fails), .inr ⟨3, 2, 1, by rfl⟩, by decide, rfl, (after_spec rfl).1,
      (after_spec rfl).2.1, (after_spec rfl).2.2⟩,
    ⟨_, bdec_starts _ rfl rfl rfl, upTo_write (after 4 .fails), emits_B, rfl, (after_spec rfl).1, (after_spec rfl).2.1,
      (after_spec rfl).2.2⟩,
    ⟨_, bdec_starts _ rfl rfl rfl, upTo_lone (after 3 .fails), ⟨4, .inl ⟨by rfl, rfl⟩⟩, rfl, (after_spec rfl).1,
      (after_spec rfl).2.1, (after_spec rfl).2.2⟩,
    ⟨_, bdec_starts _ rfl rfl rfl, upTo_end (after 3 .fails), .inr ⟨3, 2, 1, by rfl⟩, rfl, rfl, (after_spec rfl).1,
      (after_spec rfl).2.1, (after_spec rfl).2.2⟩,
    ⟨{ built with dsnk := ⟨[], .finalized⟩ }, bdec_starts _ rfl rfl rfl, upTo_start _, .inl rfl, rfl, by decide,
      fun k hk => absurd hk (Nat.not_lt_zero k), rfl, runs rfl 1⟩,
    ⟨_, t, ht, upTo_start t, .inl rfl, by decide, fun k hk => absurd hk (Nat.not_lt_zero k), rfl,
      (after_spec (n := 0) (e := .fails) rfl).2.2⟩⟩

theorem witness_DecoderInvertsEncoder : ∃ (s : State) (S : List Byte), s.fault = false ∧ s.tvalid = true ∧
    s.ddone = false ∧ TreeOf s ∧ CodesOf s ∧ NoIoFailure s ∧ s.dsnk = ⟨[], .opened⟩ ∧ s.bsrc = ⟨codeStream s S, 0⟩ ∧
    ∀ b ∈ S, (s.codeAt b).len ≠ 0 :=
  ⟨{ coded with bsrc := ⟨codeStream coded abcBytes, 0⟩ }, abcBytes, rfl, rfl, rfl, coded_tree, coded_codes, quiet rfl,
    rfl, rfl, by decide +kernel⟩

theorem witness_PadBitsDecodeToTheLeftmostLeaf : ∃ (s : State) (S : List Byte) (p : Nat), s.fault = false ∧
    s.tvalid = true ∧ s.ddone = false ∧ TreeOf s ∧ CodesOf s ∧ NoIoFailure s ∧ s.dsnk = ⟨[], .opened⟩ ∧
    s.bsrc = ⟨codeStream s S ++ List.replicate p false, 0⟩ ∧ ∀ b ∈ S, (s.codeAt b).len ≠ 0 :=
  ⟨{ coded with bsrc := ⟨codeStream coded abcBytes ++ List.replicate 7 false, 0⟩ }, abcBytes, 7, rfl, rfl, rfl,
    coded_tree, coded_codes, quiet rfl, rfl, rfl, by decide +kernel⟩

theorem witness_EncodeRunsTheWholePipeline : ∃ s : State, s.fault = false ∧ NoIoFailure s ∧ s.bsnk.mode = .opened ∧
    s.src.data ≠ [] ∧ ∀ b, s.src.data.count b < 2 ^ 32 :=
  ⟨{ State.reset with src := ⟨abcBytes, 3⟩ }, rfl, quiet rfl, rfl, by decide, by decide +kernel⟩

theorem witness_EncodeRejectsEmptyInput : ∃ s : State, s.fault = false ∧ NoIoFailure s ∧ s.src.data = [] :=
  ⟨State.reset, rfl, quiet rfl, rfl⟩

/-- A run that ends well, and one that a port call fails. -/
theorem witness_EncodeEqualsItsSession :
    (∃ s t : State, s.fault = false ∧ NoResetStrike s ∧ exec .encode s = .next t ∧ t.fault = false) ∧
    ∃ s : State, s.fault = false ∧ NoResetStrike s ∧ eventAt s 0 = .fails := by
  obtain ⟨t, h, ht⟩ := ends_next test_encode_ok
  refine ⟨⟨_, t, rfl, fun d hd => by simp [State.reset] at hd, h, by simpa using ht⟩,
    ⟨{ State.reset with draws := [.fails] }, rfl, fun d hd => ?_, rfl⟩⟩
  obtain rfl := List.mem_singleton.1 hd
  decide

theorem witness_DecodeBuildsAndWalks : ∃ s : State, NoResetStrike s ∧ s.fault = false ∧ s.tvalid = false ∧ s.ddone = false ∧ s.live = [] ∧
    NoIoFailure s ∧ s.dsnk.mode = .opened ∧ s.bsrc.pos ≤ s.bsrc.bits.length ∧ ∃ b, s.freqAt b ≠ 0 :=
  ⟨{ loaded with bsrc := ⟨abcStream, 0⟩ }, fun d hd => by simp [loaded, State.reset] at hd, rfl, rfl, rfl, rfl, quiet rfl, rfl, by decide, 0x41, by decide +kernel⟩

theorem witness_RoundTripIsExact : ∃ (s : State) (S : List Byte), s.fault = false ∧ NoIoFailure s ∧ S ≠ [] ∧
    ∀ b, S.count b < 2 ^ 32 :=
  ⟨State.reset, abcBytes, rfl, quiet rfl, by decide, by decide +kernel⟩

/-- All three tables are valid, and the command answers. -/
theorem witness_ValidTablesAreImmutable : ∃ (i : Instr) (s t : State), i ≠ .clr ∧ i ≠ .encode ∧ NoResetStrike s ∧
    exec i s = .next t ∧ s.fvalid = true ∧ s.tvalid = true ∧ s.cvalid = true := by
  obtain ⟨t, h, -⟩ := ends_next test_benc
  exact ⟨.benc, _, t, by decide, by decide, fun d hd => by simp [coded, built, loaded, State.reset] at hd, h, rfl, rfl, rfl⟩

theorem witness_OnlyFourCommandsWritePtr : ∃ (i : Instr) (s t : State), i ≠ .bdec ∧ i ≠ .decode ∧ i ≠ .clr ∧
    i ≠ .encode ∧ NoResetStrike s ∧ exec i s = .next t := by
  obtain ⟨t, h, -⟩ := ends_next test_benc
  exact ⟨.benc, _, t, by decide, by decide, by decide, by decide,
    fun d hd => by simp [coded, built, loaded, State.reset] at hd, h⟩

/-- A command that uses no port meets the three last clauses; one that writes bits, the first ones. -/
theorem witness_PortsAreUsedByTheirCommandsOnly :
    (∃ (i : Instr) (s t : State), exec i s = .next t ∧ i ≠ .facc ∧ i ≠ .benc ∧ i ≠ .encode ∧ i ≠ .rewind ∧ i ≠ .bdec ∧
      i ≠ .decode) ∧
    ∃ s t : State, exec .benc s = .next t := by
  obtain ⟨t, h, -⟩ := ends_next test_cread
  obtain ⟨u, h', -⟩ := ends_next test_benc
  exact ⟨⟨_, _, t, h, by decide, by decide, by decide, by decide, by decide, by decide⟩, ⟨_, u, h'⟩⟩

theorem witness_FinalOutputsAreComplete :
    (∃ (i : Instr) (s t : State), exec i s = .next t ∧ s.bsnk.mode ≠ .finalized ∧ t.bsnk.mode = .finalized) ∧
    ∃ (i : Instr) (s t : State), exec i s = .next t ∧ s.dsnk.mode ≠ .finalized ∧ t.dsnk.mode = .finalized := by
  obtain ⟨t, h, ht⟩ := ends_next test_benc
  obtain ⟨u, h', hu⟩ := ends_next test_bdec
  simp only [decide_eq_true_eq] at ht hu
  exact ⟨⟨_, _, t, h, by decide, by rw [ht.2.1]⟩, ⟨_, _, u, h', by decide, by rw [hu.2.1]⟩⟩

theorem witness_StepKeepsFlagOrder : ∃ s t : State, FlagOrder s ∧ s.fault = false ∧ step s = .next t := by
  obtain ⟨t, h, -⟩ := ends_next test_fetch.1
  exact ⟨_, t, fun _ => by refine ⟨?_, ?_, ?_, ?_⟩ <;> (intro h; exact absurd h (by decide)), rfl, h⟩

theorem witness_StepKeepsTheInvariant : ∃ s t : State, Inv s ∧ s.tvalid = true ∧ s.cvalid = true ∧ step s = .next t :=
  ⟨coded, coded, coded_inv, rfl, rfl, rfl⟩

theorem witness_InvariantStatesNeverStop : ∃ s : State, Inv s ∧ s.tvalid = true ∧ s.cvalid = true :=
  ⟨coded, coded_inv, rfl, rfl⟩

end Sys2Proof.Tests
end

section
/-! The step and the issue of a command word, one equation per case. -/

namespace Sys2Proof.Machine

/-- A step takes the effect of the host's first move on the state in which that move is used up. -/
theorem step_of_host_cons {s : State} {m : HostMove} {rest : List HostMove} (h : s.host = m :: rest) :
    step s = hostStep m { s with host := rest } := by
  simp only [step, h]

theorem issue_of_decode_some {w : CmdWord} {i : Instr} (h : decode w = some i) (s : State) : issue w s = exec i s := by
  simp only [issue, h]

/-- Settles O6: the issue is the effect of the host's command move (R84), and a decoded word runs its command (R111). -/
theorem stepRunsTheIssuedCommand : Obligations.StepRunsTheIssuedCommand := by
  intro s w rest hhost
  have hissue : step s = issue w { s with host := rest } := step_of_host_cons hhost
  exact ⟨hissue, fun _ hdec => hissue.trans (issue_of_decode_some hdec _)⟩

end Sys2Proof.Machine
end

section
/-! What a step keeps: a predicate that the shared operations and every body keep is kept by every step. -/

namespace Sys2Proof.Machine

open Sys2Proof.Safety

theorem step_of_host_nil {s : State} (h : s.host = []) : step s = .next s := by
  simp only [step, h]

theorem issue_of_decode_none {w : CmdWord} (h : decode w = none) (s : State) : issue w s = .next (illegalWord w s) := by
  simp only [issue, h]

/-- A postcondition that asks nothing where a reset cuts the body short and nothing where it is stuck. -/
theorem Body.Post.ends {b : Body} {D D' E E' C : State → Prop} {S : Prop} (h : b.Post D E C S)
    (hD : ∀ s, D s → D' s) (hE : ∀ s, E s → E' s) : b.Post D' E' (fun _ => True) True :=
  h.mono hD hE (fun _ _ => trivial) fun _ => trivial

/-- The predicate `P` is kept by everything a step is made of. `E` is the part of `P` that holds also in the middle of a
command, which is what a fault entry or a clear of the core needs to make `P` hold again. -/
structure KeptByParts (P E : State → Prop) : Prop where
  weaken {s} : P s → E s
  respond {s} (c : BitVec 8) (v : RspValue) : P s → P (respond c v s)
  useMove {s} (rest : List HostMove) : P s → P { s with host := rest }
  attachSrc {s} (data : List Byte) : P s → P (attachSrc data s)
  attachBsrc {s} (bits : List Bool) : P s → P (attachBsrc bits s)
  attachBsnk {s} : P s → P (attachBsnk s)
  attachDsnk {s} : P s → P (attachDsnk s)
  clear {s} (rsp : RspWord) : E s → P { coreClear s with rsp := rsp }
  fault {s} {c : ErrCode} (info : BitVec 16) : c ≠ .efaulted → E s → P (takeFault c info s)
  body {s i b} : P s → s.fault = false → s.ready i = true → bodyOf i s = some b → b.Post P E E True

variable {P E : State → Prop} {s t : State}

theorem KeptByParts.finish (hk : KeptByParts P E) {b : Body} {S : Prop} (hb : b.Post P E E S)
    (ht : b.finish = .next t) : P t := by
  obtain ⟨u, hu, rfl⟩ | ⟨c, n, u, hc, hu, rfl⟩ | ⟨u, hu, rfl⟩ := hb.finish ht
  · exact hk.respond _ _ hu
  · exact hk.fault n hc hu
  · exact hk.clear _ hu

theorem KeptByParts.exec (hk : KeptByParts P E) (hs : P s) {i : Instr} (h : exec i s = .next t) : P t := by
  obtain ⟨-, rfl⟩ | ⟨-, rfl⟩ | ⟨-, -, -, rfl⟩ | ⟨-, -, rfl⟩ | ⟨-, -, v, -, rfl⟩ | ⟨hf, hr, b, hb, ht⟩ :=
    exec_next_cases h
  · exact hk.clear _ (hk.weaken hs)
  · exact hk.respond _ _ hs
  · exact hk.respond _ _ hs
  · exact hk.fault _ (by decide) (hk.weaken hs)
  · exact hk.respond _ _ hs
  · exact hk.finish (hk.body hs hf hr hb) ht

theorem KeptByParts.illegalWord (hk : KeptByParts P E) (hs : P s) (w : CmdWord) : P (illegalWord w s) := by
  unfold Machine.illegalWord
  split
  · exact hk.respond _ _ hs
  · exact hk.fault _ (by decide) (hk.weaken hs)

theorem KeptByParts.issue (hk : KeptByParts P E) (hs : P s) {w : CmdWord} (h : issue w s = .next t) : P t := by
  cases hd : decode w with
  | some i => exact hk.exec hs (by rwa [issue_of_decode_some hd] at h)
  | none =>
    rw [issue_of_decode_none hd] at h
    cases h
    exact hk.illegalWord hs w

theorem KeptByParts.hostStep (hk : KeptByParts P E) (hs : P s) {m : HostMove} (h : hostStep m s = .next t) : P t := by
  cases m with
  | command w => exact hk.issue hs h
  | attachSrc data => cases h; exact hk.attachSrc data hs
  | attachBsrc bits => cases h; exact hk.attachBsrc bits hs
  | attachBsnk => cases h; exact hk.attachBsnk hs
  | attachDsnk => cases h; exact hk.attachDsnk hs
  | reset => cases h; exact hk.clear _ (hk.weaken hs)

/-- What the parts keep, the step keeps. -/
theorem KeptByParts.step (hk : KeptByParts P E) (hs : P s) (h : step s = .next t) : P t := by
  cases hh : s.host with
  | nil =>
    rw [step_of_host_nil hh] at h
    cases h
    exact hs
  | cons m rest => exact hk.hostStep (hk.useMove rest hs) (by rwa [step_of_host_cons hh] at h)

end Sys2Proof.Machine
end

section
/-! The invariant of the machine is kept by every body, hence by every step, and no body is stuck where it holds
(R28, R46, U7). -/

namespace Sys2Proof.Machine

open Sys2Proof.Safety

/-- Every cause but EFAULTED, which is no fault (R287), is one that `ERRCODE` can hold (R280). -/
theorem ErrCode.code_mem_recordedCodes {c : ErrCode} (h : c ≠ .efaulted) : c.code ∈ recordedCodes := by
  cases c with
  | efaulted => exact absurd rfl h
  | _ => decide

end Sys2Proof.Machine

namespace Sys2Proof.Safety

open Sys2Proof.Machine

variable {s t : State}

/-! ### The part of the invariant that holds also in the middle of a command -/

/-- Both cursors stand inside their streams (R61, R64). -/
def CursorsInside (s : State) : Prop :=
  s.src.pos ≤ s.src.data.length ∧ s.bsrc.pos ≤ s.bsrc.bits.length

theorem Inv.cursorsInside (h : Inv s) : CursorsInside s := ⟨h.srcCursor, h.bsrcCursor⟩

theorem CursorsInside.inv_clear (h : CursorsInside s) (rsp : RspWord) : Inv { coreClear s with rsp := rsp } where
  srcCursor := h.1
  bsrcCursor := h.2
  flags _ := ⟨nofun, nofun, nofun, nofun⟩
  noCause _ := ⟨rfl, rfl⟩
  cause := nofun
  noTree _ _ := ⟨rfl, rfl, rfl, rfl⟩
  tree _ := nofun
  noCodes _ _ := rfl
  codes _ := nofun
  noPtr _ _ := rfl
  ptr _ := nofun

/-- While `FAULT = 1` the invariant asks for the cursors and the recorded cause only (U7). -/
theorem CursorsInside.inv_faulted (h : CursorsInside s) {c : ErrCode} (hc : c ≠ .efaulted) (info : BitVec 16) :
    Inv (faulted c info s) where
  srcCursor := h.1
  bsrcCursor := h.2
  flags := nofun
  noCause := nofun
  cause _ := ErrCode.code_mem_recordedCodes hc
  noTree := nofun
  tree := nofun
  noCodes := nofun
  codes := nofun
  noPtr := nofun
  ptr := nofun

theorem CursorsInside.inv_takeFault (h : CursorsInside s) {c : ErrCode} (hc : c ≠ .efaulted) (info : BitVec 16) :
    Inv (takeFault c info s) := by
  obtain he | ⟨-, he⟩ | ⟨-, he⟩ := takeFault_cases c info s <;> rw [he]
  · exact h.inv_faulted hc info
  · exact CursorsInside.inv_clear (s := s.popEvent) h 0
  · exact CursorsInside.inv_clear (s := bitAbort s.popEvent.popEvent) h 0

/-- Settles O58: the state after reset is a cleared core with both cursors at the start of an empty stream. -/
theorem resetSatisfiesTheInvariant : Obligations.ResetSatisfiesTheInvariant :=
  CursorsInside.inv_clear (s := State.reset) ⟨le_rfl, le_rfl⟩ 0

/-! ### What a body moves keeps the cursors inside -/

theorem CursorsInside.of_faccFrame (h : CursorsInside s) (ht : FaccFrame s.src.remaining s t) : CursorsInside t := by
  obtain ⟨hs, hb⟩ := h
  obtain ⟨f, p, d, rfl, -, -, hp⟩ := ht
  unfold ByteSource.remaining at hp
  exact ⟨show p ≤ s.src.data.length by omega, hb⟩

theorem CursorsInside.of_bencFrame (h : CursorsInside s) (ht : BencFrame s.src.remaining s t) : CursorsInside t := by
  obtain ⟨hs, hb⟩ := h
  obtain ⟨w, p, d, rfl, -, -, hp⟩ := ht
  unfold ByteSource.remaining at hp
  exact ⟨show p ≤ s.src.data.length by omega, hb⟩

theorem CursorsInside.of_bdecFrame (h : CursorsInside s) (ht : BdecFrame s.bsrc.remaining s t) : CursorsInside t := by
  obtain ⟨hs, hb⟩ := h
  obtain ⟨q, w, p, d, rfl, -, -, hp⟩ := ht
  unfold BitSource.remaining at hp
  exact ⟨hs, show p ≤ s.bsrc.bits.length by omega⟩

theorem CursorsInside.of_decodeFrame (h : CursorsInside s) (ht : DecodeFrame s t) : CursorsInside t := by
  obtain ⟨hs, hb⟩ := h
  obtain ⟨w, p, d, ht, -, -, hp⟩ := ht
  unfold BitSource.remaining at hp
  rw [ht]
  exact ⟨hs, show p ≤ s.bsrc.bits.length by omega⟩

theorem CursorsInside.of_encodeFrame (h : CursorsInside s) (ht : EncodeFrame s t) : CursorsInside t := by
  obtain ⟨hs, hb⟩ := h
  obtain ⟨w, p, d, ht, -, hp⟩ := ht
  rw [ht]
  exact ⟨show p ≤ s.src.data.length by omega, hb⟩

/-! ### The bodies -/

theorem FlagOrder.tvalid_of_not_fvalid (h : FlagOrder s) (hf : s.fault = false) (hv : s.fvalid = false) :
    s.tvalid = false := by
  obtain ⟨htf, -⟩ := h hf
  exact Bool.eq_false_iff.2 fun ht => Bool.eq_false_iff.1 hv (htf ht)

theorem FlagOrder.cvalid_of_not_tvalid (h : FlagOrder s) (hf : s.fault = false) (hv : s.tvalid = false) :
    s.cvalid = false := by
  obtain ⟨-, hct, -⟩ := h hf
  exact Bool.eq_false_iff.2 fun hc => Bool.eq_false_iff.1 hv (hct hc)

theorem FlagOrder.ddone_of_not_tvalid (h : FlagOrder s) (hf : s.fault = false) (hv : s.tvalid = false) :
    s.ddone = false := by
  obtain ⟨-, -, -, hdt⟩ := h hf
  exact Bool.eq_false_iff.2 fun hd => Bool.eq_false_iff.1 hv (hdt hd)

theorem Inv.live_eq_nil (h : Inv s) (hf : s.fault = false) (ht : s.tvalid = false) : s.live = [] := by
  obtain ⟨-, hl, -⟩ := h.noTree hf ht
  exact hl

theorem Inv.setSrcPos (h : Inv s) {p : Nat} (hp : p ≤ s.src.data.length) (d : List PortEvent) :
    Inv { s with src := { s.src with pos := p }, draws := d } := { h with srcCursor := hp }

/-- While the map is not sealed its counters may change, and it may be sealed (R22, R23). -/
theorem Inv.writeMap (h : Inv s) (hf : s.fault = false) (hv : s.fvalid = false)
    (freq : Vector Count Config.numSymbols) {v : Bool} : Inv { s with freq := freq, fvalid := v } :=
  have ht : ¬ s.tvalid = true := Bool.eq_false_iff.1 (FlagOrder.tvalid_of_not_fvalid h.flags hf hv)
  have ⟨_, hct, hec, hdt⟩ := h.flags hf
  { h with
    flags := fun _ => ⟨fun h' => absurd h' ht, hct, hec, hdt⟩
    tree := fun _ h' => absurd h' ht }

theorem Inv.srcRewind_post (h : Inv s) : (srcRewind s).Post Inv CursorsInside CursorsInside False := by
  refine Machine.srcRewind_post.mono ?_ ?_ ?_ id
  · rintro t rfl
    exact h.setSrcPos (Nat.zero_le _) _
  · rintro t rfl
    exact h.cursorsInside
  · rintro t ⟨rfl, -⟩
    exact h.cursorsInside

theorem Inv.faccBody_post (h : Inv s) (hf : s.fault = false) (hv : s.fvalid = false) :
    (faccBody s).Post Inv CursorsInside CursorsInside False := by
  have hc := h.cursorsInside
  refine Machine.faccBody_post.mono ?_ (fun t ht => hc.of_faccFrame ht) (fun t ht => hc.of_faccFrame ht.1) id
  rintro t ⟨u, hu, rfl, -⟩
  obtain ⟨hp, -⟩ := hc.of_faccFrame hu
  obtain ⟨f, p, d, rfl, -⟩ := hu
  exact (h.setSrcPos hp d).writeMap hf hv f

theorem Inv.floadBody_post (h : Inv s) (hf : s.fault = false) (hv : s.fvalid = false) (sym : Symbol)
    (count : BitVec 32) : (floadBody sym count s).Post Inv CursorsInside CursorsInside False := by
  refine Machine.floadBody_post.mono ?_ ?_ (fun _ => False.elim) id
  · rintro t rfl
    exact h.writeMap hf hv _
  · rintro t rfl
    exact h.cursorsInside

theorem Inv.tbuildBody_post (h : Inv s) (hf : s.fault = false) (ht : s.tvalid = false) :
    (tbuildBody s).Post Inv CursorsInside CursorsInside False := by
  refine (Machine.tbuildBody_post (h.live_eq_nil hf ht)).mono ?_ ?_ (fun _ => False.elim) id
  · rintro t ⟨hT, ht'⟩
    have hcv := FlagOrder.cvalid_of_not_tvalid h.flags hf ht
    have hdd := FlagOrder.ddone_of_not_tvalid h.flags hf ht
    obtain ⟨-, -, hec, -⟩ := h.flags hf
    rw [ht'] at hT ⊢
    exact { h with
      flags := fun _ => ⟨fun _ => rfl, fun _ => rfl, hec, fun _ => rfl⟩
      noTree := fun _ => nofun
      tree := fun _ _ => hT
      codes := fun _ h' => absurd h' (Bool.eq_false_iff.1 hcv)
      ptr := fun _ h' => absurd h' (Bool.eq_false_iff.1 hdd) }
  · rintro t ⟨rfl, -⟩
    exact h.cursorsInside

theorem Inv.cgenBody_post (h : Inv s) (hf : s.fault = false) (ht : s.tvalid = true) (hcv : s.cvalid = false) :
    (cgenBody s).Post Inv CursorsInside CursorsInside False := by
  refine Machine.cgenBody_post.mono ?_ (fun _ => False.elim) (fun _ => False.elim) fun hno => hno (h.tree hf ht)
  rintro t ⟨hC, ht'⟩
  obtain ⟨htf, -, -, hdt⟩ := h.flags hf
  rw [h.noCodes hf hcv] at hC
  rw [ht']
  exact { h with
    flags := fun _ => ⟨htf, fun _ => ht, fun _ => rfl, hdt⟩
    noCodes := fun _ => nofun
    codes := fun _ _ => hC }

theorem Inv.bencBody_post (h : Inv s) (hf : s.fault = false) (hcv : s.cvalid = true) :
    (bencBody s).Post Inv CursorsInside CursorsInside False := by
  have hc := h.cursorsInside
  refine Machine.bencBody_post.mono ?_ (fun t ht => hc.of_bencFrame ht) (fun t ht => hc.of_bencFrame ht.1) id
  rintro t ⟨u, hu, -, -, rfl⟩
  obtain ⟨hp, -⟩ := hc.of_bencFrame hu
  obtain ⟨htf, hct, -, hdt⟩ := h.flags hf
  obtain ⟨w, p, d, rfl, -⟩ := hu
  exact { h with
    srcCursor := hp
    flags := fun _ => ⟨htf, hct, fun _ => hcv, hdt⟩ }

theorem Inv.bdecBody_post (h : Inv s) (hf : s.fault = false) (ht : s.tvalid = true) :
    (bdecBody s).Post Inv CursorsInside CursorsInside False := by
  have hc := h.cursorsInside
  refine Machine.bdecBody_post.mono ?_ (fun t ht => hc.of_bdecFrame ht) (fun t ht => hc.of_bdecFrame ht.1)
    fun hno => hno ⟨_, (h.tree hf ht).strictTree⟩
  rintro t ⟨u, hu, -, hptr, -, rfl⟩
  obtain ⟨-, hp⟩ := hc.of_bdecFrame hu
  obtain ⟨htf, hct, hec, -⟩ := h.flags hf
  obtain ⟨q, w, p, d, rfl, -⟩ := hu
  exact { h with
    bsrcCursor := hp
    flags := fun _ => ⟨htf, hct, hec, fun _ => ht⟩
    noPtr := fun _ => nofun
    ptr := fun _ _ => hptr }

theorem Inv.encodeBody_post (h : Inv s) : (encodeBody s).Post Inv CursorsInside CursorsInside False := by
  have hc := h.cursorsInside
  refine Machine.encodeBody_post.mono ?_ (fun t ht => hc.of_encodeFrame ht) (fun t ht => hc.of_encodeFrame ht.1) id
  rintro t ⟨hT, hC, -, w, d, -, ht⟩
  rw [ht] at hT hC ⊢
  exact {
    srcCursor := le_rfl
    bsrcCursor := h.bsrcCursor
    flags := fun _ => ⟨fun _ => rfl, fun _ => rfl, fun _ => rfl, nofun⟩
    noCause := fun _ => ⟨rfl, rfl⟩
    cause := nofun
    noTree := fun _ => nofun
    tree := fun _ _ => hT
    noCodes := fun _ => nofun
    codes := fun _ _ => hC
    noPtr := fun _ _ => rfl
    ptr := fun _ => nofun }

theorem Inv.decodeBody_post (h : Inv s) (hf : s.fault = false) (ht : s.tvalid = false) :
    (decodeBody s).Post Inv CursorsInside CursorsInside False := by
  have hc := h.cursorsInside
  have hl := h.live_eq_nil hf ht
  refine (Machine.decodeBody_post (S := False) (.inr hl)).mono ?_ (fun t ht => hc.of_decodeFrame ht)
    (fun t ht => hc.of_decodeFrame ht.1) id
  rintro t ⟨hT, hptr, -, w, d, -, ht'⟩
  have hT := hT hl
  have hcv := FlagOrder.cvalid_of_not_tvalid h.flags hf ht
  have hp : s.bsrc.pos + s.bsrc.remaining ≤ s.bsrc.bits.length := by
    have := h.bsrcCursor
    unfold BitSource.remaining
    omega
  obtain ⟨-, -, hec, -⟩ := h.flags hf
  rw [ht'] at hT hptr ⊢
  exact { h with
    bsrcCursor := hp
    flags := fun _ => ⟨fun _ => rfl, fun _ => rfl, hec, fun _ => rfl⟩
    noTree := fun _ => nofun
    tree := fun _ _ => hT
    codes := fun _ h' => absurd h' (Bool.eq_false_iff.1 hcv)
    noPtr := fun _ => nofun
    ptr := fun _ _ => hptr }

/-- From a state with the invariant a command that is ready is never stuck; its body ends with the invariant, or in a
state from which a fault entry or a reset leads back to it. -/
theorem Inv.bodyOf_post {i : Instr} {b : Body} (h : Inv s) (hf : s.fault = false) (hr : s.ready i = true)
    (hb : bodyOf i s = some b) : b.Post Inv CursorsInside CursorsInside False := by
  cases i with
  | clr | stat | fread _ | cread _ _ => cases hb
  | rewind => cases hb; exact h.srcRewind_post
  | facc => cases hb; exact h.faccBody_post hf (by simpa [State.ready] using hr)
  | fload sym count => cases hb; exact h.floadBody_post hf (by simpa [State.ready] using hr) sym count
  | tbuild => cases hb; exact h.tbuildBody_post hf (by simpa [State.ready] using hr)
  | cgen =>
    obtain ⟨ht, hcv⟩ : s.tvalid = true ∧ s.cvalid = false := by simpa [State.ready] using hr
    cases hb
    exact h.cgenBody_post hf ht hcv
  | benc =>
    obtain ⟨hcv, -⟩ : s.cvalid = true ∧ s.edone = false := by simpa [State.ready] using hr
    cases hb
    exact h.bencBody_post hf hcv
  | bdec =>
    obtain ⟨ht, -⟩ : s.tvalid = true ∧ s.ddone = false := by simpa [State.ready] using hr
    cases hb
    exact h.bdecBody_post hf ht
  | encode => cases hb; exact h.encodeBody_post
  | decode =>
    obtain ⟨ht, -⟩ : s.tvalid = false ∧ s.ddone = false := by simpa [State.ready] using hr
    cases hb
    exact h.decodeBody_post hf ht

/-! ### The step -/

theorem inv_keptByParts : KeptByParts Inv CursorsInside where
  weaken h := h.cursorsInside
  respond _ _ h := { h with }
  useMove _ h := { h with }
  attachSrc _ h := { h with srcCursor := Nat.zero_le _ }
  attachBsrc _ h := { h with bsrcCursor := Nat.zero_le _ }
  attachBsnk h := { h with }
  attachDsnk h := { h with }
  clear rsp h := h.inv_clear rsp
  fault info hc h := h.inv_takeFault hc info
  body h hf hr hb := (h.bodyOf_post hf hr hb).mono (fun _ => id) (fun _ => id) (fun _ => id) False.elim

/-- Settles O59: the host's moves, the fault entry, the clear and every body keep the invariant. -/
theorem stepKeepsTheInvariant : Obligations.StepKeepsTheInvariant := fun _ _ hs h => inv_keptByParts.step hs h

theorem Inv.exec_completes (h : Inv s) (i : Instr) : ∃ t, exec i s = .next t :=
  Machine.exec_completes fun _ hb hf hr => (h.bodyOf_post hf hr hb).completes

theorem Inv.hostStep_completes (h : Inv s) (m : HostMove) : ∃ t, hostStep m s = .next t := by
  cases m with
  | command w =>
    cases hd : decode w with
    | some i => exact (h.exec_completes i).imp fun t ht => (issue_of_decode_some hd s).trans ht
    | none => exact ⟨illegalWord w s, issue_of_decode_none hd s⟩
  | _ => exact ⟨_, rfl⟩

/-- Settles O60: no move of the host stops the machine, since no body is stuck where the invariant holds. -/
theorem invariantStatesNeverStop : Obligations.InvariantStatesNeverStop := by
  intro s h
  cases hh : s.host with
  | nil => exact ⟨s, step_of_host_nil hh⟩
  | cons m rest =>
    rw [step_of_host_cons hh]
    exact (inv_keptByParts.useMove rest h).hostStep_completes m

end Sys2Proof.Safety
end

section
/-! The flag implications of R46 are kept by every step, also where the rest of the invariant does not hold. -/

namespace Sys2Proof.Safety

open Sys2Proof.Machine

variable {s t : State}

theorem flagOrder_faulted (c : ErrCode) (info : BitVec 16) (s : State) : FlagOrder (faulted c info s) := nofun

theorem flagOrder_clear (rsp : RspWord) (s : State) : FlagOrder { coreClear s with rsp := rsp } :=
  fun _ => ⟨nofun, nofun, nofun, nofun⟩

theorem flagOrder_takeFault (c : ErrCode) (info : BitVec 16) (s : State) : FlagOrder (takeFault c info s) := by
  obtain he | ⟨-, he⟩ | ⟨-, he⟩ := takeFault_cases c info s <;> rw [he]
  · exact flagOrder_faulted c info s
  · exact flagOrder_clear 0 s.popEvent
  · exact flagOrder_clear 0 (bitAbort s.popEvent.popEvent)

/-- A body that is ready raises a flag only where the flags it implies are set (R46). -/
theorem FlagOrder.bodyOf_post {i : Instr} {b : Body} (h : FlagOrder s) (hf : s.fault = false) (hr : s.ready i = true)
    (hb : bodyOf i s = some b) : b.Post FlagOrder (fun _ => True) (fun _ => True) True := by
  obtain ⟨htf, hct, hec, hdt⟩ := h hf
  cases i with
  | clr | stat | fread _ | cread _ _ => cases hb
  | rewind =>
    cases hb
    refine srcRewind_post.ends ?_ fun _ _ => trivial
    rintro t rfl
    exact h
  | facc =>
    cases hb
    refine faccBody_post.ends ?_ fun _ _ => trivial
    rintro t ⟨u, ⟨f, p, d, rfl, -⟩, rfl, -⟩
    exact fun _ => ⟨fun _ => rfl, hct, hec, hdt⟩
  | fload sym count =>
    cases hb
    refine floadBody_post.ends ?_ fun _ _ => trivial
    rintro t rfl
    exact h
  | tbuild =>
    cases hb
    refine tbuildBody_frame.ends (fun t ht => ?_) fun _ _ => trivial
    rw [ht]
    exact fun _ => ⟨fun _ => rfl, fun _ => rfl, hec, fun _ => rfl⟩
  | cgen =>
    obtain ⟨htv, -⟩ : s.tvalid = true ∧ s.cvalid = false := by simpa [State.ready] using hr
    cases hb
    refine cgenBody_post.ends (fun t ⟨_, ht⟩ => ?_) fun _ _ => trivial
    rw [ht]
    exact fun _ => ⟨htf, fun _ => htv, fun _ => rfl, hdt⟩
  | benc =>
    obtain ⟨hcv, -⟩ : s.cvalid = true ∧ s.edone = false := by simpa [State.ready] using hr
    cases hb
    refine bencBody_post.ends ?_ fun _ _ => trivial
    rintro t ⟨u, ⟨w, p, d, rfl, -⟩, -, -, rfl⟩
    exact fun _ => ⟨htf, hct, fun _ => hcv, hdt⟩
  | bdec =>
    obtain ⟨htv, -⟩ : s.tvalid = true ∧ s.ddone = false := by simpa [State.ready] using hr
    cases hb
    refine bdecBody_post.ends ?_ fun _ _ => trivial
    rintro t ⟨u, ⟨q, w, p, d, rfl, -⟩, -, -, -, rfl⟩
    exact fun _ => ⟨htf, hct, hec, fun _ => htv⟩
  | encode =>
    cases hb
    refine encodeBody_post.ends ?_ fun _ _ => trivial
    rintro t ⟨-, -, -, w, d, -, ht⟩
    rw [ht]
    exact fun _ => ⟨fun _ => rfl, fun _ => rfl, fun _ => rfl, nofun⟩
  | decode =>
    cases hb
    refine (decodeBody_post (S := True) (.inl trivial)).ends ?_ fun _ _ => trivial
    rintro t ⟨-, -, -, w, d, -, ht⟩
    rw [ht]
    exact fun _ => ⟨fun _ => rfl, fun _ => rfl, hec, fun _ => rfl⟩

theorem flagOrder_keptByParts : KeptByParts FlagOrder fun _ => True where
  weaken _ := trivial
  respond _ _ h := h
  useMove _ h := h
  attachSrc _ h := h
  attachBsrc _ h := h
  attachBsnk h := h
  attachDsnk h := h
  clear rsp _ := flagOrder_clear rsp _
  fault info _ _ := flagOrder_takeFault _ info _
  body h hf hr hb := h.bodyOf_post hf hr hb

/-- Settles O57: the host's moves, the fault entry, the clear and every body keep the flag implications. -/
theorem stepKeepsFlagOrder : Obligations.StepKeepsFlagOrder := fun _ _ hs h => flagOrder_keptByParts.step hs h

end Sys2Proof.Safety
end

section
/-! What a command without a reset leaves as it was: the valid tables (R23, R31, R35) and `PTR` (R36). -/

namespace Sys2Proof.Machine

open Sys2Proof.Safety

variable {s t : State}

/-- What a response, a fault entry and the body of a command keep, the command keeps, unless it is `CLR` or a reset
strikes in it. -/
theorem exec_keeps {P : State → Prop} {i : Instr} (h : exec i s = .next t) (hclr : i ≠ .clr) (hn : NoResetStrike s)
    (hs : P s) (hrespond : ∀ c v u, P u → P (respond c v u)) (hfault : ∀ c n u, P u → P (faulted c n u))
    (hbody : ∀ b, s.ready i = true → bodyOf i s = some b → b.Post P P (fun _ => True) True) : P t := by
  obtain ⟨hi, -⟩ | ⟨-, rfl⟩ | ⟨-, -, -, rfl⟩ | ⟨-, -, rfl⟩ | ⟨-, -, v, -, rfl⟩ | ⟨-, hr, b, hb, ht⟩ :=
    exec_next_cases h
  · exact absurd hi hclr
  · exact hrespond _ _ _ hs
  · exact hrespond _ _ _ hs
  · rw [takeFault_eq _ _ (hn.abortsRun 0)]
    exact hfault _ _ _ hs
  · exact hrespond _ _ _ hs
  · have hp := hbody b hr hb
    obtain ⟨u, rfl, rfl⟩ | ⟨c, n, u, rfl, rfl⟩ := finish_of_noResetStrike hb hn ht
    · exact hrespond _ _ _ hp
    · exact hfault _ _ _ hp.2

/-! ### The valid tables -/

/-- The tables that are valid in `s` are the same in `t`. -/
def ValidTablesKept (s t : State) : Prop :=
  (s.fvalid = true → t.freq = s.freq) ∧
  (s.tvalid = true → t.node = s.node ∧ t.live = s.live ∧ t.nsym = s.nsym ∧ t.root = s.root) ∧
  (s.cvalid = true → t.code = s.code)

theorem ValidTablesKept.refl (s : State) : ValidTablesKept s s :=
  ⟨fun _ => rfl, fun _ => ⟨rfl, rfl, rfl, rfl⟩, fun _ => rfl⟩

theorem ValidTablesKept.of_not_fvalid (hv : s.fvalid = false)
    (ht : t.node = s.node ∧ t.live = s.live ∧ t.nsym = s.nsym ∧ t.root = s.root) (hc : t.code = s.code) :
    ValidTablesKept s t :=
  ⟨fun h => absurd h (Bool.eq_false_iff.1 hv), fun _ => ht, fun _ => hc⟩

theorem ValidTablesKept.of_not_tvalid (hv : s.tvalid = false) (hf : t.freq = s.freq) (hc : t.code = s.code) :
    ValidTablesKept s t :=
  ⟨fun _ => hf, fun h => absurd h (Bool.eq_false_iff.1 hv), fun _ => hc⟩

theorem ValidTablesKept.of_not_cvalid (hv : s.cvalid = false) (hf : t.freq = s.freq)
    (ht : t.node = s.node ∧ t.live = s.live ∧ t.nsym = s.nsym ∧ t.root = s.root) : ValidTablesKept s t :=
  ⟨fun _ => hf, fun _ => ht, fun h => absurd h (Bool.eq_false_iff.1 hv)⟩

/-- A command's precondition keeps it from the tables that are valid (R284). -/
theorem bodyOf_validTablesKept {i : Instr} {b : Body} (hi : i ≠ .encode) (hr : s.ready i = true)
    (hb : bodyOf i s = some b) :
    b.Post (ValidTablesKept s) (ValidTablesKept s) (fun _ => True) True := by
  cases i with
  | clr | stat | fread _ | cread _ _ => cases hb
  | encode => exact absurd rfl hi
  | rewind =>
    cases hb
    exact srcRewind_post.ends (by rintro t rfl; exact .refl _) (by rintro t rfl; exact .refl _)
  | facc =>
    have hv : s.fvalid = false := by simpa [State.ready] using hr
    cases hb
    exact faccBody_post.ends
      (by rintro t ⟨u, ⟨f, p, d, rfl, -⟩, rfl, -⟩; exact .of_not_fvalid hv ⟨rfl, rfl, rfl, rfl⟩ rfl)
      (by rintro t ⟨f, p, d, rfl, -⟩; exact .of_not_fvalid hv ⟨rfl, rfl, rfl, rfl⟩ rfl)
  | fload sym count =>
    have hv : s.fvalid = false := by simpa [State.ready] using hr
    cases hb
    exact floadBody_post.ends (by rintro t rfl; exact .of_not_fvalid hv ⟨rfl, rfl, rfl, rfl⟩ rfl)
      (by rintro t rfl; exact .refl _)
  | tbuild =>
    have hv : s.tvalid = false := by simpa [State.ready] using hr
    cases hb
    refine tbuildBody_frame.ends (fun t ht => ?_) (fun t ht => ?_)
    · rw [ht]
      exact .of_not_tvalid hv rfl rfl
    · rw [ht]
      exact .of_not_tvalid hv rfl rfl
  | cgen =>
    obtain ⟨-, hv⟩ : s.tvalid = true ∧ s.cvalid = false := by simpa [State.ready] using hr
    cases hb
    refine cgenBody_post.ends (fun t ⟨_, ht⟩ => ?_) (fun _ => False.elim)
    rw [ht]
    exact .of_not_cvalid hv rfl ⟨rfl, rfl, rfl, rfl⟩
  | benc =>
    cases hb
    exact bencBody_post.ends (by rintro t ⟨u, ⟨w, p, d, rfl, -⟩, -, -, rfl⟩; exact .refl _)
      (by rintro t ⟨w, p, d, rfl, -⟩; exact .refl _)
  | bdec =>
    cases hb
    exact bdecBody_post.ends (by rintro t ⟨u, ⟨q, w, p, d, rfl, -⟩, -, -, -, rfl⟩; exact .refl _)
      (by rintro t ⟨q, w, p, d, rfl, -⟩; exact .refl _)
  | decode =>
    obtain ⟨hv, -⟩ : s.tvalid = false ∧ s.ddone = false := by simpa [State.ready] using hr
    cases hb
    refine (decodeBody_post (S := True) (.inl trivial)).ends ?_ ?_
    · rintro t ⟨-, -, -, w, d, -, ht⟩
      rw [ht]
      exact .of_not_tvalid hv rfl rfl
    · rintro t ⟨w, p, d, ht, -⟩
      rw [ht]
      exact .of_not_tvalid hv rfl rfl

/-- Settles O53: a response and a fault entry write no table, and a ready body none that is valid. -/
theorem validTablesAreImmutable : Obligations.ValidTablesAreImmutable := by
  intro i s t hclr hencode hn h
  exact exec_keeps (P := ValidTablesKept s) h hclr hn (.refl s) (fun _ _ _ hu => hu) (fun _ _ _ hu => hu)
    fun _ hr hb => bodyOf_validTablesKept hencode hr hb

/-! ### The decoder's pointer -/

theorem bodyOf_ptr {i : Instr} {b : Body} (hbdec : i ≠ .bdec) (hdecode : i ≠ .decode) (hencode : i ≠ .encode)
    (hb : bodyOf i s = some b) :
    b.Post (fun t => t.ptr = s.ptr) (fun t => t.ptr = s.ptr) (fun _ => True) True := by
  cases i with
  | clr | stat | fread _ | cread _ _ => cases hb
  | bdec => exact absurd rfl hbdec
  | decode => exact absurd rfl hdecode
  | encode => exact absurd rfl hencode
  | rewind =>
    cases hb
    exact srcRewind_post.ends (by rintro t rfl; rfl) (by rintro t rfl; rfl)
  | facc =>
    cases hb
    exact faccBody_post.ends (by rintro t ⟨u, ⟨f, p, d, rfl, -⟩, rfl, -⟩; rfl) (by rintro t ⟨f, p, d, rfl, -⟩; rfl)
  | fload sym count =>
    cases hb
    exact floadBody_post.ends (by rintro t rfl; rfl) (by rintro t rfl; rfl)
  | tbuild =>
    cases hb
    exact tbuildBody_frame.ends (fun t ht => by rw [ht]) (fun t ht => by rw [ht])
  | cgen =>
    cases hb
    exact cgenBody_post.ends (fun t ⟨_, ht⟩ => by rw [ht]) (fun _ => False.elim)
  | benc =>
    cases hb
    exact bencBody_post.ends (by rintro t ⟨u, ⟨w, p, d, rfl, -⟩, -, -, rfl⟩; rfl) (by rintro t ⟨w, p, d, rfl, -⟩; rfl)

/-- Settles O54: a response and a fault entry leave `PTR` as it was, and so do the bodies of the other commands. -/
theorem onlyFourCommandsWritePtr : Obligations.OnlyFourCommandsWritePtr := by
  intro i s t hbdec hdecode hclr hencode hn h
  exact exec_keeps (P := fun t => t.ptr = s.ptr) h hclr hn rfl (fun _ _ _ hu => hu) (fun _ _ _ hu => hu)
    fun _ _ hb => bodyOf_ptr hbdec hdecode hencode hb

end Sys2Proof.Machine
end

section
/-! A hardware reset between two commands, or at a port call of `BDEC` or `DECODE` (R320, R321). -/

namespace Sys2Proof.Machine

open Sys2Proof.Safety

variable {s t : State}

theorem hardReset_eq (s : State) : hardReset s = { State.reset with
    src := s.src, bsnk := s.bsnk, bsrc := s.bsrc, dsnk := s.dsnk, draws := s.draws, host := s.host } := rfl

/-- A reset that strikes at the port call number `n` finds the environment at that call. -/
theorem nextEvent_of_draws_drop {n : Nat} (ht : t.draws = s.draws.drop n) : t.nextEvent = eventAt s n := by
  rw [← eventAt_zero, eventAt_of_drop ht, Nat.add_zero]

/-- A body whose coming line is a port call that a reset strikes at (R320). -/
theorem finish_portCall_of_reset {p : Port} {act : State → Option Body} {k : State → Body}
    (h : s.nextEvent = .resetStrikes) : ((portCall p act s).andThen k).finish = .next (hardReset s.popEvent) := by
  rw [portCall_of_reset h, Body.cut_andThen, Body.finish_cut]

/-- Settles O14: between two commands by the host's move; in a decode run because it has come to the port call that the
reset strikes at (`bdecBody_next`). -/
theorem hardwareResetKeepsStreams : Obligations.HardwareResetKeepsStreams := by
  constructor
  · intro s rest hh
    exact step_of_host_cons hh
  · intro i s t parts x n hd hup hm hn hs he
    subst hn
    obtain ⟨hexec, hsrc, hbsrc, hbsnk, hdsnk, hdraws, hhost⟩ := decodesOn_exec hd
    have hdrop : t.draws = s.draws.drop 0 := hdraws
    obtain ⟨q, p, act, k, hbody, -⟩ :=
      bdecBody_next hup (Succeeds.of_drop (m := 0) (by rwa [Nat.zero_add]) hdrop) (by rwa [hdsnk])
    rw [hexec, hbody, finish_portCall_of_reset ((nextEvent_of_draws_drop rfl).trans _), hardReset_eq]
    · simp [hsrc, hbsrc, hbsnk, hdsnk, hdraws, hhost, State.popEvent]
    · rw [eventAt_of_drop hdrop, Nat.zero_add, he]

end Sys2Proof.Machine
end

section
/-! The leaves of the builder's tree (R27, R151), the stored codes (R32, R34, R175), and the words that `STAT` and
`CREAD` answer (R39, R173). -/

namespace Sys2Proof.Machine

open Sys2Proof.Safety

variable {s : State}

/-! ### Leaves and codes -/

/-- Settles O29: `counted` lists the symbols with a counter that is not 0, and the leaves stand as it lists them. -/
theorem leavesStandInSymbolOrder : Obligations.LeavesStandInSymbolOrder := by
  intro s ht
  have hnsym : s.nsym.toNat = (counted s.freq).length := by rw [ht.nsym_toNat, initLeaves_length]
  refine ⟨hnsym, fun i n (hn : (counted s.freq)[i]? = some n) =>
    ⟨zextFreq (s.freq[n]?.getD 0), ?_, zextFreq_toNat _⟩⟩
  have hi : i < (initLeaves s.freq).length := by
    rw [initLeaves_length]
    exact (List.getElem?_eq_some_iff.1 hn).1
  rw [ht.leaf_getElem hi, initLeaves_eq, List.getElem?_map, hn, Option.map_some]

/-- Settles O34: a counted symbol's code is stored from a bit string of 1 to 255 bits, any other symbol has none. -/
theorem exactlyCountedSymbolsHaveCodes : Obligations.ExactlyCountedSymbolsHaveCodes := by
  intro s ht hc b
  refine ⟨hc.len_ne_zero_iff ht, fun n hn => ?_⟩
  by_cases hb : s.freqAt b = 0
  · rw [hc.no_code ht hb]
    exact BitVec.getLsbD_zero
  · obtain ⟨q, -, hlen, hq⟩ := hc.stored ht hb
    rw [hq] at hn ⊢
    rw [Code.ofBits_len hlen] at hn
    exact Code.ofBits_low hn

/-! ### The status word -/

theorem status_getLsbD_of_lt (s : State) {n : Nat} (hn : n < 6) : s.status.getLsbD n = s.flagBits.getLsbD n :=
  (BitVec.getLsbD_append (n := 50) (m := 6)).trans (if_pos hn)

/-- The fields above the flags are those of the concatenation above the flags. -/
theorem status_extractLsb'_of_le (s : State) {start len : Nat} (h : 6 ≤ start) :
    s.status.extractLsb' start len =
      (0#8 ++ s.errinfo ++ 0#7 ++ s.nsym ++ s.errcode ++ 0#2).extractLsb' (start - 6) len :=
  BitVec.extractLsb'_append_eq_of_le (v := 50) (w := 6) h

theorem flagBits_getLsbD_zero (s : State) : s.flagBits.getLsbD 0 = s.fvalid := by
  refine (BitVec.getLsbD_append (n := 5) (m := 1)).trans ?_
  simp

theorem flagBits_getLsbD_succ (s : State) (n : Nat) : s.flagBits.getLsbD (n + 1) =
    (BitVec.ofBool s.fault ++ BitVec.ofBool s.ddone ++ BitVec.ofBool s.edone ++ BitVec.ofBool s.cvalid ++
      BitVec.ofBool s.tvalid).getLsbD n :=
  (BitVec.getLsbD_append (n := 5) (m := 1)).trans (if_neg (by omega))

/-- Settles O16: `STAT` answers `State.status`, whose fields are read off the concatenation that it is. -/
theorem statReadsTheStatusWord : Obligations.StatReadsTheStatusWord := by
  intro s
  refine ⟨s.status, rfl, ?_, ?_, ?_, ?_, ?_, ?_, ?_, ?_, ?_, ?_, ?_, ?_⟩
  · rw [status_getLsbD_of_lt s (by decide), flagBits_getLsbD_zero]
  iterate 5
    · rw [status_getLsbD_of_lt s (by decide), flagBits_getLsbD_succ]
      simp [BitVec.getLsbD_append, -Nat.reduceAdd, -BitVec.getLsbD_eq_getElem]
  all_goals
    rw [status_extractLsb'_of_le s (by decide)]
    simp (disch := decide) [BitVec.extractLsb'_append_eq_of_le, BitVec.extractLsb'_append_eq_of_add_le, -Nat.reduceAdd]

/-! ### The chunk of a code -/

/-- A ready command that reads a value answers it and changes nothing but `RSP` (R133, R173). -/
theorem exec_of_answer {i : Instr} {v : RspValue} (hf : s.fault = false) (hr : s.ready i = true)
    (hv : answerOf i s = some v) : exec i s = .next (respond okCode v s) := by
  cases i with
  | fread sym => cases hv; rw [exec, execFread, dispatch_of_ready hf hr]
  | cread sym j => cases hv; rw [exec, execCread, dispatch_of_ready hf hr]
  | _ => cases hv

theorem Code.value_zero_field (c : Code) (j : BitVec 3) : (c.value j).extractLsb' 40 16 = 0 :=
  (BitVec.extractLsb'_append_eq_of_le (v := 24) (w := 32) (by decide)).trans BitVec.extractLsb'_append_eq_left

theorem Code.value_len_field (c : Code) (j : BitVec 3) : (c.value j).extractLsb' 32 8 = c.len :=
  (BitVec.extractLsb'_append_eq_of_le (v := 24) (w := 32) (by decide)).trans BitVec.extractLsb'_append_eq_right

theorem Code.value_getLsbD_of_lt (c : Code) (j : BitVec 3) {n : Nat} (hn : n < 32) :
    (c.value j).getLsbD n = c.bits.getLsbD (224 - 32 * j.toNat + n) := by
  refine (BitVec.getLsbD_append (n := 24) (m := 32)).trans ?_
  simp [Code.chunk, hn]

/-- Settles O38: `CREAD` answers `Code.value`, which is the length above the chunk. -/
theorem creadAnswersTheChunk : Obligations.CreadAnswersTheChunk := by
  intro s sym j hf hc
  exact ⟨(s.codeAt sym).value j, exec_of_answer (i := .cread sym j) hf hc rfl, Code.value_zero_field _ _,
    Code.value_len_field _ _, fun _ hn => Code.value_getLsbD_of_lt _ _ hn⟩

end Sys2Proof.Machine
end

section
/-! Packing and unpacking (R69 to R72), and the host's moves on a stream (R85). -/

namespace Sys2Proof.Machine

/-- `Unpack` reads back the bits of a byte, the first written bit first (R69, R72). -/
theorem unpackByte_packByte (order : BitOrder) (b0 b1 b2 b3 b4 b5 b6 b7 : Bool) :
    unpackByte order (packByte order b0 b1 b2 b3 b4 b5 b6 b7) = [b0, b1, b2, b3, b4, b5, b6, b7] := by
  cases order with
  | msbFirst => simp [unpackByte, packByte, BitVec.getLsbD_ofBoolListBE, -BitVec.getLsbD_eq_getElem]
  | lsbFirst => simp [unpackByte, packByte, BitVec.getLsbD_ofBoolListLE, -BitVec.getLsbD_eq_getElem]

/-- Whole bytes are unpacked to the bits they were packed from. -/
theorem unpack_packBytes (order : BitOrder) (bits : List Bool) (h : bits.length % 8 = 0) :
    unpack order (packBytes order bits) = bits := by
  induction bits using packBytes.induct with
  | case1 b0 b1 b2 b3 b4 b5 b6 b7 rest ih =>
    simp only [List.length_cons] at h
    rw [packBytes, unpack, List.flatMap_cons, unpackByte_packByte]
    exact congrArg _ (ih (by omega))
  | case2 bits hshort =>
    match bits with
    | [] => rfl
    | [_] | [_, _] | [_, _, _] | [_, _, _, _] | [_, _, _, _, _] | [_, _, _, _, _, _] | [_, _, _, _, _, _, _] =>
      simp at h
    | _ :: _ :: _ :: _ :: _ :: _ :: _ :: _ :: _ => exact (hshort _ _ _ _ _ _ _ _ _ rfl).elim

theorem padBits_length_mod (pad : Bool) (bits : List Bool) : (padBits pad bits).length % 8 = 0 := by
  simp only [padBits, padCount, List.length_append, List.length_replicate]
  omega

/-- Settles O47: the padded bits fill whole bytes, and those are unpacked to what was packed. -/
theorem unpackOfPackAddsThePad : Obligations.UnpackOfPackAddsThePad := fun order pad bits =>
  unpack_packBytes order (padBits pad bits) (padBits_length_mod pad bits)

/-- Settles O7: with no move left a step answers the same state; each move on a stream is the attachment it names. -/
theorem hostReplacesStreamsOrCoreWaits : Obligations.HostReplacesStreamsOrCoreWaits := fun _ _ _ _ =>
  ⟨step_of_host_nil, step_of_host_cons, step_of_host_cons, step_of_host_cons, step_of_host_cons⟩

end Sys2Proof.Machine
end

section
/-! Port calls that fail: `REWIND`, `FACC`, `BENC`, `BDEC` and `DECODE` at any of theirs (R66, R80, R283, R291), and the
run of `BENC` in which none does. -/

namespace Sys2Proof.Machine

open Sys2Proof.Safety

variable {s t : State}

/-- A body that has come, in the state `t`, to the port call number `n` of a command started in `s`, and that call
fails: EIO with the number of its port (R66, R80, R283). -/
theorem finish_portCall_refused {p : Port} {act : State → Option Body} {k : State → Body} {n : Nat}
    (ht : t.draws = s.draws.drop n) (ha : AbortsRun (n + 1) s)
    (h : eventAt s n = .fails ∨ (eventAt s n = .succeeds ∧ act t.popEvent = none)) :
    ((portCall p act t).andThen k).finish =
      .next { faulted .eio p.number t with draws := s.draws.drop (n + 3) } := by
  have hpop : t.popEvent.draws = s.draws.drop (n + 1) := by rw [popEvent_draws, ht, List.tail_drop]
  rw [← nextEvent_of_draws_drop ht] at h
  rw [portCall_refused h, Body.trap_andThen, Body.finish_trap,
    takeFault_eq _ _ (AbortsRun.of_drop (n := 0) ha hpop), faulted, hpop, List.drop_drop]
  rfl

/-! ### REWIND -/

/-- Settles O17: the body of `REWIND` is its one port call. -/
theorem rewindMovesTheCursor : Obligations.RewindMovesTheCursor := by
  intro s hf
  have hexec : exec .rewind s = ((srcRewind s).andThen .done).finish := by
    rw [Body.andThen_done, exec_of_body (i := .rewind) hf rfl rfl]
  refine ⟨fun h => ?_, fun h ha => ?_⟩
  · rw [hexec, srcRewind_of_succeeds (eventAt_zero s ▸ h)]
    rfl
  · rw [hexec]
    exact finish_portCall_refused (s := s) (n := 0) rfl ha (.inl h)

/-! ### FACC -/

/-- `FACC`'s body up to any of its reads: the bytes before it are counted (R130). -/
theorem faccBody_next {n : Nat} (hn : n < (srcRest s).length) (hs : Succeeds n s)
    (hf : ∀ b, (s.freqAt b).toNat + ((srcRest s).take n).count b < 2 ^ 32) :
    ∃ (act : State → Option Body) (k : State → Body), faccBody s = (portCall .src act { s with
      freq := countAll s.freq ((srcRest s).take n), src := { s.src with pos := s.src.pos + n }
      draws := s.draws.drop n }).andThen k := by
  obtain ⟨m, hm⟩ : ∃ m, (srcRest s).length = n + (m + 1) := ⟨(srcRest s).length - (n + 1), by omega⟩
  have hlen : ((srcRest s).take n).length = n := List.length_take_of_le hn.le
  have hloop := faccLoop_prefix _ (m + 1) s _ (List.take_append_drop n (srcRest s)).symm (by rwa [hlen]) hf
  rw [hlen, ← hm, faccLoop] at hloop
  exact ⟨_, _, by rw [faccBody, remaining_eq_length, ← srcRest, hloop, srcRead]⟩

/-- Settles O20: `FACC` comes to the read that fails with the bytes before it counted (`faccBody_next`). -/
theorem faccReadFailureIsPrecise : Obligations.FaccReadFailureIsPrecise := by
  intro s n hf hv hs he ha hn hc
  obtain ⟨act, k, hbody⟩ := faccBody_next hn hs hc
  refine ⟨countAll s.freq ((srcRest s).take n), ?_, countAll_spec _ _ hc⟩
  rw [exec_of_body (i := .facc) hf (by simp [State.ready, hv]) rfl, hbody]
  exact finish_portCall_refused (s := s) rfl ha (.inl he)

/-! ### BENC -/

theorem exec_benc (hf : s.fault = false) (hcv : s.cvalid = true) (hed : s.edone = false) :
    exec .benc s = (bencBody s).finish :=
  exec_of_body hf (by simp [State.ready, hcv, hed]) rfl

/-- Settles O39: the loop writes the codes of all the bytes left (`bencLoop_prefix`), and the finalize succeeds. -/
theorem bencWritesTheCodes : Obligations.BencWritesTheCodes := by
  intro s hf hcv hed hio hm hpos hc
  have hloop := bencLoop_prefix (srcRest s) 0 s [] (List.append_nil _).symm (hio.succeeds _) (fun _ => hm) hc
  have hend : s.src.pos + (srcRest s).length = s.src.data.length := by
    rw [srcRest, List.length_drop]
    omega
  rw [Nat.add_zero, bencLoop, hend] at hloop
  rw [exec_benc hf hcv hed, bencBody, remaining_eq_length, ← srcRest, hloop, Body.done_andThen,
    bitFinalize_of_succeeds (NoIoFailure.of_draws_drop hio rfl).nextEvent (by exact hm), Body.done_andThen,
    Body.finish_done, List.tail_drop]
  rfl

/-- Bits that end inside the tree lead to no leaf (R211, R213). -/
theorem not_emits_of_staysInside {x : List Bool} (h : StaysInside s x) (sym : Symbol) : ¬ Emits s sym x := by
  rintro ⟨f, ⟨hroot, hlen⟩ | ⟨hne, hleaf⟩⟩
  · obtain ⟨v, rfl⟩ := List.length_eq_one_iff.1 hlen
    obtain h | ⟨f', l, r, h⟩ := h
    · cases h
    · rw [follow_cons_leaf hroot] at h
      cases h
  · obtain h | ⟨f', l, r, h⟩ := h
    · exact hne h
    · rw [hleaf] at h
      cases h

/-! ### A failing call of BENC, BDEC or DECODE -/

/-- Settles O44: the body has come to the call that fails (`bencBody_next`, `bdecBody_next`), and what the calls before
have done tells which port it is for. -/
theorem refusedPortCallsNameTheirPort : Obligations.RefusedPortCallsNameTheirPort := by
  constructor
  · intro s r n w port hf hcv hed hup hc hm hn hs ha hport he
    subst hn
    obtain ⟨p, act, k, hbody, hp⟩ := bencBody_next hup hs hm hc
    have hcall : p.number = port ∧ (port = 2 → ∀ t : State, t.bsnk.mode ≠ .opened → act t = none) := by
      rcases hp with ⟨hnext, rfl⟩ | ⟨hnext, rfl, hact⟩ <;> rcases hport with ⟨rfl, h⟩ | ⟨rfl, h⟩
      · exact ⟨rfl, nofun⟩
      · exact absurd hnext h
      · exact absurd h hnext
      · exact ⟨rfl, fun _ => hact⟩
    obtain ⟨rfl, hact⟩ := hcall
    rw [exec_benc hf hcv hed, hbody]
    exact finish_portCall_refused (s := s) rfl ha (he.imp_right fun ⟨h, hp2, hmode⟩ => ⟨h, hact hp2 _ hmode⟩)
  · intro i s t parts x n port hd hup hm hn hs ha hport he
    subst hn
    obtain ⟨hexec, -, hbsrc, hbsnk, hdsnk, hdraws, -⟩ := decodesOn_exec hd
    have hdrop : t.draws = s.draws.drop 0 := hdraws
    have hrest : bsrcRest t = bsrcRest s := by rw [bsrcRest, hbsrc, bsrcRest]
    obtain ⟨q, p, act, k, hbody, hq0, hqin, hqleaf, hp⟩ :=
      bdecBody_next hup (Succeeds.of_drop (m := 0) (by rwa [Nat.zero_add]) hdrop) (by rwa [hdsnk])
    rw [hrest] at hp
    have hcall : p.number = port ∧ (port = 4 → ∀ t : State, t.dsnk.mode ≠ .opened → act t = none) := by
      rcases hp with ⟨rfl, hin, hmore⟩ | ⟨rfl, hact, hlast⟩ <;> rcases hport with ⟨rfl, hin', hmore'⟩ | h4
      · exact ⟨rfl, nofun⟩
      · obtain ⟨-, -, hall⟩ | ⟨-, sym, hem⟩ := h4
        · exact absurd hall hmore
        · exact absurd hem (not_emits_of_staysInside hin sym)
      · obtain ⟨-, hall⟩ | ⟨sym, hem⟩ := hlast
        · exact absurd hall hmore'
        · exact absurd hem (not_emits_of_staysInside hin' sym)
      · exact ⟨h4.elim (·.1.symm) (·.1.symm), fun _ => hact⟩
    obtain ⟨rfl, hact⟩ := hcall
    refine ⟨q, ?_, hq0, hqin, hqleaf⟩
    rw [hbsrc, hdsnk, hdraws] at hbody
    rw [hexec, hbody, ← hbsnk]
    exact finish_portCall_refused (s := s) rfl ha
      (he.imp_right fun ⟨h, hp4, hmode⟩ => ⟨h, hact hp4 _ hmode⟩)

/-- Settles O41: call number 1 of `BENC` is the write of the first bit of the first byte's code. -/
theorem bencNeedsAnOpenSink : Obligations.BencNeedsAnOpenSink := by
  intro s b hf hcv hed hio hm hb hc
  obtain ⟨hbenc, -⟩ := refusedPortCallsNameTheirPort
  have hrest : srcRest s = b :: s.src.data.drop (s.src.pos + 1) := by
    obtain ⟨hlt, rfl⟩ := List.getElem?_eq_some_iff.1 hb
    exact List.drop_eq_getElem_cons hlt
  have hcode : codeStream s [b] ≠ [] := by simpa [codeStream] using string_ne_nil hc
  have hwrite : ¬ NextIsRead s (srcRest s) 1 [] := fun ⟨_, h⟩ => hcode (by rw [h, hrest]; rfl)
  have h := hbenc s 1 1 [] 2 hf hcv hed ⟨by simp [hrest], List.nil_prefix, List.nil_prefix⟩
    (by simpa [hrest] using hc) (absurd rfl) rfl (hio.succeeds _) (hio.abortsRun _) (.inr ⟨rfl, hwrite⟩)
    (.inr ⟨hio.succeeds 2 1 (by decide), rfl, hm⟩)
  have hmode : (if s.bsnk.mode = .finalized then .finalized else .aborted) = s.bsnk.mode := by
    cases hmode : s.bsnk.mode with
    | opened => exact absurd hmode hm
    | finalized => rfl
    | aborted => rfl
  rw [h, List.append_nil, hmode]
  rfl

end Sys2Proof.Machine
end

section
/-! Which streams a command moves (R60, R76), whatever the environment fails and wherever a reset strikes. -/

namespace Sys2Proof.Machine

open Sys2Proof.Safety

variable {s t : State} {i : Instr}

/-- `t` has the streams of `s` but for what the command `i` may do to them (R60, R76). It speaks of no sink's mode. -/
def MovesOwnPorts (i : Instr) (s t : State) : Prop :=
  t.src.data = s.src.data ∧ t.bsrc.bits = s.bsrc.bits ∧ t.host = s.host ∧
  s.bsnk.bits <+: t.bsnk.bits ∧ s.dsnk.data <+: t.dsnk.data ∧
  (i ≠ .facc → i ≠ .benc → i ≠ .encode → i ≠ .rewind → t.src = s.src) ∧
  (i ≠ .bdec → i ≠ .decode → t.bsrc = s.bsrc ∧ t.dsnk.data = s.dsnk.data) ∧
  (i ≠ .benc → i ≠ .encode → t.bsnk.bits = s.bsnk.bits ∧ t.bsnk.flushed = s.bsnk.flushed)

/-! ### The ways a body moves the streams -/

/-- No stream is moved. -/
theorem movesOwnPorts_of_core (hsrc : t.src = s.src) (hbsrc : t.bsrc = s.bsrc) (hhost : t.host = s.host)
    (hbsnk : t.bsnk = s.bsnk) (hdsnk : t.dsnk = s.dsnk) : MovesOwnPorts i s t := by
  rw [MovesOwnPorts, hsrc, hbsrc, hhost, hbsnk, hdsnk]
  exact ⟨rfl, rfl, rfl, List.prefix_rfl, List.prefix_rfl, fun _ _ _ _ => rfl, fun _ _ => ⟨rfl, rfl⟩,
    fun _ _ => ⟨rfl, rfl⟩⟩

theorem MovesOwnPorts.refl (i : Instr) (s : State) : MovesOwnPorts i s s := movesOwnPorts_of_core rfl rfl rfl rfl rfl

/-- The source's cursor is moved (R61, R62). -/
theorem movesOwnPorts_of_counting {p : Nat} (hi : i = .rewind ∨ i = .facc) (hsrc : t.src = { s.src with pos := p })
    (hbsrc : t.bsrc = s.bsrc) (hhost : t.host = s.host) (hbsnk : t.bsnk = s.bsnk) (hdsnk : t.dsnk = s.dsnk) :
    MovesOwnPorts i s t := by
  rw [MovesOwnPorts, hsrc, hbsrc, hhost, hbsnk, hdsnk]
  exact ⟨rfl, rfl, rfl, List.prefix_rfl, List.prefix_rfl,
    fun hfacc _ _ hrewind => (hi.elim hrewind hfacc).elim, fun _ _ => ⟨rfl, rfl⟩, fun _ _ => ⟨rfl, rfl⟩⟩

/-- The source's cursor is moved and bits are appended to the bit sink (R62, R63). -/
theorem movesOwnPorts_of_encoding {w : List Bool} (hi : i = .benc ∨ i = .encode) (hsrc : t.src.data = s.src.data)
    (hbsrc : t.bsrc = s.bsrc) (hhost : t.host = s.host) (hbits : t.bsnk.bits = s.bsnk.bits ++ w)
    (hdsnk : t.dsnk = s.dsnk) : MovesOwnPorts i s t := by
  rw [MovesOwnPorts, hsrc, hbsrc, hhost, hbits, hdsnk]
  exact ⟨rfl, rfl, rfl, List.prefix_append _ _, List.prefix_rfl,
    fun _ hbenc hencode _ => (hi.elim hbenc hencode).elim, fun _ _ => ⟨rfl, rfl⟩,
    fun hbenc hencode => (hi.elim hbenc hencode).elim⟩

/-- The bit source's cursor is moved and bytes are appended to the byte sink (R64, R65). -/
theorem movesOwnPorts_of_decoding {w : List Byte} (hi : i = .bdec ∨ i = .decode) (hsrc : t.src = s.src)
    (hbsrc : t.bsrc.bits = s.bsrc.bits) (hhost : t.host = s.host) (hbsnk : t.bsnk = s.bsnk)
    (hdata : t.dsnk.data = s.dsnk.data ++ w) : MovesOwnPorts i s t := by
  rw [MovesOwnPorts, hsrc, hbsrc, hhost, hbsnk, hdata]
  exact ⟨rfl, rfl, rfl, List.prefix_rfl, List.prefix_append _ _, fun _ _ _ _ => rfl,
    fun hbdec hdecode => (hi.elim hbdec hdecode).elim, fun _ _ => ⟨rfl, rfl⟩⟩

/-! ### The frames of the bodies -/

theorem FaccFrame.movesOwnPorts {n : Nat} (h : FaccFrame n s t) : MovesOwnPorts .facc s t := by
  obtain ⟨f, p, d, rfl, -⟩ := h
  exact movesOwnPorts_of_counting (.inr rfl) rfl rfl rfl rfl rfl

theorem BencFrame.movesOwnPorts {n : Nat} (h : BencFrame n s t) : MovesOwnPorts .benc s t := by
  obtain ⟨w, p, d, rfl, -⟩ := h
  exact movesOwnPorts_of_encoding (.inl rfl) rfl rfl rfl rfl rfl

theorem BdecFrame.movesOwnPorts {n : Nat} (h : BdecFrame n s t) : MovesOwnPorts .bdec s t := by
  obtain ⟨q, w, p, d, rfl, -⟩ := h
  exact movesOwnPorts_of_decoding (.inl rfl) rfl rfl rfl rfl rfl

theorem EncodeFrame.movesOwnPorts (h : EncodeFrame s t) : MovesOwnPorts .encode s t := by
  obtain ⟨w, p, d, ht, -⟩ := h
  rw [ht]
  exact movesOwnPorts_of_encoding (.inr rfl) rfl rfl rfl rfl rfl

theorem DecodeFrame.movesOwnPorts (h : DecodeFrame s t) : MovesOwnPorts .decode s t := by
  obtain ⟨w, p, d, ht, -⟩ := h
  rw [ht]
  exact movesOwnPorts_of_decoding (.inr rfl) rfl rfl rfl rfl rfl

theorem bodyOf_movesOwnPorts {b : Body} (hb : bodyOf i s = some b) :
    b.Post (MovesOwnPorts i s) (MovesOwnPorts i s) (MovesOwnPorts i s) True := by
  cases i with
  | clr | stat | fread _ | cread _ _ => cases hb
  | rewind =>
    cases hb
    exact srcRewind_post.mono
      (by rintro t rfl; exact movesOwnPorts_of_counting (.inl rfl) rfl rfl rfl rfl rfl)
      (by rintro t rfl; exact .refl _ _) (by rintro t ⟨rfl, -⟩; exact .refl _ _) False.elim
  | facc =>
    cases hb
    exact faccBody_post.mono (by rintro t ⟨u, hu, rfl, -⟩; exact hu.movesOwnPorts) (fun t ht => ht.movesOwnPorts)
      (fun t ht => ht.1.movesOwnPorts) False.elim
  | fload sym count =>
    cases hb
    exact floadBody_post.mono (by rintro t rfl; exact .refl _ _) (by rintro t rfl; exact .refl _ _)
      (fun _ => False.elim) False.elim
  | tbuild =>
    cases hb
    refine tbuildBody_frame.mono (fun t ht => ?_) (fun t ht => ?_) (fun _ => False.elim) id
    · rw [ht]
      exact .refl _ _
    · rw [ht]
      exact .refl _ _
  | cgen =>
    cases hb
    refine cgenBody_post.mono (fun t ⟨_, ht⟩ => ?_) (fun _ => False.elim) (fun _ => False.elim) fun _ => trivial
    rw [ht]
    exact .refl _ _
  | benc =>
    cases hb
    refine bencBody_post.mono ?_ (fun t ht => ht.movesOwnPorts) (fun t ht => ht.1.movesOwnPorts) False.elim
    rintro t ⟨u, ⟨w, p, d, rfl, -⟩, -, -, rfl⟩
    exact movesOwnPorts_of_encoding (.inl rfl) rfl rfl rfl rfl rfl
  | bdec =>
    cases hb
    refine bdecBody_post.mono ?_ (fun t ht => ht.movesOwnPorts) (fun t ht => ht.1.movesOwnPorts) fun _ => trivial
    rintro t ⟨u, hu, -, -, -, rfl⟩
    exact hu.movesOwnPorts
  | encode =>
    cases hb
    refine encodeBody_post.mono ?_ (fun t ht => ht.movesOwnPorts) (fun t ht => ht.1.movesOwnPorts) False.elim
    rintro t ⟨-, -, -, w, d, -, ht⟩
    rw [ht]
    exact movesOwnPorts_of_encoding (.inr rfl) rfl rfl rfl rfl rfl
  | decode =>
    cases hb
    refine (decodeBody_post (S := True) (.inl trivial)).mono ?_ (fun t ht => ht.movesOwnPorts)
      (fun t ht => ht.1.movesOwnPorts) id
    rintro t ⟨-, -, -, w, d, -, ht⟩
    rw [ht]
    exact movesOwnPorts_of_decoding (.inr rfl) rfl rfl rfl rfl rfl

/-! ### The command -/

/-- A fault entry changes no more of a stream than a sink's mode, also where a reset cuts it short (R286, R321). -/
theorem MovesOwnPorts.takeFault (h : MovesOwnPorts i s t) (c : ErrCode) (info : BitVec 16) :
    MovesOwnPorts i s (takeFault c info t) := by
  obtain he | ⟨-, he⟩ | ⟨-, he⟩ := takeFault_cases c info t <;> rw [he] <;> exact h

/-- Settles O55: a response, a clear and a fault entry move no stream, and a body only its own ones. -/
theorem portsAreUsedByTheirCommandsOnly : Obligations.PortsAreUsedByTheirCommandsOnly := by
  intro i s t h
  change MovesOwnPorts i s t
  obtain ⟨-, rfl⟩ | ⟨-, rfl⟩ | ⟨-, -, -, rfl⟩ | ⟨-, -, rfl⟩ | ⟨-, -, v, -, rfl⟩ | ⟨-, -, b, hb, ht⟩ :=
    exec_next_cases h
  · exact .refl i s
  · exact .refl i s
  · exact .refl i s
  · exact (MovesOwnPorts.refl i s).takeFault _ _
  · exact .refl i s
  · obtain ⟨u, hu, rfl⟩ | ⟨c, n, u, -, hu, rfl⟩ | ⟨u, hu, rfl⟩ := (bodyOf_movesOwnPorts hb).finish ht
    · exact hu
    · exact hu.takeFault c n
    · exact hu

end Sys2Proof.Machine
end

section
/-! The command words (R100 to R105): decoding, encoding and the opcode map each say of a word what its four fields
are. -/

namespace Sys2Proof

open Sys2Proof.Laws.EncodedFields (symOf dataOf)

variable {w : CmdWord} {i : Instr}

/-- The fields of `w` are those of the word of `i` (R100, R101): its opcode, its operands, and zeros elsewhere. -/
def HasFieldsOf (w : CmdWord) (i : Instr) : Prop :=
  opField w = i.opcode ∧ symField w = symOf i ∧ zeroField w = 0 ∧ dataField w = dataOf i

theorem hasFieldsOf_encode (i : Instr) : HasFieldsOf (encode i) i := by
  cases i with
  | clr => exact Laws.EncodedFields.clr
  | rewind => exact Laws.EncodedFields.rewind
  | stat => exact Laws.EncodedFields.stat
  | facc => exact Laws.EncodedFields.facc
  | fload sym count => exact Laws.EncodedFields.fload sym count
  | fread sym => exact Laws.EncodedFields.fread sym
  | tbuild => exact Laws.EncodedFields.tbuild
  | cgen => exact Laws.EncodedFields.cgen
  | cread sym j => exact Laws.EncodedFields.cread sym j
  | benc => exact Laws.EncodedFields.benc
  | bdec => exact Laws.EncodedFields.bdec
  | encode => exact Laws.EncodedFields.encode
  | decode => exact Laws.EncodedFields.decode

theorem encode_eq_assemble (i : Instr) : encode i = assemble i.opcode (symOf i) (dataOf i) := by
  cases i <;> rfl

theorem HasFieldsOf.encode_eq (h : HasFieldsOf w i) : encode i = w := by
  obtain ⟨hop, hsym, hzero, hdata⟩ := h
  rw [encode_eq_assemble, ← hop, ← hsym, ← hdata, assemble_fields hzero]

/-! ### The formats -/

theorem decodeZ_eq_some {c : Instr} :
    decodeZ w c = some i ↔ symField w = 0 ∧ zeroField w = 0 ∧ dataField w = 0 ∧ c = i := by
  simp [decodeZ, and_assoc]

theorem decodeS_eq_some {f : Symbol → Instr} :
    decodeS w f = some i ↔ zeroField w = 0 ∧ dataField w = 0 ∧ f (symField w) = i := by
  simp [decodeS, and_assoc]

theorem decodeSD_eq_some {f : Symbol → BitVec 32 → Instr} :
    decodeSD w f = some i ↔ zeroField w = 0 ∧ f (symField w) (dataField w) = i := by
  simp [decodeSD]

theorem decodeSJ_eq_some {f : Symbol → BitVec 3 → Instr} :
    decodeSJ w f = some i ↔
      zeroField w = 0 ∧ dataField w = (chunkField w).setWidth 32 ∧ f (symField w) (chunkField w) = i := by
  have hdata : chunkZeroField w = 0 ↔ dataField w = (chunkField w).setWidth 32 :=
    ⟨dataField_of_chunk, fun h => by rw [chunkZeroField_eq, h, chunk_high_zero]⟩
  simp [decodeSJ, ← hdata, and_assoc]

/-- A word with the fields of `CREAD sym, j` has `j` in `DATA[2:0]` (R101). -/
theorem chunkField_of_dataField {j : BitVec 3} (h : dataField w = j.setWidth 32) : chunkField w = j := by
  rw [chunkField_eq, h, setWidth_chunk]

/-! ### The decoder -/

theorem hasFieldsOf_of_decodeZ (c : Instr) (hsymOf : symOf c = 0) (hdataOf : dataOf c = 0)
    (hop : opField w = c.opcode) : ∀ i, decodeZ w c = some i → HasFieldsOf w i := by
  intro i h
  obtain ⟨hsym, hzero, hdata, rfl⟩ := decodeZ_eq_some.mp h
  exact ⟨hop, hsym.trans hsymOf.symm, hzero, hdata.trans hdataOf.symm⟩

theorem hasFieldsOf_of_decodeSD (hop : opField w = 0x11#8) : ∀ i, decodeSD w .fload = some i → HasFieldsOf w i := by
  intro i h
  obtain ⟨hzero, rfl⟩ := decodeSD_eq_some.mp h
  exact ⟨hop, rfl, hzero, rfl⟩

theorem hasFieldsOf_of_decodeS (hop : opField w = 0x12#8) : ∀ i, decodeS w .fread = some i → HasFieldsOf w i := by
  intro i h
  obtain ⟨hzero, hdata, rfl⟩ := decodeS_eq_some.mp h
  exact ⟨hop, rfl, hzero, hdata⟩

theorem hasFieldsOf_of_decodeSJ (hop : opField w = 0x31#8) : ∀ i, decodeSJ w .cread = some i → HasFieldsOf w i := by
  intro i h
  obtain ⟨hzero, hdata, rfl⟩ := decodeSJ_eq_some.mp h
  exact ⟨hop, rfl, hzero, hdata⟩

/-- What each branch of a choice says of the command it decodes to, the choice says. -/
theorem forall_of_ite_eq_some {p : Prop} [Decidable p] {a b : Option Instr} {Q : Instr → Prop}
    (ha : p → ∀ i, a = some i → Q i) (hb : ∀ i, b = some i → Q i) : ∀ i, (if p then a else b) = some i → Q i := by
  split
  · exact ha ‹p›
  · exact hb

/-- One line for each opcode that the decoder asks for, in its order (R103). -/
theorem hasFieldsOf_of_decode : ∀ i, decode w = some i → HasFieldsOf w i :=
  forall_of_ite_eq_some (hasFieldsOf_of_decodeZ .clr rfl rfl) <|
  forall_of_ite_eq_some (hasFieldsOf_of_decodeZ .rewind rfl rfl) <|
  forall_of_ite_eq_some (hasFieldsOf_of_decodeZ .stat rfl rfl) <|
  forall_of_ite_eq_some (hasFieldsOf_of_decodeZ .facc rfl rfl) <|
  forall_of_ite_eq_some hasFieldsOf_of_decodeSD <|
  forall_of_ite_eq_some hasFieldsOf_of_decodeS <|
  forall_of_ite_eq_some (hasFieldsOf_of_decodeZ .tbuild rfl rfl) <|
  forall_of_ite_eq_some (hasFieldsOf_of_decodeZ .cgen rfl rfl) <|
  forall_of_ite_eq_some hasFieldsOf_of_decodeSJ <|
  forall_of_ite_eq_some (hasFieldsOf_of_decodeZ .benc rfl rfl) <|
  forall_of_ite_eq_some (hasFieldsOf_of_decodeZ .bdec rfl rfl) <|
  forall_of_ite_eq_some (hasFieldsOf_of_decodeZ .encode rfl rfl) <|
  forall_of_ite_eq_some (hasFieldsOf_of_decodeZ .decode rfl rfl) nofun

theorem HasFieldsOf.decode_eq (h : HasFieldsOf w i) : decode w = some i := by
  obtain ⟨hop, hsym, hzero, hdata⟩ := h
  cases i with
  | fload sym count => simp [decode, hop, Instr.opcode, decodeSD_eq_some, hsym, hzero, hdata, symOf, dataOf]
  | fread sym => simp [decode, hop, Instr.opcode, decodeS_eq_some, hsym, hzero, hdata, symOf, dataOf]
  | cread sym j =>
    have hj : chunkField w = j := chunkField_of_dataField hdata
    simp [decode, hop, Instr.opcode, decodeSJ_eq_some, hsym, hzero, hdata, hj, symOf, dataOf]
  | _ => simp [decode, hop, Instr.opcode, decodeZ_eq_some, hsym, hzero, hdata, symOf, dataOf]

theorem decode_eq_some_iff : decode w = some i ↔ HasFieldsOf w i :=
  ⟨hasFieldsOf_of_decode i, HasFieldsOf.decode_eq⟩

/-- Settles O1: the word of a command has the command's fields, and they decode to it. -/
theorem decodeOfEncodedCommand : Obligations.DecodeOfEncodedCommand := fun i =>
  decode_eq_some_iff.mpr (hasFieldsOf_encode i)

/-- Settles O2: the fields of a decoded word are those of its command, and a word is made of its fields. -/
theorem decodedWordIsTheEncoding : Obligations.DecodedWordIsTheEncoding := fun _ _ h =>
  (decode_eq_some_iff.mp h).encode_eq

/-- Settles O5: the example words are the encodings of their commands (R109). -/
theorem exampleWordsDecode : Obligations.ExampleWordsDecode :=
  ⟨decodeOfEncodedCommand .clr, decodeOfEncodedCommand (.fload 0x41#8 3#32), decodeOfEncodedCommand (.fread 0x42#8),
    decodeOfEncodedCommand (.cread 0x43#8 0#3), decodeOfEncodedCommand (.cread 0x43#8 7#3),
    decodeOfEncodedCommand .encode⟩

/-! ### The opcode map -/

/-- The fields of a word make it up (R100). -/
theorem append_fields (w : CmdWord) : opField w ++ symField w ++ zeroField w ++ dataField w = w := by
  have hsym : opField w ++ symField w = w.extractLsb' 48 16 :=
    BitVec.extractLsb'_append_extractLsb'_eq_extractLsb' rfl
  have hzero : w.extractLsb' 48 16 ++ zeroField w = w.extractLsb' 32 32 :=
    BitVec.extractLsb'_append_extractLsb'_eq_extractLsb' rfl
  have hdata : w.extractLsb' 32 32 ++ dataField w = w.extractLsb' 0 64 :=
    BitVec.extractLsb'_append_extractLsb'_eq_extractLsb' rfl
  rw [hsym, hzero, hdata, BitVec.extractLsb'_eq_self]

theorem word_eq_iff {v w : CmdWord} : v = w ↔
    opField v = opField w ∧ symField v = symField w ∧ zeroField v = zeroField w ∧ dataField v = dataField w := by
  constructor
  · rintro rfl
    exact ⟨rfl, rfl, rfl, rfl⟩
  · intro ⟨hop, hsym, hzero, hdata⟩
    rw [← append_fields v, ← append_fields w, hop, hsym, hzero, hdata]

theorem opField_and (v w : CmdWord) : opField (v &&& w) = opField v &&& opField w := BitVec.extractLsb'_and

theorem symField_and (v w : CmdWord) : symField (v &&& w) = symField v &&& symField w := BitVec.extractLsb'_and

theorem zeroField_and (v w : CmdWord) : zeroField (v &&& w) = zeroField v &&& zeroField w := BitVec.extractLsb'_and

theorem dataField_and (v w : CmdWord) : dataField (v &&& w) = dataField v &&& dataField w := BitVec.extractLsb'_and

/-- In every row the masks of `OP` and `ZERO` are all ones, and the pattern is its opcode and zeros (R103). -/
theorem opcodeMap_fields : ∀ r ∈ opcodeMap, opField r.mask = BitVec.allOnes 8 ∧ zeroField r.mask = BitVec.allOnes 16 ∧
    symField r.pattern = 0 ∧ zeroField r.pattern = 0 ∧ dataField r.pattern = 0 := by
  decide

/-- A row fixes `OP` and `ZERO` whole, and the bits of `SYM` and `DATA` in its mask to 0 (R103). -/
theorem accepts_iff {r : OpcodeRow} (hr : r ∈ opcodeMap) : r.accepts w = true ↔ opField w = opField r.pattern ∧
    symField w &&& symField r.mask = 0 ∧ zeroField w = 0 ∧ dataField w &&& dataField r.mask = 0 := by
  obtain ⟨hop, hzero, hsym', hzero', hdata'⟩ := opcodeMap_fields r hr
  rw [OpcodeRow.accepts, beq_iff_eq, word_eq_iff, opField_and, symField_and, zeroField_and, dataField_and, hop, hzero,
    hsym', hzero', hdata', BitVec.and_allOnes, BitVec.and_allOnes]

/-- Settles O3: every row of the map fixes the whole of `OP`, and no two rows fix it alike. -/
theorem opcodeRowsAreDisjoint : Obligations.OpcodeRowsAreDisjoint := by
  intro w r r' hr hr' h h'
  have hpat : ∀ r ∈ opcodeMap, ∀ r' ∈ opcodeMap, opField r.pattern = opField r'.pattern → r = r' := by decide
  obtain ⟨hop, -⟩ := (accepts_iff hr).mp h
  obtain ⟨hop', -⟩ := (accepts_iff hr').mp h'
  exact hpat r hr r' hr' (hop.symm.trans hop')

/-- The rows being disjoint, a word that matches one row matches exactly one (R104). -/
theorem wellFormed_iff : wellFormed w = true ↔ ∃ r ∈ opcodeMap, r.accepts w = true := by
  rw [wellFormed, beq_iff_eq]
  constructor
  · intro h
    exact List.countP_pos_iff.mp (h ▸ Nat.one_pos)
  · rintro ⟨r, hr, hacc⟩
    have hnodup : opcodeMap.Nodup := by decide
    have honly : ∀ r' ∈ opcodeMap, r'.accepts w = true ↔ (r' == r) = true := fun r' hr' => by
      rw [beq_iff_eq]
      exact ⟨fun h => opcodeRowsAreDisjoint w r' r hr' hr h hacc, fun h => h ▸ hacc⟩
    rw [List.countP_congr honly]
    exact List.count_eq_one_of_mem hnodup hr

/-! ### The rows of the formats (R101, R103) -/

/-- The row of `FLOAD`, of format SD. -/
def floadRow : OpcodeRow := ⟨"FLOAD", 0x1100000000000000#64, 0xFF00FFFF00000000#64⟩

/-- The row of `FREAD`, of format S. -/
def freadRow : OpcodeRow := ⟨"FREAD", 0x1200000000000000#64, 0xFF00FFFFFFFFFFFF#64⟩

/-- The row of `CREAD`, of format SJ. -/
def creadRow : OpcodeRow := ⟨"CREAD", 0x3100000000000000#64, 0xFF00FFFFFFFFFFF8#64⟩

/-- The rows of format Z leave no bit of a word open; each of the other formats has one row. -/
theorem opcodeMap_cases : ∀ r ∈ opcodeMap,
    r.mask = BitVec.allOnes 64 ∨ r = floadRow ∨ r = freadRow ∨ r = creadRow := by
  decide

theorem floadRow_accepts_iff : floadRow.accepts w = true ↔ opField w = 0x11#8 ∧ zeroField w = 0 := by
  have hsym : symField floadRow.mask = 0 := by decide
  have hdata : dataField floadRow.mask = 0 := by decide
  have hop : opField floadRow.pattern = 0x11#8 := by decide
  rw [accepts_iff (r := floadRow) (by decide), hsym, hdata, hop]
  simp

theorem freadRow_accepts_iff :
    freadRow.accepts w = true ↔ opField w = 0x12#8 ∧ zeroField w = 0 ∧ dataField w = 0 := by
  have hsym : symField freadRow.mask = 0 := by decide
  have hdata : dataField freadRow.mask = BitVec.allOnes 32 := by decide
  have hop : opField freadRow.pattern = 0x12#8 := by decide
  rw [accepts_iff (r := freadRow) (by decide), hsym, hdata, hop, BitVec.and_allOnes]
  simp

/-- The operand's three bits are the ones that the mask of `DATA` leaves open. -/
theorem chunkZeroField_eq_zero_iff : chunkZeroField w = 0 ↔ dataField w &&& dataField creadRow.mask = 0 := by
  constructor
  · intro h
    have hchunk : ∀ j : BitVec 3, j.setWidth 32 &&& dataField creadRow.mask = 0 := by decide
    rw [dataField_of_chunk h, hchunk]
  · intro h
    have hhigh : (dataField creadRow.mask).extractLsb' 3 29 = BitVec.allOnes 29 := by decide
    have hand := congrArg (BitVec.extractLsb' 3 29) h
    rwa [BitVec.extractLsb'_and, hhigh, BitVec.and_allOnes, ← chunkZeroField_eq] at hand

theorem creadRow_accepts_iff :
    creadRow.accepts w = true ↔ opField w = 0x31#8 ∧ zeroField w = 0 ∧ chunkZeroField w = 0 := by
  have hsym : symField creadRow.mask = 0 := by decide
  have hop : opField creadRow.pattern = 0x31#8 := by decide
  rw [accepts_iff (r := creadRow) (by decide), hsym, hop, chunkZeroField_eq_zero_iff]
  simp

theorem isSome_decode_of_accepts {r : OpcodeRow} (hr : r ∈ opcodeMap) (h : r.accepts w = true) :
    (decode w).isSome = true := by
  obtain hmask | rfl | rfl | rfl := opcodeMap_cases r hr
  · have hpat : ∀ r ∈ opcodeMap, (decode r.pattern).isSome = true := by decide
    have hw : w = r.pattern := by rwa [OpcodeRow.accepts, hmask, BitVec.and_allOnes, beq_iff_eq] at h
    rw [hw]
    exact hpat r hr
  · obtain ⟨hop, hzero⟩ := floadRow_accepts_iff.mp h
    simp [decode, decodeSD, hop, hzero]
  · obtain ⟨hop, hzero, hdata⟩ := freadRow_accepts_iff.mp h
    simp [decode, decodeS, hop, hzero, hdata]
  · obtain ⟨hop, hzero, hchunk⟩ := creadRow_accepts_iff.mp h
    simp [decode, decodeSJ, hop, hzero, hchunk]

theorem exists_row_accepts_encode (i : Instr) : ∃ r ∈ opcodeMap, r.accepts (encode i) = true := by
  obtain ⟨hop, -, hzero, hdata⟩ := hasFieldsOf_encode i
  cases i with
  | fload sym count => exact ⟨floadRow, by decide, floadRow_accepts_iff.mpr ⟨hop, hzero⟩⟩
  | fread sym => exact ⟨freadRow, by decide, freadRow_accepts_iff.mpr ⟨hop, hzero, hdata⟩⟩
  | cread sym j =>
    have hhigh : chunkZeroField (encode (.cread sym j)) = 0 := by
      rw [chunkZeroField_eq, hdata]
      exact chunk_high_zero j
    exact ⟨creadRow, by decide, creadRow_accepts_iff.mpr ⟨hop, hzero, hhigh⟩⟩
  | _ => decide

/-- Settles O4: a decoded word is the word of a command, which lies in the command's row, and a word in a row has the
fields that the decoder asks for. -/
theorem decodesExactlyWhenWellFormed : Obligations.DecodesExactlyWhenWellFormed := by
  intro w
  rw [Bool.eq_iff_iff, wellFormed_iff]
  constructor
  · intro h
    obtain ⟨i, hi⟩ := Option.isSome_iff_exists.mp h
    rw [← decodedWordIsTheEncoding w i hi]
    exact exists_row_accepts_encode i
  · rintro ⟨r, hr, h⟩
    exact isSome_decode_of_accepts hr h

end Sys2Proof
end

section
/-! The frequency accumulator: what `FACC` does with the whole of its source and with a byte that overflows, what `FLOAD`
stores and rejects, what `FREAD` answers (R130 to R133, R270). -/

namespace Sys2Proof.Machine

open Sys2Proof.Safety

variable {s : State} {sym : Symbol} {count : BitVec 32}

/-! ### FACC -/

theorem exec_facc (hf : s.fault = false) (hv : s.fvalid = false) : exec .facc s = (faccBody s).finish :=
  exec_of_body hf (by simp [State.ready, hv]) rfl

/-- `FACC`'s body where every read succeeds and no counter overflows (R130, R135). -/
theorem faccBody_done (hs : Succeeds (srcRest s).length s)
    (hc : ∀ b, (s.freqAt b).toNat + (srcRest s).count b < 2 ^ 32) :
    faccBody s = .done { s with
      freq := countAll s.freq (srcRest s), fvalid := true
      src := { s.src with pos := s.src.pos + (srcRest s).length }, draws := s.draws.drop (srcRest s).length } := by
  have hloop := faccLoop_prefix (srcRest s) 0 s [] (List.append_nil _).symm hs hc
  rw [Nat.add_zero, faccLoop] at hloop
  rw [faccBody, remaining_eq_length, ← srcRest, hloop, Body.done_andThen]

/-- Settles O18: the body counts what the source has left (`faccBody_done`), which stands between cursor and end. -/
theorem faccCountsTheSource : Obligations.FaccCountsTheSource := by
  intro s hf hv hio hpos hc
  have hend : s.src.pos + (srcRest s).length = s.src.data.length := by
    rw [srcRest, List.length_drop]
    omega
  refine ⟨countAll s.freq (srcRest s), ?_, countAll_spec _ _ hc⟩
  rw [exec_facc hf hv, faccBody_done (hio.succeeds _) hc, hend, Body.finish_done]
  rfl

/-- One counting step at the largest count (R131). -/
theorem freqStep_of_max {b : Byte} (h : (s.freqAt b).toNat = 2 ^ 32 - 1) :
    freqStep b s = .trap .eoverflow (zextInfo b) s :=
  if_pos (BitVec.eq_of_toNat_eq (h.trans (by decide)))

/-- The byte that `SRC` delivers after the bytes `before`. -/
theorem getElem?_of_srcRest {before after : List Byte} {b : Byte} (hr : srcRest s = before ++ b :: after) :
    s.src.data[s.src.pos + before.length]? = some b := by
  rw [← List.getElem?_drop, ← srcRest, hr]
  simp

/-- `FACC`'s body up to the byte `b` that overflows: it has been read, the bytes before it are counted (R131, R291). -/
theorem faccBody_overflow {before after : List Byte} {b : Byte} (hr : srcRest s = before ++ b :: after)
    (hs : Succeeds (before.length + 1) s) (hc : ∀ c, (s.freqAt c).toNat + before.count c < 2 ^ 32)
    (hb : (s.freqAt b).toNat + before.count b = 2 ^ 32 - 1) :
    faccBody s = .trap .eoverflow (zextInfo b) { s with
      freq := countAll s.freq before, src := { s.src with pos := s.src.pos + before.length + 1 }
      draws := s.draws.drop (before.length + 1) } := by
  have hloop := faccLoop_prefix before (after.length + 1) s _ hr (hs.mono (by omega)) hc
  have hread : ({ s with
      freq := countAll s.freq before, src := { s.src with pos := s.src.pos + before.length }
      draws := s.draws.drop before.length } : State).nextEvent = .succeeds :=
    (hs.of_drop (m := before.length) (n := 1) rfl).nextEvent
  have hlen : (srcRest s).length = before.length + (after.length + 1) := by
    rw [hr, List.length_append, List.length_cons]
  rw [faccBody, remaining_eq_length, ← srcRest, hlen, hloop, faccLoop, srcRead_of_succeeds hread (getElem?_of_srcRest hr),
    freqStep_of_max (by exact (countAll_spec before s.freq hc b).trans hb), Body.trap_andThen, Body.trap_andThen,
    List.tail_drop]

/-- Settles O19: the body reads the overflowing byte and faults on it (`faccBody_overflow`), and the fault entry runs. -/
theorem faccOverflowIsPrecise : Obligations.FaccOverflowIsPrecise := by
  intro s before after b hf hv hio hr hc hb
  refine ⟨countAll s.freq before, ?_, countAll_spec _ _ hc⟩
  rw [exec_facc hf hv, faccBody_overflow hr (hio.succeeds _) hc hb, Body.finish_trap,
    takeFault_eq _ _ ((hio.of_draws_drop rfl).abortsRun 0), faulted, List.drop_drop]
  rfl

/-! ### FLOAD and FREAD -/

theorem exec_fload (hf : s.fault = false) (hv : s.fvalid = false) :
    exec (.fload sym count) s = (floadBody sym count s).finish :=
  exec_of_body hf (by simp [State.ready, hv]) rfl

theorem floadBody_of_new (hn : count ≠ 0) (h0 : s.freqAt sym = 0) :
    floadBody sym count s = .done (s.setFreq sym (countOperand count)) := by
  have hfits : countFits count = true := decide_eq_true count.isLt
  rw [floadBody, if_neg hn, if_neg (not_not_intro h0), if_pos hfits]

theorem floadBody_of_malformed (h : count = 0 ∨ s.freqAt sym ≠ 0) :
    floadBody sym count s = .trap .emalformed (zextInfo sym) s := by
  by_cases hn : count = 0
  · exact if_pos hn
  · rw [floadBody, if_neg hn, if_pos (h.resolve_left hn)]

@[simp] theorem countOperand_eq (count : BitVec 32) : countOperand count = count := BitVec.setWidth_eq count

/-- Settles O21: the entry is well formed, and the operand is the counter's new value as it stands. -/
theorem floadStoresTheCount : Obligations.FloadStoresTheCount := by
  intro s sym count hf hv hn h0
  rw [exec_fload hf hv, floadBody_of_new hn h0, countOperand_eq, Body.finish_done]
  rfl

/-- Settles O22: either malformed entry faults with nothing written, and the fault entry runs. -/
theorem floadRejectsMalformedEntries : Obligations.FloadRejectsMalformedEntries := by
  intro s sym count hf hv ha h
  rw [exec_fload hf hv, floadBody_of_malformed h, Body.finish_trap, takeFault_eq _ _ ha]
  rfl

/-- The response to a counter's read, code 0 above the value, is the counter itself (R107, R133). -/
theorem okCode_append_countValue (c : Count) : okCode ++ countValue c = c.setWidth 64 := by
  have hlt : c.toNat < 2 ^ 32 := c.isLt
  refine BitVec.eq_of_toNat_eq ((BitVec.toNat_append _ _).trans ?_)
  simp only [okCode, countValue, BitVec.toNat_setWidth, BitVec.toNat_ofNat, Nat.zero_mod, Nat.zero_shiftLeft, Nat.zero_or]
  omega

/-- Settles O23: `FREAD` answers the counter under code 0. -/
theorem freadAnswersTheCounter : Obligations.FreadAnswersTheCounter := by
  intro s sym hf hv
  rw [exec_of_answer (i := .fread sym) hf hv rfl, respond, okCode_append_countValue]

/-- A session goes on from the state its first command answers (R235). -/
theorem session_cons_of_next {i : Instr} {t : State} (h : exec i s = .next t) (is : List Instr) :
    session (i :: is) s = session is t := by
  simp only [session, h]

/-- A body that no reset cuts short and that is never stuck runs to its end or faults. -/
theorem Body.Post.done_or_trap {b : Body} {D E : State → Prop} (h : b.Post D E (fun _ => False) False) :
    (∃ t, b = .done t ∧ D t) ∨ ∃ c info t, b = .trap c info t ∧ E t := by
  cases b with
  | done t => exact .inl ⟨t, rfl, h⟩
  | trap c info t => exact .inr ⟨c, info, t, rfl, h.2⟩
  | cut _ => exact h.elim
  | stuck _ => exact h.elim

/-- `TBUILD` on a map with a counter that is not 0 makes the tree and seals the map (R150). -/
theorem exec_tbuild_of_counted (hf : s.fault = false) (ht : s.tvalid = false) (hl : s.live = [])
    (hsym : s.freqAt sym ≠ 0) : ∃ t, exec .tbuild s = .next t ∧ TreeOf t ∧ t = { s with
      node := t.node, live := t.live, nsym := t.nsym, root := t.root, fvalid := true, tvalid := true, rsp := 0 } := by
  have hexec : exec .tbuild s = (tbuildBody s).finish := exec_of_body hf (by simp [State.ready, ht]) rfl
  obtain ⟨u, hbody, htree, hu⟩ | ⟨_, _, _, -, -, hempty⟩ := (tbuildBody_post hl).done_or_trap
  · rw [hbody] at hexec
    exact ⟨respond okCode 0 u, hexec, htree, congrArg (respond okCode 0) hu⟩
  · exact absurd (hempty sym) hsym

/-- Settles O24: `FLOAD` stores the count (O21), `TBUILD` leaves the counters as they are and seals them, and `FREAD`
answers the counter (O23). -/
theorem freadReturnsTheLoadedCount : Obligations.FreadReturnsTheLoadedCount := by
  intro s sym n hf hv ht hl hn h0
  have hstored : (s.setFreq sym n).freqAt sym = n := freqAt_setFreq_self s sym n
  have hload : exec (.fload sym n) s = .next { s.setFreq sym n with rsp := 0 } := floadStoresTheCount s sym n hf hv hn h0
  obtain ⟨t, hbuild, -, ht'⟩ := exec_tbuild_of_counted (s := { s.setFreq sym n with rsp := 0 }) (sym := sym) hf ht hl
    (by exact hstored.symm ▸ hn)
  have htf : t.fault = false := by rw [ht']; exact hf
  have hcount : t.freqAt sym = n := by rw [ht']; exact hstored
  have hread := freadAnswersTheCounter t sym htf (by rw [ht'])
  rw [hcount] at hread
  refine ⟨{ t with rsp := n.setWidth 64 }, ?_, rfl, htf⟩
  rw [session_cons_of_next hload, session_cons_of_next hbuild, session_cons_of_next hread, session]

end Sys2Proof.Machine
end

section
/-! A hardware reset at a port call of `REWIND`, `FACC`, `BENC` or `ENCODE`, or in the fault entry after a byte that
overflows or has no code (R320, R321). -/

namespace Sys2Proof.Machine

open Sys2Proof.Safety

variable {s t : State} {n : Nat}

/-! ### The state a reset leaves -/

/-- A body that has come, in the state `t`, to the port call number `n` of a command started in `s`, and a reset strikes
there (R320, R321). -/
theorem finish_portCall_of_reset_at {p : Port} {act : State → Option Body} {k : State → Body}
    (ht : t.draws = s.draws.drop n) (he : eventAt s n = .resetStrikes) :
    ((portCall p act t).andThen k).finish = .next { State.reset with
      src := t.src, bsnk := t.bsnk, bsrc := t.bsrc, dsnk := t.dsnk, draws := s.draws.drop (n + 1), host := t.host } := by
  rw [finish_portCall_of_reset ((nextEvent_of_draws_drop ht).trans he), hardReset_eq, popEvent_draws, ht, List.tail_drop]
  rfl

/-- A fault entry whose first abort is the port call number `n` of a command started in `s`, and a reset strikes there
(R286, R320). -/
theorem takeFault_of_reset_at (c : ErrCode) (info : BitVec 16) (ht : t.draws = s.draws.drop n)
    (he : eventAt s n = .resetStrikes) : takeFault c info t = { State.reset with
      src := t.src, bsnk := t.bsnk, bsrc := t.bsrc, dsnk := t.dsnk, draws := s.draws.drop (n + 1), host := t.host } := by
  rw [takeFault_of_reset_first c info ((eventAt_of_drop ht 0).trans he), hardReset_eq, popEvent_draws, ht, List.tail_drop]
  rfl

/-- The same where the reset strikes at the second abort: the bit sink has been aborted. -/
theorem takeFault_of_reset_between_aborts (c : ErrCode) (info : BitVec 16) (ht : t.draws = s.draws.drop n)
    (h0 : eventAt s n ≠ .resetStrikes) (he : eventAt s (n + 1) = .resetStrikes) :
    takeFault c info t = { State.reset with
      bsnk := { t.bsnk with mode := if t.bsnk.mode = .finalized then .finalized else .aborted }
      src := t.src, bsrc := t.bsrc, dsnk := t.dsnk, draws := s.draws.drop (n + 2), host := t.host } := by
  rw [takeFault_of_reset_second c info (by rwa [eventAt_of_drop ht]) (by rwa [eventAt_of_drop ht]), hardReset_eq,
    bitAbort_bsnk, SinkMode.abort_eq, bitAbort_draws, popEvent_draws, popEvent_draws, ht, List.tail_drop, List.tail_drop]
  rfl

/-! ### REWIND, FACC, BENC -/

theorem exec_rewind_of_reset (hf : s.fault = false) (he : eventAt s 0 = .resetStrikes) :
    exec .rewind s = .next { State.reset with
      src := s.src, bsnk := s.bsnk, bsrc := s.bsrc, dsnk := s.dsnk, draws := s.draws.drop 1, host := s.host } := by
  rw [exec_of_body (i := .rewind) hf rfl rfl, ← Body.andThen_done (srcRewind s)]
  exact finish_portCall_of_reset_at rfl he

theorem exec_facc_of_reset (hf : s.fault = false) (hv : s.fvalid = false) (hn : n < (srcRest s).length)
    (hc : ∀ c, (s.freqAt c).toNat + ((srcRest s).take n).count c < 2 ^ 32) (hs : Succeeds n s)
    (he : eventAt s n = .resetStrikes) :
    exec .facc s = .next { State.reset with
      src := { s.src with pos := s.src.pos + n }
      bsnk := s.bsnk, bsrc := s.bsrc, dsnk := s.dsnk, draws := s.draws.drop (n + 1), host := s.host } := by
  obtain ⟨act, k, hbody⟩ := faccBody_next hn hs hc
  rw [exec_facc hf hv, hbody]
  exact finish_portCall_of_reset_at rfl he

/-- `BENC`'s body at any of its port calls where a reset strikes. -/
theorem finish_bencBody_of_reset {r : Nat} {w : List Bool} (hup : EncodedUpTo s (srcRest s) r w)
    (hc : ∀ b ∈ (srcRest s).take r, (s.codeAt b).len ≠ 0) (hm : w ≠ [] → s.bsnk.mode = .opened)
    (hs : Succeeds (r + w.length) s) (he : eventAt s (r + w.length) = .resetStrikes) :
    (bencBody s).finish = .next { State.reset with
      bsnk := { s.bsnk with bits := s.bsnk.bits ++ w }, src := { s.src with pos := s.src.pos + r }
      bsrc := s.bsrc, dsnk := s.dsnk, draws := s.draws.drop (r + w.length + 1), host := s.host } := by
  obtain ⟨p, act, k, hbody, -⟩ := bencBody_next hup hs hm hc
  rw [hbody]
  exact finish_portCall_of_reset_at rfl he

/-- `BENC`'s body up to the byte `b` without a code: it has been read, the codes of the bytes before it are written
(R192, R291). -/
theorem bencBody_missing {before after : List Byte} {b : Byte} (hr : srcRest s = before ++ b :: after)
    (hs : Succeeds (before.length + (codeStream s before).length + 1) s) (hm : s.bsnk.mode = .opened)
    (hc : ∀ c ∈ before, (s.codeAt c).len ≠ 0) (hb : (s.codeAt b).len = 0) :
    bencBody s = .trap .emissing (zextInfo b) { s with
      bsnk := { s.bsnk with bits := s.bsnk.bits ++ codeStream s before }
      src := { s.src with pos := s.src.pos + before.length + 1 }
      draws := s.draws.drop (before.length + (codeStream s before).length + 1) } := by
  have hloop := bencLoop_prefix before (after.length + 1) s _ hr (hs.mono (by omega)) (fun _ => hm) hc
  have hread : ({ s with
      bsnk := { s.bsnk with bits := s.bsnk.bits ++ codeStream s before }
      src := { s.src with pos := s.src.pos + before.length }
      draws := s.draws.drop (before.length + (codeStream s before).length) } : State).nextEvent = .succeeds :=
    (hs.of_drop (n := 1) rfl).nextEvent
  have hlen : (srcRest s).length = before.length + (after.length + 1) := by
    rw [hr, List.length_append, List.length_cons]
  rw [bencBody, remaining_eq_length, ← srcRest, hlen, hloop, bencLoop,
    srcRead_of_succeeds hread (getElem?_of_srcRest hr), encStep, if_pos (by exact hb), Body.trap_andThen, Body.trap_andThen, List.tail_drop]

/-! ### ENCODE -/

theorem exec_encode (hf : s.fault = false) : exec .encode s = (encodeBody s).finish := exec_of_body hf rfl rfl

/-- The state in which `ENCODE` begins to count: the core is cleared and the source rewound (R230). -/
def rewound (s : State) : State :=
  { coreClear s with src := { s.src with pos := 0 }, draws := s.draws.drop 1 }

/-- The state in which `ENCODE` has counted the whole input (R230). -/
def inputCounted (s : State) : State :=
  { rewound s with
    freq := countAll (Vector.replicate Config.numSymbols 0) s.src.data, fvalid := true
    src := { s.src with pos := s.src.data.length }, draws := s.draws.drop (s.src.data.length + 1) }

@[simp] theorem srcRest_rewound (s : State) : srcRest (rewound s) = s.src.data := List.drop_zero

@[simp] theorem freqAt_rewound (s : State) (b : Symbol) : (rewound s).freqAt b = 0 := coreClear_freqAt s b

/-- Starting from cleared counters, the premise of `FACC` speaks of the bytes read alone. -/
theorem rewound_counts {l : List Byte} (hc : ∀ c, l.count c < 2 ^ 32) (c : Byte) :
    ((rewound s).freqAt c).toNat + l.count c < 2 ^ 32 := by
  simpa using hc c

/-- `ENCODE`'s body after its first call. -/
theorem encodeBody_rewound (hs : Succeeds 1 s) :
    encodeBody s = (faccBody (rewound s)).andThen fun t => ((tbuildBody t).andThen cgenBody).andThen fun t =>
      (srcRewind t).andThen bencBody := by
  have hclear : (coreClear s).nextEvent = .succeeds := hs.nextEvent
  rw [encodeBody, srcRewind_of_succeeds hclear, Body.done_andThen, coreClear_draws, ← List.drop_one]
  simp only [Body.andThen_assoc]
  rfl

theorem freqAt_inputCounted (hc : ∀ c, s.src.data.count c < 2 ^ 32) (b : Symbol) :
    ((inputCounted s).freqAt b).toNat = s.src.data.count b := by
  have h := countAll_spec s.src.data (rewound s).freq (rewound_counts (s := s) hc) b
  rw [← State.freqAt, freqAt_rewound] at h
  exact h.trans (Nat.zero_add _)

theorem freqAt_ne_zero_of_mem {l : List Byte} {b : Byte} (h : (s.freqAt b).toNat = l.count b) (hb : b ∈ l) :
    s.freqAt b ≠ 0 := by
  intro h0
  rw [h0] at h
  exact (List.count_pos_iff.mpr hb).ne h

/-- `ENCODE`'s body after its counting pass. -/
theorem encodeBody_inputCounted (hs : Succeeds (s.src.data.length + 1) s) (hc : ∀ c, s.src.data.count c < 2 ^ 32) :
    encodeBody s = ((tbuildBody (inputCounted s)).andThen cgenBody).andThen fun t => (srcRewind t).andThen bencBody := by
  have hfacc : faccBody (rewound s) = .done (inputCounted s) := by
    rw [faccBody_done (Succeeds.of_drop (m := 1) (by rwa [srcRest_rewound, Nat.add_comm]) rfl)
      (by rw [srcRest_rewound]; exact rewound_counts hc), srcRest_rewound]
    simp [inputCounted, rewound, Nat.add_comm]
  rw [encodeBody_rewound (hs.mono (by omega)), hfacc, Body.done_andThen]

/-- The tree and the Code Map of a map, from no tree and no codes: both are made, or the map is empty (R150, R157, R170). -/
theorem tbuildBody_cgenBody_post (hl : s.live = []) (hcode : s.code = Vector.replicate Config.numSymbols Code.none) :
    ((tbuildBody s).andThen cgenBody).Post
      (fun t => TreeOf t ∧ CodesOf t ∧ t = { s with
        node := t.node, live := t.live, nsym := t.nsym, root := t.root, code := t.code
        fvalid := true, tvalid := true, cvalid := true })
      (fun t => t = { s with node := [], nsym := 0, fvalid := true } ∧ ∀ b, s.freqAt b = 0) (fun _ => False) False := by
  refine (tbuildBody_post hl).andThen fun t ⟨htree, ht⟩ => cgenBody_post.mono ?_ (fun _ => False.elim)
    (fun _ => False.elim) fun h => h htree
  rintro u ⟨htable, hu⟩
  have htcode : t.code = Vector.replicate Config.numSymbols Code.none := by rw [ht]; exact hcode
  rw [htcode] at htable
  refine ⟨by rw [hu]; exact htree, by rw [hu]; exact htable, ?_⟩
  rw [hu, ht]

/-- `ENCODE`'s body at a port call up to its second rewind where a reset strikes. On an empty input the call after the
counting pass is not that rewind but the first abort, and the reset leaves the same state. -/
theorem finish_encodeBody_of_reset_counting (hn : n ≤ s.src.data.length)
    (hc : ∀ c, (s.src.data.take n).count c < 2 ^ 32) (hs : Succeeds (n + 1) s) (he : eventAt s (n + 1) = .resetStrikes) :
    (encodeBody s).finish = .next { State.reset with
      src := { s.src with pos := n }
      bsnk := s.bsnk, bsrc := s.bsrc, dsnk := s.dsnk, draws := s.draws.drop (n + 2), host := s.host } := by
  rcases hn.lt_or_eq with hlt | rfl
  · obtain ⟨act, k, hbody⟩ := faccBody_next (s := rewound s) (n := n) (by rwa [srcRest_rewound])
      (Succeeds.of_drop (m := 1) (by rwa [Nat.add_comm]) rfl) (by rw [srcRest_rewound]; exact rewound_counts hc)
    rw [encodeBody_rewound (hs.mono (by omega)), hbody, Body.andThen_assoc,
      finish_portCall_of_reset_at (s := s) (n := n + 1) (by simp [rewound]) he]
    simp [rewound]
  · rw [List.take_length] at hc
    rw [encodeBody_inputCounted hs hc]
    obtain ⟨t, hbody, -, -, ht⟩ | ⟨c, info, t, hbody, rfl, -⟩ :=
      (tbuildBody_cgenBody_post (s := inputCounted s) rfl rfl).done_or_trap
    · rw [hbody, Body.done_andThen, ht]
      exact finish_portCall_of_reset_at rfl he
    · rw [hbody, Body.trap_andThen, Body.finish_trap]
      exact congrArg _ (takeFault_of_reset_at c info rfl he)

/-! ### The encoding pass -/

theorem freq_eq_of_freqAt (h : ∀ b, s.freqAt b = t.freqAt b) : s.freq = t.freq := by
  refine Vector.ext fun i hi => ?_
  have hb := h (BitVec.ofNat 8 i)
  simpa [State.freqAt, Nat.mod_eq_of_lt hi] using hb

/-- Two states with the builder's tree and the generator's codes of the same counts have the same codes (R159, R175). -/
theorem code_eq_of_freq_eq (hs : TreeOf s) (hcs : CodesOf s) (ht : TreeOf t) (hct : CodesOf t) (h : s.freq = t.freq) :
    s.code = t.code := by
  obtain ⟨-, -, hs⟩ := hs
  obtain ⟨-, -, ht⟩ := ht
  rw [h, ht] at hs
  simp only [Option.some.injEq, Prod.mk.injEq, Arena.mk.injEq] at hs
  obtain ⟨⟨hnode, -⟩, hroot⟩ := hs
  rw [CodesOf, ← hnode, ← hroot, hct] at hcs
  exact (Option.some.inj hcs).symm

theorem encodedUpTo_of_code_eq {S : List Byte} {r : Nat} {w : List Bool} (hcode : s.code = t.code)
    (h : EncodedUpTo s S r w) : EncodedUpTo t S r w := by
  have hstream : codeStream s = codeStream t := by
    funext l
    simp only [codeStream, State.codeAt, hcode]
  rwa [EncodedUpTo, hstream] at h

/-- `ENCODE`'s body after its second rewind: the core holds the tree and the codes of the input's counts (R230). -/
theorem encodeBody_coded (hne : s.src.data ≠ []) (hc : ∀ c, s.src.data.count c < 2 ^ 32)
    (hs : Succeeds (s.src.data.length + 2) s) :
    ∃ u, encodeBody s = bencBody u ∧ TreeOf u ∧ CodesOf u ∧ u = { inputCounted s with
      node := u.node, live := u.live, nsym := u.nsym, root := u.root, code := u.code, tvalid := true, cvalid := true
      src := { s.src with pos := 0 }, draws := s.draws.drop (s.src.data.length + 2) } := by
  rw [encodeBody_inputCounted (hs.mono (by omega)) hc]
  obtain ⟨t, hbody, htree, hcodes, ht⟩ | ⟨_, _, _, -, -, hempty⟩ :=
    (tbuildBody_cgenBody_post (s := inputCounted s) rfl rfl).done_or_trap
  · have hdraws : t.draws = s.draws.drop (s.src.data.length + 1) := by rw [ht]; rfl
    have hnext : t.nextEvent = .succeeds := (Succeeds.of_drop (n := 1) hs hdraws).nextEvent
    rw [hbody, Body.done_andThen, srcRewind_of_succeeds hnext, Body.done_andThen]
    refine ⟨_, rfl, htree, hcodes, ?_⟩
    rw [hdraws, List.tail_drop, ht]
    rfl
  · obtain ⟨b, hb⟩ := List.exists_mem_of_ne_nil _ hne
    exact absurd (hempty b) (freqAt_ne_zero_of_mem (freqAt_inputCounted hc b) hb)

/-- `ENCODE`'s body at a port call of its encoding pass where a reset strikes; `t` holds the codes of the input's counts. -/
theorem finish_encodeBody_of_reset_encoding {r : Nat} {w : List Bool} (htree : TreeOf t) (hcodes : CodesOf t)
    (hfreq : ∀ b, (t.freqAt b).toNat = s.src.data.count b) (hup : EncodedUpTo t s.src.data r w)
    (hm : w ≠ [] → s.bsnk.mode = .opened) (hn : n = s.src.data.length + 2 + r + w.length) (hs : Succeeds n s)
    (he : eventAt s n = .resetStrikes) :
    (encodeBody s).finish = .next { State.reset with
      bsnk := { s.bsnk with bits := s.bsnk.bits ++ w }, src := { s.src with pos := r }
      bsrc := s.bsrc, dsnk := s.dsnk, draws := s.draws.drop (n + 1), host := s.host } := by
  have hc : ∀ c, s.src.data.count c < 2 ^ 32 := fun c => hfreq c ▸ (t.freqAt c).isLt
  have hne : s.src.data ≠ [] := by
    intro hnil
    obtain ⟨hleaves, -⟩ := htree
    refine hleaves ((initLeaves_eq_nil_iff t).mpr fun b => BitVec.eq_of_toNat_eq ?_)
    rw [hfreq, hnil]
    rfl
  obtain ⟨u, hbody, hutree, hucodes, hu⟩ := encodeBody_coded hne hc (hs.mono (by omega))
  have hufreq : ∀ b, (u.freqAt b).toNat = s.src.data.count b := by
    rw [hu]
    exact freqAt_inputCounted hc
  have hcode := code_eq_of_freq_eq htree hcodes hutree hucodes
    (freq_eq_of_freqAt fun b => BitVec.eq_of_toNat_eq ((hfreq b).trans (hufreq b).symm))
  have hrest : srcRest u = s.src.data := by rw [hu]; rfl
  have hdraws : u.draws = s.draws.drop (s.src.data.length + 2) := by rw [hu]
  have hcoded : ∀ b ∈ s.src.data.take r, (u.codeAt b).len ≠ 0 := fun b hb =>
    (hucodes.len_ne_zero_iff hutree).mpr (freqAt_ne_zero_of_mem (hufreq b) (List.mem_of_mem_take hb))
  rw [hbody, finish_bencBody_of_reset (r := r) (w := w) (by rw [hrest]; exact encodedUpTo_of_code_eq hcode hup)
    (by rwa [hrest]) (by rw [hu]; exact hm) (Succeeds.of_drop (by rwa [hn, Nat.add_assoc] at hs) hdraws)
    (by rw [eventAt_of_drop hdraws, ← Nat.add_assoc, ← hn, he]), hdraws, List.drop_drop, hu]
  simp [hn, inputCounted, rewound, Nat.add_assoc]

/-! ### The statement -/

/-- Settles O15: at a port call because the body has come to it (`faccBody_next`, `bencBody_next`, and for `ENCODE` the
two of them in turn), in a fault entry because the body has ended in its fault (`faccBody_overflow`, `bencBody_missing`). -/
theorem resetCutsEncodingShort : Obligations.ResetCutsEncodingShort := by
  refine ⟨fun s hf he => ⟨exec_rewind_of_reset hf he, ?_⟩, ?_, ?_, ?_, ?_, ?_, ?_⟩
  · rw [exec_encode hf, encodeBody]
    exact finish_portCall_of_reset_at (s := s) rfl he
  · intro s n hf hv hn hc hs he
    exact exec_facc_of_reset hf hv hn hc hs he
  · intro s r n w hf hcv hed hup hc hm hn hs he
    subst hn
    rw [exec_benc hf hcv hed]
    exact finish_bencBody_of_reset hup hc hm hs he
  · intro s n hf hn hc hs he
    rw [exec_encode hf]
    exact finish_encodeBody_of_reset_counting hn hc hs he
  · intro s t r n w hf htree hcodes hfreq hup hm hn hs he
    rw [exec_encode hf]
    exact finish_encodeBody_of_reset_encoding htree hcodes hfreq hup hm hn hs he
  · intro s before after b n hf hv hr hc hb hn hs
    subst hn
    rw [exec_facc hf hv, faccBody_overflow hr hs hc hb, Body.finish_trap]
    exact ⟨fun he => congrArg _ (takeFault_of_reset_at _ _ rfl he),
      fun h0 he => congrArg _ (takeFault_of_reset_between_aborts _ _ rfl h0 he)⟩
  · intro s before after b n hf hcv hed hm hr hc hb hn hs
    subst hn
    rw [exec_benc hf hcv hed, bencBody_missing hr hs hm hc hb, Body.finish_trap]
    refine ⟨fun he => congrArg _ (takeFault_of_reset_at _ _ rfl he), fun h0 he => ?_⟩
    rw [takeFault_of_reset_between_aborts _ _ rfl h0 he, if_neg (by rw [hm]; decide)]

end Sys2Proof.Machine
end

section
/-! The tree builder (R150 to R159): one turn of its loop, the tree `TBUILD` makes of the counters, and the fault that an
empty map takes. -/

namespace Sys2Proof.Machine

open Sys2Proof.Safety

variable {s t : State} {F : Handle → Nat}

/-! ### One turn of the loop -/

theorem Allocated.toNat_lt {node : List Node} {l : List Handle} (ha : Allocated node F l) {h : Handle} (hh : h ∈ l) :
    h.toNat < node.length := by
  obtain ⟨x, hx, -⟩ := ha h hh
  exact (List.getElem?_eq_some_iff.1 hx).1

theorem Allocated.freqOf_of_mem {node : List Node} {l : List Handle} (ha : Allocated node F l) {h : Handle}
    (hh : h ∈ l) : freqOf node h = F h := by
  obtain ⟨x, hx, hF⟩ := ha h hh
  rw [freqOf_eq hx, hF]

theorem KeyLt.congr {G : Handle → Nat} {i j : Handle} (h : KeyLt F i j) (hi : F i = G i) (hj : F j = G j) :
    KeyLt G i j := by
  rw [KeyLt, ← hi, ← hj]
  exact h

theorem mem_erase_erase_sorted {l : List Handle} (hl : LiveSorted l) {h i j : Handle} :
    h ∈ (l.erase i).erase j ↔ h ∈ l ∧ h ≠ i ∧ h ≠ j := by
  rw [mem_erase_sorted (erase_sorted i hl), mem_erase_sorted hl]
  tauto

theorem append_singleton_sorted {l : List Handle} {h : Handle} (hl : LiveSorted l) (hlt : ∀ x ∈ l, x < h) :
    LiveSorted (l ++ [h]) :=
  List.pairwise_append.2 ⟨hl, List.pairwise_singleton _ _, fun x hx _ hy => List.mem_singleton.1 hy ▸ hlt x hx⟩

theorem eq_ofNat_handle_iff {h : Handle} {n : Nat} (hn : n < 512) : h = BitVec.ofNat 9 n ↔ h.toNat = n :=
  (BitVec.toNat_eq_nat.trans (and_iff_right hn)).symm

/-- Settles O27: `combineStep_spec` with the given frequencies; the new handle is the greatest, so the collection stays
rising. -/
theorem combineStepMergesTheTwoFirst : Obligations.CombineStepMergesTheTwoFirst := by
  intro a F hn h2 hs (ha : Allocated a.node F a.live)
  obtain ⟨l, r, x, y, hl, hr, hlr, hx, hy, hlmin, hrmin, hstep⟩ := combineStep_spec hs (fun _ => ha.toNat_lt) h2 hn
  have hkey : ∀ {i h}, i ∈ a.live → h ∈ a.live → KeyLt (freqOf a.node) i h → KeyLt F i h :=
    fun hi hh hk => hk.congr (ha.freqOf_of_mem hi) (ha.freqOf_of_mem hh)
  have hnew : ∀ {h : Handle}, h = BitVec.ofNat 9 a.node.length ↔ h.toNat = a.node.length :=
    eq_ofNat_handle_iff (by omega)
  refine ⟨_, l, r, _, hstep, hl, hr, hlr, fun h hh hne => hkey hl hh (hlmin h hh hne),
    fun h hh hnl hnr => hkey hr hh (hrmin h hh hnl hnr), rfl, fun hsum => ?_, ?_, fun h => ?_⟩
  · rw [← ha.freqOf_of_mem hl, ← ha.freqOf_of_mem hr, freqOf_eq hx, freqOf_eq hy] at hsum ⊢
    exact BitVec.toNat_add_of_lt hsum
  · refine append_singleton_sorted (erase_sorted r (erase_sorted l hs)) fun h hh => ?_
    rw [handle_lt_iff, hnew.1 rfl]
    exact ha.toNat_lt ((mem_erase_erase_sorted hs).1 hh).1
  · rw [List.mem_append, List.mem_singleton, mem_erase_erase_sorted hs, hnew]

/-! ### The tree -/

/-- Settles O25: `exec_tbuild_of_counted` for the symbol that is counted. -/
theorem tbuildBuildsATree : Obligations.TbuildBuildsATree :=
  fun _ hf ht hl ⟨_, hb⟩ => exec_tbuild_of_counted hf ht hl hb

/-- Settles O30: the frequencies of the roots of the builder's forest sum up to the total of the counters, and at the end
there is one root. -/
theorem rootFrequencyIsTheTotal : Obligations.RootFrequencyIsTheTotal := by
  intro s ht
  obtain ⟨hlive, hforest⟩ := ht.forest
  have hsum : freqOf s.node s.root = totalCount s.freq := by simpa [hlive] using hforest.sum
  have hroot : s.root.toNat < s.node.length := hforest.alloc s.root (by simp [hlive])
  have hx : s.nodeAt? s.root = some s.node[s.root.toNat] := List.getElem?_eq_getElem hroot
  exact ⟨_, hx, by rw [← freqOf_eq hx, hsum]⟩

/-- Two states with the builder's tree of the same counters hold the same tree (R159). -/
theorem tree_eq_of_freq_eq (hs : TreeOf s) (ht : TreeOf t) (h : s.freq = t.freq) :
    s.node = t.node ∧ s.live = t.live ∧ s.nsym = t.nsym ∧ s.root = t.root := by
  obtain ⟨-, hnsym, hbuild⟩ := hs
  obtain ⟨-, hnsym', hbuild'⟩ := ht
  rw [h] at hnsym hbuild
  rw [hbuild'] at hbuild
  simp only [Option.some.injEq, Prod.mk.injEq, Arena.mk.injEq] at hbuild
  obtain ⟨⟨hnode, hlive⟩, hroot⟩ := hbuild
  exact ⟨hnode.symm, hlive.symm, hnsym.trans hnsym'.symm, hroot.symm⟩

/-! ### One symbol -/

theorem counted_of_one {b : Symbol} (h : ∀ a, s.freqAt a ≠ 0 ↔ a = b) : counted s.freq = [b.toNat] := by
  refine List.perm_singleton.1 ((List.perm_ext_iff_of_nodup (counted_nodup _) (List.nodup_singleton _)).2 fun n => ?_)
  rw [mem_counted, List.mem_singleton]
  constructor
  · rintro ⟨hn, hne⟩
    have hb := (h (BitVec.ofNat 8 n)).1 (by rwa [freqAt_eq_getD, BitVec.toNat_ofNat, Nat.mod_eq_of_lt hn])
    rw [← hb, BitVec.toNat_ofNat, Nat.mod_eq_of_lt hn]
  · rintro rfl
    exact ⟨b.isLt, by rw [← freqAt_eq_getD]; exact (h b).2 rfl⟩

theorem initLeaves_of_one {b : Symbol} (h : ∀ a, s.freqAt a ≠ 0 ↔ a = b) :
    initLeaves s.freq = [.leaf b (zextFreq (s.freqAt b))] := by
  rw [initLeaves_eq, counted_of_one h, freqAt_eq_getD, List.map_singleton, BitVec.ofNat_toNat, BitVec.setWidth_eq]

/-- One leaf is a tree: the loop makes no turn (R156). -/
theorem buildTree_singleton (x : Node) : buildTree ⟨[x], liveLeaves 1 []⟩ = some (⟨[x], [0]⟩, 0) := rfl

/-- Settles O32: the builder's tree of the counters (O25) is the one leaf. -/
theorem oneSymbolGivesOneLeaf : Obligations.OneSymbolGivesOneLeaf := by
  intro s b hf ht hl hb
  obtain ⟨t, hexec, htree, hframe⟩ := exec_tbuild_of_counted hf ht hl ((hb b).2 rfl)
  have hleaves : initLeaves t.freq = [.leaf b (zextFreq (s.freqAt b))] := by rw [hframe]; exact initLeaves_of_one hb
  obtain ⟨-, hnsym, hbuild⟩ := htree
  rw [hleaves, List.length_singleton] at hnsym hbuild
  rw [buildTree_singleton] at hbuild
  simp only [Option.some.injEq, Prod.mk.injEq, Arena.mk.injEq] at hbuild
  obtain ⟨⟨hnode, hlive⟩, hroot⟩ := hbuild
  rw [hexec, hframe, ← hnode, ← hlive, ← hroot, hnsym]
  rfl

/-! ### The empty map -/

theorem tbuildBody_of_empty (h : ∀ b, s.freqAt b = 0) :
    tbuildBody s = .trap .eempty 0 { s with node := [], nsym := 0, fvalid := true } := by
  have hleaves : afterInitLeaves s = { s with node := [], nsym := 0, fvalid := true } := by
    rw [afterInitLeaves, (initLeaves_eq_nil_iff s).2 h]
    rfl
  rw [tbuildBody, hleaves]
  exact if_pos rfl

/-- Settles O26: `DECODE` ends where its first part does. -/
theorem tbuildRejectsAnEmptyMap : Obligations.TbuildRejectsAnEmptyMap := by
  intro i s hi hf ht ha h0
  have hexec : exec i s = (tbuildBody s).finish := by
    rcases hi with rfl | ⟨rfl, hd⟩
    · exact exec_of_body hf (by simp [State.ready, ht]) rfl
    · rw [exec_of_body (i := .decode) hf (by simp [State.ready, ht, hd]) rfl, decodeBody, tbuildBody_of_empty h0,
        Body.trap_andThen]
  rw [hexec, tbuildBody_of_empty h0, Body.finish_trap, takeFault_eq _ _ (by exact ha)]
  rfl

/-- Settles O31: both maps are empty (O26), or both have the builder's tree of the same counters (O25). -/
theorem tbuildDependsOnTheCountersOnly : Obligations.TbuildDependsOnTheCountersOnly := by
  intro s s' t t' hfreq hl hl' hf hf' htv htv' ha ha' ht ht'
  have hfreqAt : ∀ b, s.freqAt b = s'.freqAt b := fun b => by simp only [State.freqAt, hfreq]
  by_cases h0 : ∀ b, s.freqAt b = 0
  · rw [tbuildRejectsAnEmptyMap .tbuild s (.inl rfl) hf htv ha h0] at ht
    rw [tbuildRejectsAnEmptyMap .tbuild s' (.inl rfl) hf' htv' ha' fun b => hfreqAt b ▸ h0 b] at ht'
    cases ht
    cases ht'
    exact ⟨rfl, hl.trans hl'.symm, rfl, rfl, nofun⟩
  · obtain ⟨b, hb⟩ := not_forall.1 h0
    obtain ⟨u, hu, htree, hframe⟩ := exec_tbuild_of_counted hf htv hl hb
    obtain ⟨u', hu', htree', hframe'⟩ := exec_tbuild_of_counted hf' htv' hl' (hfreqAt b ▸ hb)
    obtain rfl : u = t := Host.Outcome.next.inj (hu.symm.trans ht)
    obtain rfl : u' = t' := Host.Outcome.next.inj (hu'.symm.trans ht')
    obtain ⟨hnode, hlive, hnsym, hroot⟩ := tree_eq_of_freq_eq htree htree' (by rw [hframe, hframe']; exact hfreq)
    have hfault : u.fault = u'.fault := by rw [hframe, hframe']; exact hf.trans hf'.symm
    exact ⟨hnode, hlive, hnsym, hfault, fun _ => hroot⟩

end Sys2Proof.Machine
end

section
/-! The code-table generator (R170 to R172): `CGEN` on the builder's tree, and the codes as paths in it. -/

namespace Sys2Proof.Machine

open Sys2Proof.Safety

variable {s : State}

theorem exec_cgen (hf : s.fault = false) (ht : s.tvalid = true) (hcv : s.cvalid = false) :
    exec .cgen s = (cgenBody s).finish :=
  exec_of_body hf (by simp [State.ready, ht, hcv]) rfl

/-- On the builder's tree and a cleared Code Map `CGEN`'s body runs to its end with the generator's codes (R170). -/
theorem cgenBody_done (htree : TreeOf s) (hcode : s.code = Vector.replicate Config.numSymbols Code.none) :
    ∃ t, cgenBody s = .done t ∧ CodesOf t ∧ t = { s with code := t.code, cvalid := true } := by
  obtain ⟨t, hbody, htable, ht⟩ | ⟨_, _, _, -, hno⟩ :=
    (cgenBody_post.mono (fun _ => id) (fun _ => id) (fun _ => id) (absurd htree)).done_or_trap
  · refine ⟨t, hbody, ?_, ht⟩
    rw [hcode] at htable
    rw [CodesOf, ht]
    exact htable
  · exact hno.elim

/-- Settles O33: the response is all that the command adds to its body (`cgenBody_done`). -/
theorem cgenGeneratesTheCodeMap : Obligations.CgenGeneratesTheCodeMap := by
  intro s hf htv hcv htree hcode
  obtain ⟨t, hbody, hcodes, ht⟩ := cgenBody_done htree hcode
  refine ⟨respond okCode 0 t, ?_, hcodes, congrArg (respond okCode 0) ht⟩
  rw [exec_cgen hf htv hcv, hbody, Body.finish_done]

/-- Settles O35: the entry of a counted symbol is stored from "0" (`CodesOf.lone`) or from the path to its leaf
(`CodesOf.path`), and a stored code of at most 255 bits reads back as its bits. -/
theorem codeIsThePathToTheLeaf : Obligations.CodeIsThePathToTheLeaf := by
  intro s htree hcodes b hb
  constructor
  · intro hlone
    obtain ⟨-, hcode⟩ := hcodes.lone htree hlone hb
    rw [hcode, Code.string_ofBits (by decide)]
  · intro hmany
    obtain ⟨q, f, hpath, -, hlen, hcode⟩ := hcodes.path htree hmany hb
    refine ⟨f, ?_⟩
    rw [hcode, Code.string_ofBits hlen, hpath]

end Sys2Proof.Machine
end

section
/-! How an encoding or decoding run ends: `BENC` at a byte without a code (R192), and the sinks that become FINAL (R193,
R215, R238). -/

namespace Sys2Proof.Machine

open Sys2Proof.Safety

variable {s t : State} {i : Instr}

/-- Settles O40: the body reads the byte and faults on it (`bencBody_missing`), and the fault entry runs. -/
theorem bencMissingCodeIsPrecise : Obligations.BencMissingCodeIsPrecise := by
  intro s before after b hf hcv hed hio hm hr hc hb
  rw [exec_benc hf hcv hed, bencBody_missing hr (hio.succeeds _) hm hc hb, Body.finish_trap,
    takeFault_eq _ _ ((hio.of_draws_drop rfl).abortsRun 0), faulted, List.drop_drop, if_neg (by rw [hm]; decide)]
  rfl

/-! ### Sinks that become FINAL -/

/-- A sink that is FINAL in `t` and not in `s` has been made so by a command `i` of its port, which has answered 0, set
its flag and drained its source (R193, R215, R238). -/
def NewFinalIsComplete (i : Instr) (s t : State) : Prop :=
  (s.bsnk.mode ≠ .finalized → t.bsnk.mode = .finalized →
    (i = .benc ∨ i = .encode) ∧ t.fault = false ∧ t.rsp = 0 ∧ t.edone = true ∧ t.src.data.length ≤ t.src.pos) ∧
  (s.dsnk.mode ≠ .finalized → t.dsnk.mode = .finalized →
    (i = .bdec ∨ i = .decode) ∧ t.fault = false ∧ t.rsp = 0 ∧ t.ddone = true ∧ t.bsrc.bits.length ≤ t.bsrc.pos)

/-- A sink that is FINAL in `t` is so in `s`. -/
def NoNewFinal (s t : State) : Prop :=
  (t.bsnk.mode = .finalized → s.bsnk.mode = .finalized) ∧ (t.dsnk.mode = .finalized → s.dsnk.mode = .finalized)

theorem NoNewFinal.refl (s : State) : NoNewFinal s s := ⟨id, id⟩

theorem newFinalIsComplete_of_noNewFinal (h : NoNewFinal s t) : NewFinalIsComplete i s t :=
  ⟨fun hs ht => absurd (h.1 ht) hs, fun hs ht => absurd (h.2 ht) hs⟩

/-- The finalize of the bit sink, at the end of an encoding (R193). -/
theorem newFinalIsComplete_of_encoding (hi : i = .benc ∨ i = .encode) (hdsnk : t.dsnk = s.dsnk) (hf : t.fault = false)
    (hrsp : t.rsp = 0) (hdone : t.edone = true) (hend : t.src.data.length ≤ t.src.pos) : NewFinalIsComplete i s t :=
  ⟨fun _ _ => ⟨hi, hf, hrsp, hdone, hend⟩, fun hs ht => absurd (hdsnk ▸ ht) hs⟩

/-- The finalize of the byte sink, at the end of a decoding (R215). -/
theorem newFinalIsComplete_of_decoding (hi : i = .bdec ∨ i = .decode) (hbsnk : t.bsnk = s.bsnk) (hf : t.fault = false)
    (hrsp : t.rsp = 0) (hdone : t.ddone = true) (hend : t.bsrc.bits.length ≤ t.bsrc.pos) : NewFinalIsComplete i s t :=
  ⟨fun hs ht => absurd (hbsnk ▸ ht) hs, fun _ _ => ⟨hi, hf, hrsp, hdone, hend⟩⟩

/-! ### No sink becomes FINAL in a run that a fault or a reset ends -/

theorem SinkMode.abort_eq_finalized_iff {m : SinkMode} : m.abort = .finalized ↔ m = .finalized := by
  cases m <;> simp [SinkMode.abort]

theorem NoNewFinal.bitAbort (h : NoNewFinal s t) : NoNewFinal s (bitAbort t) :=
  ⟨fun ht => h.1 (SinkMode.abort_eq_finalized_iff.1 ht), h.2⟩

/-- A fault entry aborts sinks and finalizes none, also where a reset cuts it short (R286, R321). -/
theorem NoNewFinal.takeFault (h : NoNewFinal s t) (c : ErrCode) (info : BitVec 16) :
    NoNewFinal s (takeFault c info t) := by
  obtain he | ⟨-, he⟩ | ⟨-, he⟩ := takeFault_cases c info t <;> rw [he]
  · simpa [NoNewFinal] using h
  · exact h
  · exact h.bitAbort

theorem FaccFrame.noNewFinal {n : Nat} (h : FaccFrame n s t) : NoNewFinal s t := by
  obtain ⟨f, p, d, rfl, -⟩ := h
  exact .refl _

theorem BencFrame.noNewFinal {n : Nat} (h : BencFrame n s t) : NoNewFinal s t := by
  obtain ⟨w, p, d, rfl, -⟩ := h
  exact .refl _

theorem BdecFrame.noNewFinal {n : Nat} (h : BdecFrame n s t) : NoNewFinal s t := by
  obtain ⟨q, w, p, d, rfl, -⟩ := h
  exact .refl _

theorem EncodeFrame.noNewFinal (h : EncodeFrame s t) : NoNewFinal s t := by
  obtain ⟨w, p, d, ht, -⟩ := h
  rw [ht]
  exact .refl _

theorem DecodeFrame.noNewFinal (h : DecodeFrame s t) : NoNewFinal s t := by
  obtain ⟨w, p, d, ht, -⟩ := h
  rw [ht]
  exact .refl _

/-! ### The bodies -/

/-- A body that runs to its end and answers has finalized no sink, or one whose source it has drained. -/
theorem bodyOf_newFinalIsComplete {b : Body} (hf : s.fault = false) (hb : bodyOf i s = some b) :
    b.Post (fun t => NewFinalIsComplete i s (respond okCode 0 t)) (NoNewFinal s) (NoNewFinal s) True := by
  cases i with
  | clr | stat | fread _ | cread _ _ => cases hb
  | rewind =>
    cases hb
    refine srcRewind_post.mono ?_ (by rintro t rfl; exact .refl s) (by rintro t ⟨rfl, -⟩; exact .refl s) False.elim
    rintro t rfl
    exact newFinalIsComplete_of_noNewFinal (.refl s)
  | facc =>
    cases hb
    refine faccBody_post.mono ?_ (fun t ht => ht.noNewFinal) (fun t ht => ht.1.noNewFinal) False.elim
    rintro t ⟨u, hu, rfl, -⟩
    exact newFinalIsComplete_of_noNewFinal hu.noNewFinal
  | fload sym count =>
    cases hb
    refine floadBody_post.mono ?_ (by rintro t rfl; exact .refl t) (fun _ => False.elim) False.elim
    rintro t rfl
    exact newFinalIsComplete_of_noNewFinal (.refl s)
  | tbuild =>
    cases hb
    refine tbuildBody_frame.mono (fun t ht => ?_) (fun t ht => ?_) (fun _ => False.elim) id
    · rw [ht]
      exact newFinalIsComplete_of_noNewFinal (.refl s)
    · rw [ht]
      exact .refl s
  | cgen =>
    cases hb
    refine cgenBody_post.mono (fun t ⟨_, ht⟩ => ?_) (fun _ => False.elim) (fun _ => False.elim) fun _ => trivial
    rw [ht]
    exact newFinalIsComplete_of_noNewFinal (.refl s)
  | benc =>
    cases hb
    refine bencBody_post.mono ?_ (fun t ht => ht.noNewFinal) (fun t ht => ht.1.noNewFinal) False.elim
    rintro t ⟨u, ⟨w, p, d, rfl, -⟩, hpos, -, rfl⟩
    exact newFinalIsComplete_of_encoding (.inl rfl) rfl hf rfl rfl (hpos.symm ▸ le_add_tsub)
  | bdec =>
    cases hb
    refine bdecBody_post.mono ?_ (fun t ht => ht.noNewFinal) (fun t ht => ht.1.noNewFinal) fun _ => trivial
    rintro t ⟨u, ⟨q, w, p, d, rfl, -⟩, hpos, -, -, rfl⟩
    exact newFinalIsComplete_of_decoding (.inl rfl) rfl hf rfl rfl (hpos.symm ▸ le_add_tsub)
  | encode =>
    cases hb
    refine encodeBody_post.mono ?_ (fun t ht => ht.noNewFinal) (fun t ht => ht.1.noNewFinal) False.elim
    rintro t ⟨-, -, -, w, d, -, ht⟩
    rw [ht]
    exact newFinalIsComplete_of_encoding (.inr rfl) rfl rfl rfl rfl le_rfl
  | decode =>
    cases hb
    refine (decodeBody_post (S := True) (.inl trivial)).mono ?_ (fun t ht => ht.noNewFinal)
      (fun t ht => ht.1.noNewFinal) id
    rintro t ⟨-, -, -, w, d, -, ht⟩
    rw [ht]
    exact newFinalIsComplete_of_decoding (.inr rfl) rfl hf rfl rfl le_add_tsub

/-- Settles O56: a body that ends well has drained the source of the sink it finalizes, and nothing else finalizes one. -/
theorem finalOutputsAreComplete : Obligations.FinalOutputsAreComplete := by
  intro i s t h
  change NewFinalIsComplete i s t
  obtain ⟨-, rfl⟩ | ⟨-, rfl⟩ | ⟨-, -, -, rfl⟩ | ⟨-, -, rfl⟩ | ⟨-, -, v, -, rfl⟩ | ⟨hf, -, b, hb, ht⟩ :=
    exec_next_cases h
  · exact newFinalIsComplete_of_noNewFinal (.refl s)
  · exact newFinalIsComplete_of_noNewFinal (.refl s)
  · exact newFinalIsComplete_of_noNewFinal (.refl s)
  · exact newFinalIsComplete_of_noNewFinal ((NoNewFinal.refl s).takeFault _ _)
  · exact newFinalIsComplete_of_noNewFinal (.refl s)
  · obtain ⟨u, hu, rfl⟩ | ⟨c, info, u, -, hu, rfl⟩ | ⟨u, hu, rfl⟩ := (bodyOf_newFinalIsComplete hf hb).finish ht
    · exact hu
    · exact newFinalIsComplete_of_noNewFinal (hu.takeFault c info)
    · exact newFinalIsComplete_of_noNewFinal hu

end Sys2Proof.Machine
end

section
/-! Paths in the builder's tree (R25, R26, R171): a path is known by the node it ends at. -/

namespace Sys2Proof.Safety

open Sys2Proof.Machine

variable {node : List Node} {root h : Handle} {k i j : Nat} {s : State}

/-- The first step of a path. -/
theorem follow_cons_eq_some {v : Bool} {q : List Bool} {i : Handle} {x : Node} : follow node (v :: q) i = some x ↔
    ∃ f l r, node[i.toNat]? = some (.internal f l r) ∧ follow node q (if v then r else l) = some x := by
  rcases hi : node[i.toNat]? with _ | ⟨_, _⟩ | ⟨f, l, r⟩
  · simp [follow, hi]
  · simp [follow, hi]
  · simp [follow_cons_internal hi, and_assoc]

/-- The last step of a path. -/
theorem follow_concat {q : List Bool} {v : Bool} {i : Handle} {x : Node} : follow node (q ++ [v]) i = some x ↔
    ∃ f l r, follow node q i = some (.internal f l r) ∧ node[(if v then r else l).toNat]? = some x := by
  induction q generalizing i with
  | nil => exact follow_cons_eq_some
  | cons w q ih =>
    simp only [List.cons_append, follow_cons_eq_some, ih]
    constructor
    · rintro ⟨f, l, r, hi, g, l', r', hq, hx⟩
      exact ⟨g, l', r', ⟨f, l, r, hi, hq⟩, hx⟩
    · rintro ⟨g, l', r', ⟨f, l, r, hi, hq⟩, hx⟩
      exact ⟨f, l, r, hi, g, l', r', hq, hx⟩

/-- Along a path every node but the last is internal. -/
theorem follow_before_end {q p : List Bool} {i : Handle} {x : Node} (h : follow node (q ++ p) i = some x)
    (hp : p ≠ []) : ∃ f l r, follow node q i = some (.internal f l r) := by
  induction q generalizing i with
  | nil =>
    obtain ⟨v, p, rfl⟩ := List.exists_cons_of_ne_nil hp
    obtain ⟨f, l, r, hi, -⟩ := follow_cons_eq_some.1 h
    exact ⟨f, l, r, hi⟩
  | cons v q ih =>
    obtain ⟨f, l, r, hi, hq⟩ := follow_cons_eq_some.1 h
    rw [follow_cons_internal hi]
    exact ih hq

theorem childCount_take_add_drop (node : List Node) (n : Nat) (h : Handle) :
    childCount (node.take n) h + childCount (node.drop n) h = childCount node h := by
  simp only [childCount_eq]
  rw [← List.sum_append, ← List.map_append, List.take_append_drop]

/-- Two owners of a handle count twice. -/
theorem two_le_childCount {f l r f' l' r'} (hij : i < j) (hi : node[i]? = some (.internal f l r)) (hl : l = h ∨ r = h)
    (hj : node[j]? = some (.internal f' l' r')) (hl' : l' = h ∨ r' = h) : 2 ≤ childCount node h := by
  have h1 : .internal f l r ∈ node.take j := List.mem_of_getElem? ((List.getElem?_take_of_lt hij).trans hi)
  have h2 : .internal f' l' r' ∈ node.drop j :=
    List.mem_of_getElem? (i := 0) (by rw [List.getElem?_drop, Nat.add_zero, hj])
  have := childCount_pos h1 hl
  have := childCount_pos h2 hl'
  have := childCount_take_add_drop node j h
  omega

/-- A node with one handle as both children names it twice. -/
theorem two_le_childCount_of_both {f} (hi : .internal f h h ∈ node) : 2 ≤ childCount node h := by
  rw [childCount_eq]
  refine le_trans ?_ (List.le_sum_of_mem (List.mem_map_of_mem (f := (childOf · h)) hi))
  simp [childOf]

/-- A handle is the child of at most one node, on one side (R26). -/
theorem StrictTree.parent_unique (ht : StrictTree node root k) {f l r f' l' r'} {v w : Bool}
    (hi : node[i]? = some (.internal f l r)) (hj : node[j]? = some (.internal f' l' r'))
    (hl : (if v then r else l) = h) (hl' : (if w then r' else l') = h) (hlt : h.toNat < node.length) :
    i = j ∧ v = w := by
  have hone : childCount node h ≤ 1 := by
    by_cases hr : h = root
    · rw [hr, ht.rootFree]
      decide
    · rw [ht.owned h hlt hr]
  have hc : l = h ∨ r = h := by cases v <;> simp_all
  have hc' : l' = h ∨ r' = h := by cases w <;> simp_all
  obtain hij | rfl | hij := Nat.lt_trichotomy i j
  · have := two_le_childCount hij hi hc hj hc'
    omega
  · refine ⟨rfl, ?_⟩
    rw [hi] at hj
    cases hj
    by_contra hvw
    have hboth : l = h ∧ r = h := by cases v <;> cases w <;> simp_all
    have hmem := List.mem_of_getElem? hi
    rw [hboth.1, hboth.2] at hmem
    have := two_le_childCount_of_both hmem
    omega
  · have := two_le_childCount hij hj hc' hi hc
    omega

/-- The children of a tree's nodes are nodes. -/
theorem StrictTree.child_lt (ht : StrictTree node root k) {f l r} (hi : node[i]? = some (.internal f l r)) :
    l.toNat < i ∧ r.toNat < i ∧ i < node.length := by
  have hlt := (List.getElem?_eq_some_iff.1 hi).1
  have hk : k ≤ i := by
    by_contra hik
    obtain ⟨_, _, hx⟩ := ht.leaves i (by omega)
    rw [hi] at hx
    cases hx
  obtain ⟨_, _, _, hx, hl, hr⟩ := ht.internal_of_ge hk hlt
  rw [hi] at hx
  cases hx
  exact ⟨hl, hr, hlt⟩

/-- No two nodes of the builder's tree are equal. -/
theorem TreeOf.node_injective (h : TreeOf s) {x : Node} (hi : s.node[i]? = some x) (hj : s.node[j]? = some x) :
    i = j := by
  cases x with
  | leaf sym f => exact h.leaf_unique hi hj
  | internal f l r =>
    obtain ⟨hl, -, hlt⟩ := h.strictTree.child_lt hi
    exact (h.strictTree.parent_unique (h := l) (v := false) (w := false) hi hj rfl rfl (hl.trans hlt)).1

theorem exists_index_of_follow {q : List Bool} {i : Handle} {x : Node} (h : follow node q i = some x) :
    ∃ n : Nat, node[n]? = some x := by
  obtain rfl | ⟨q, v, rfl⟩ := List.eq_nil_or_concat' q
  · exact ⟨_, h⟩
  · obtain ⟨f, l, r, -, hx⟩ := follow_concat.1 h
    exact ⟨_, hx⟩

/-- No path leads back to the root (R26). -/
theorem TreeOf.eq_nil_of_follow_eq_root (h : TreeOf s) {q : List Bool} (hq : follow s.node q s.root = s.nodeAt? s.root) :
    q = [] := by
  obtain rfl | ⟨q, v, rfl⟩ := List.eq_nil_or_concat' q
  · rfl
  have hroot : s.nodeAt? s.root = some _ := List.getElem?_eq_getElem h.strictTree.root_lt
  obtain ⟨f, l, r, hp, hx⟩ := follow_concat.1 (hq.trans hroot)
  obtain ⟨n, hn⟩ := exists_index_of_follow hp
  have hc : (if v then r else l) = s.root := BitVec.eq_of_toNat_eq (h.node_injective hx hroot)
  have := childCount_pos (h := s.root) (List.mem_of_getElem? hn) (by cases v <;> simp_all)
  have := h.strictTree.rootFree
  omega

/-- One path leads from the root to a node. -/
theorem TreeOf.path_unique (h : TreeOf s) {q q' : List Bool} {x : Node} (hq : follow s.node q s.root = some x)
    (hq' : follow s.node q' s.root = some x) : q = q' := by
  induction q using List.reverseRecOn generalizing q' x with
  | nil => exact (h.eq_nil_of_follow_eq_root (hq'.trans hq.symm)).symm
  | append_singleton q v ih =>
    obtain rfl | ⟨q', w, rfl⟩ := List.eq_nil_or_concat' q'
    · exact h.eq_nil_of_follow_eq_root (hq.trans hq'.symm)
    obtain ⟨f, l, r, hp, hx⟩ := follow_concat.1 hq
    obtain ⟨f', l', r', hp', hx'⟩ := follow_concat.1 hq'
    obtain ⟨n, hn⟩ := exists_index_of_follow hp
    obtain ⟨n', hn'⟩ := exists_index_of_follow hp'
    obtain ⟨rfl, rfl⟩ := h.strictTree.parent_unique hn hn' (BitVec.eq_of_toNat_eq (h.node_injective hx hx')) rfl
      (List.getElem?_eq_some_iff.1 hx').1
    rw [hn] at hn'
    cases hn'
    rw [ih hp hp']

/-- From every node of a strict tree the zeros lead to a leaf. -/
theorem StrictTree.zeros_lead_to_leaf (ht : StrictTree node root k) (i : Handle) (hi : i.toNat < node.length) :
    ∃ d sym f, follow node (List.replicate d false) i = some (.leaf sym f) := by
  induction hn : i.toNat using Nat.strong_induction_on generalizing i with
  | _ n ih =>
    subst hn
    cases hx : node[i.toNat]'hi with
    | leaf sym f => exact ⟨0, sym, f, (List.getElem?_eq_getElem hi).trans (congrArg some hx)⟩
    | internal f l r =>
      have hx : node[i.toNat]? = some (.internal f l r) := (List.getElem?_eq_getElem hi).trans (congrArg some hx)
      obtain ⟨hl, -, -⟩ := ht.child_lt hx
      obtain ⟨d, sym, g, hd⟩ := ih _ hl l (by omega) rfl
      exact ⟨d + 1, sym, g, by rw [List.replicate_succ, follow_cons_internal hx]; exact hd⟩

/-- The root of a tree of two or more symbols is internal (R26). -/
theorem TreeOf.root_internal (h : TreeOf s) (hk : s.nsym ≠ 1) :
    ∃ f l r, s.nodeAt? s.root = some (.internal f l r) := by
  have hsize := h.strictTree.size
  have hlast := h.strictTree.rootLast
  have hk : (initLeaves s.freq).length ≠ 1 := fun e => hk (h.nsym_eq_one_iff.2 e)
  obtain ⟨f, l, r, hx, -⟩ := h.strictTree.internal_of_ge (i := s.root.toNat) (by omega) h.strictTree.root_lt
  exact ⟨f, l, r, hx⟩

end Sys2Proof.Safety
end

section
/-! Whole runs of the bit decoder (R210 to R216): `BDEC` on a stream cut into the bits of its symbols and a
rest. -/

namespace Sys2Proof.Machine

open Sys2Proof.Safety

variable {s : State}

theorem exec_bdec (hf : s.fault = false) (ht : s.tvalid = true) (hd : s.ddone = false) :
    exec .bdec s = (bdecBody s).finish :=
  exec_of_body hf (by simp [State.ready, ht, hd]) rfl

/-- `BDEC` on a stream cut into parts that emit and a rest that stays inside the tree (R210, R211, R213, R215). -/
theorem exec_bdec_of_parts {parts : List (Symbol × List Bool)} {rest : List Bool} (hf : s.fault = false)
    (ht : s.tvalid = true) (hd : s.ddone = false) (hio : NoIoFailure s) (hm : s.dsnk.mode = .opened)
    (hpos : s.bsrc.pos ≤ s.bsrc.bits.length) (hr : bsrcRest s = (parts.map Prod.snd).flatten ++ rest)
    (hparts : ∀ y ∈ parts, Emits s y.1 y.2) (hrest : StaysInside s rest) :
    ∃ p, exec .bdec s = .next { s with
        dsnk := ⟨s.dsnk.data ++ parts.map Prod.fst, .finalized⟩
        bsrc := { s.bsrc with pos := s.bsrc.bits.length }
        draws := s.draws.drop ((bsrcRest s).length + parts.length + 1)
        ptr := p, ddone := true, rsp := 0 } ∧
      (rest = [] → p = s.root) ∧ s.nodeAt? p = follow s.node rest s.root := by
  obtain ⟨p, u, hu, hp0, hin, -⟩ := bdecLoop_upTo (s := { s with ptr := s.root }) (parts := parts) (x := rest)
    ⟨hr ▸ List.prefix_rfl, hparts, .inl hrest⟩ rfl (hio.succeeds _) (fun _ => hm)
  obtain ⟨hp, hloop⟩ := hin hrest
  refine ⟨p, ?_, hp0, ?_⟩
  · have hend : s.bsrc.pos + (bsrcRest s).length = s.bsrc.bits.length := by
      rw [bsrcRest, List.length_drop]
      omega
    have hrest' : bsrcRest { s with ptr := s.root } = bsrcRest s := rfl
    rw [← hr, hrest', Nat.sub_self, bdecLoop] at hloop
    simp only [← hr, hend] at hu
    change bdecLoop s.bsrc.remaining _ = _ at hloop
    rw [exec_bdec hf ht hd, bdecBody, hloop, Body.done_andThen, hu,
      sinkFinalize_of_succeeds (NoIoFailure.of_draws_drop hio rfl).nextEvent (by exact hm), Body.done_andThen,
      Body.finish_done, List.tail_drop]
    rfl
  · by_cases h0 : rest = []
    · rw [hp0 h0, h0]
      rfl
    · exact hp h0

/-- Where the root is internal, a path to a leaf emits its symbol (R211). -/
theorem emits_of_follow {x : List Bool} {sym : Symbol} {f g : NodeFreq} {l r : Handle}
    (hroot : s.nodeAt? s.root = some (.internal g l r)) (h : follow s.node x s.root = some (.leaf sym f)) :
    Emits s sym x := by
  refine ⟨f, .inr ⟨?_, h⟩⟩
  rintro rfl
  cases hroot.symm.trans h

/-- Settles O42: the builder's tree parses every stream (`StrictTree.parse`), and no path leads back to the root. -/
theorem bdecParsesEveryStream : Obligations.BdecParsesEveryStream := by
  intro s hf htv hd htree hk hio hm hpos
  obtain ⟨g, l, r, hroot⟩ := htree.root_internal hk
  obtain ⟨parts, rest, hr, hparts, f, l', r', hrest⟩ :=
    htree.strictTree.parse ⟨g, l, r, hroot⟩ _ (bsrcRest s) le_rfl
  have hemits : ∀ y ∈ parts, Emits s y.1 y.2 := fun y hy => (hparts y hy).elim fun _ => emits_of_follow hroot
  obtain ⟨p, hexec, hp0, hp⟩ := exec_bdec_of_parts hf htv hd hio hm hpos hr hemits (.inr ⟨f, l', r', hrest⟩)
  refine ⟨parts, rest, p, hexec, hr, hparts, f, l', r', hrest, hp.trans hrest, hp0, ?_⟩
  rintro rfl
  exact htree.eq_nil_of_follow_eq_root hp.symm

/-- Settles O43: each bit of the stream is a part of its own, and no rest is left. -/
theorem bdecSingleLeafEmitsPerBit : Obligations.BdecSingleLeafEmitsPerBit := by
  intro s sym f hf htv hd hroot hio hm hpos
  have hr : bsrcRest s = (((bsrcRest s).map fun v => (sym, [v])).map Prod.snd).flatten ++ [] := by
    simp [Function.comp_def, ← List.flatMap_def]
  have hparts : ∀ y ∈ (bsrcRest s).map fun v => (sym, [v]), Emits s y.1 y.2 := by
    intro y hy
    obtain ⟨v, -, rfl⟩ := List.mem_map.1 hy
    exact ⟨f, .inl ⟨hroot, rfl⟩⟩
  obtain ⟨p, hexec, hp, -⟩ := exec_bdec_of_parts hf htv hd hio hm hpos hr hparts (.inl rfl)
  rw [hexec, hp rfl, List.map_map, List.length_map, Nat.two_mul, ← List.map_const', Function.comp_def]

end Sys2Proof.Machine
end

section
/-! The decoder on the encoder's streams (R214, R263, R265): a code emits its symbol, and the leftmost leaf's code is all
zeros. -/

namespace Sys2Proof.Machine

open Sys2Proof.Safety

variable {s : State}

/-- The code of a symbol makes the decoder emit that symbol (R263). -/
theorem emits_code (htree : TreeOf s) (hcodes : CodesOf s) {b : Symbol} (hb : (s.codeAt b).len ≠ 0) :
    Emits s b (s.codeAt b).string := by
  have hcount := (hcodes.len_ne_zero_iff htree).1 hb
  by_cases hk : s.nsym = 1
  · obtain ⟨⟨f, hroot⟩, hcode⟩ := hcodes.lone htree hk hcount
    rw [hcode, Code.string_ofBits (by decide)]
    exact ⟨f, .inl ⟨hroot, rfl⟩⟩
  · obtain ⟨g, l, r, hroot⟩ := htree.root_internal hk
    obtain ⟨f, hpath⟩ := (codeIsThePathToTheLeaf s htree hcodes b hcount).2 hk
    exact emits_of_follow hroot hpath

/-- One code is all zeros, the leftmost leaf's, and fewer zeros stay inside the tree (R265). -/
theorem exists_zero_code (htree : TreeOf s) (hcodes : CodesOf s) :
    ∃ (z : Symbol) (d : Nat), 1 ≤ d ∧ (s.codeAt z).len ≠ 0 ∧ (s.codeAt z).string = List.replicate d false ∧
      ∀ m < d, StaysInside s (List.replicate m false) := by
  by_cases hk : s.nsym = 1
  · obtain ⟨z, f, hroot⟩ := htree.strictTree.root_leaf_iff.2 (htree.nsym_eq_one_iff.1 hk)
    have hcount := htree.freq_ne_zero hroot
    obtain ⟨-, hcode⟩ := hcodes.lone htree hk hcount
    refine ⟨z, 1, le_rfl, (hcodes.len_ne_zero_iff htree).2 hcount, ?_, fun m hm => .inl ?_⟩
    · rw [hcode, Code.string_ofBits (by decide)]
      rfl
    · rw [Nat.lt_one_iff.1 hm]
      rfl
  · obtain ⟨g, l, r, hroot⟩ := htree.root_internal hk
    obtain ⟨d, z, f, hzeros⟩ := htree.strictTree.zeros_lead_to_leaf s.root htree.strictTree.root_lt
    obtain ⟨n, hn⟩ := exists_index_of_follow hzeros
    have hcount := htree.freq_ne_zero hn
    refine ⟨z, d, ?_, (hcodes.len_ne_zero_iff htree).2 hcount, ?_, fun m hm => .inr ?_⟩
    · by_contra hd
      obtain rfl : d = 0 := by omega
      cases hroot.symm.trans hzeros
    · obtain ⟨f', hpath⟩ := (codeIsThePathToTheLeaf s htree hcodes z hcount).2 hk
      obtain ⟨n', hn'⟩ := exists_index_of_follow hpath
      obtain rfl := htree.leaf_unique hn hn'
      rw [hn] at hn'
      cases hn'
      exact htree.path_unique hpath hzeros
    · refine follow_before_end (p := List.replicate (d - m) false) (x := .leaf z f) ?_ (by simp; omega)
      rwa [List.replicate_append_replicate, Nat.add_sub_cancel' hm.le]

/-- The symbols of `l` with their codes, as parts of a stream. -/
def codeParts (s : State) (l : List Byte) : List (Symbol × List Bool) := l.map fun b => (b, (s.codeAt b).string)

@[simp] theorem codeParts_map_fst (s : State) (l : List Byte) : (codeParts s l).map Prod.fst = l := by
  simp [codeParts, Function.comp_def]

@[simp] theorem codeParts_flatten (s : State) (l : List Byte) :
    ((codeParts s l).map Prod.snd).flatten = codeStream s l := by
  simp [codeParts, codeStream, List.flatMap_def, Function.comp_def]

theorem emits_of_mem_codeParts (htree : TreeOf s) (hcodes : CodesOf s) {l : List Byte}
    (hl : ∀ b ∈ l, (s.codeAt b).len ≠ 0) : ∀ y ∈ codeParts s l, Emits s y.1 y.2 := by
  intro y hy
  obtain ⟨b, hb, rfl⟩ := List.mem_map.1 hy
  exact emits_code htree hcodes (hl b hb)

/-- `p` zeros after a stream are `p / d` times the all-zeros code of length `d`, and fewer than `d` zeros (R265). -/
theorem codeStream_append_zeros {z : Symbol} {d : Nat} (hz : (s.codeAt z).string = List.replicate d false)
    (S : List Byte) (p : Nat) : codeStream s S ++ List.replicate p false =
      codeStream s (S ++ List.replicate (p / d) z) ++ List.replicate (p % d) false := by
  have hpads : codeStream s (List.replicate (p / d) z) = List.replicate (p / d * d) false := by
    simp [codeStream, List.flatMap_def, hz]
  have happend : codeStream s (S ++ List.replicate (p / d) z) =
      codeStream s S ++ codeStream s (List.replicate (p / d) z) := List.flatMap_append
  rw [happend, hpads, List.append_assoc, List.replicate_append_replicate, Nat.div_add_mod']

/-- Settles O46: the parts are the codes of `S` and then `p / d` times the all-zeros code (`exists_zero_code`), and the
`p % d` zeros left stay inside the tree. -/
theorem padBitsDecodeToTheLeftmostLeaf : Obligations.PadBitsDecodeToTheLeftmostLeaf := by
  intro s S p hf htv hd htree hcodes hio hdsnk hbsrc hS
  obtain ⟨z, d, hd1, hz, hzero, hinside⟩ := exists_zero_code htree hcodes
  have hr : bsrcRest s = ((codeParts s (S ++ List.replicate (p / d) z)).map Prod.snd).flatten ++
      List.replicate (p % d) false := by
    rw [codeParts_flatten, ← codeStream_append_zeros hzero, bsrcRest, hbsrc, List.drop_zero]
  have hl : ∀ b ∈ S ++ List.replicate (p / d) z, (s.codeAt b).len ≠ 0 := by
    intro b hb
    obtain hb | hb := List.mem_append.1 hb
    · exact hS b hb
    · rwa [List.eq_of_mem_replicate hb]
  have hm : s.dsnk.mode = .opened := by rw [hdsnk]
  have hpos : s.bsrc.pos ≤ s.bsrc.bits.length := by simp [hbsrc]
  obtain ⟨q, hexec, hq0, hq⟩ := exec_bdec_of_parts hf htv hd hio hm hpos hr
    (emits_of_mem_codeParts htree hcodes hl) (hinside _ (Nat.mod_lt p hd1))
  refine ⟨_, z, d, hd1, hzero, hexec, ?_, rfl, ?_⟩
  · simp [hdsnk]
  · change q = s.root ↔ _
    rw [Nat.dvd_iff_mod_eq_zero]
    refine ⟨?_, fun h => hq0 (by rw [h]; rfl)⟩
    rintro rfl
    exact (List.replicate_eq_nil_iff _).1 (htree.eq_nil_of_follow_eq_root hq.symm)

end Sys2Proof.Machine
end

section
/-! The control and driver commands (R230, R231, R235, R237): `CLR`, and `ENCODE` and `DECODE` as the sessions of the
commands they are made of. -/

namespace Sys2Proof.Machine

open Sys2Proof.Safety

variable {s t : State}

/-- Settles O13: `CLR` is the return from the faulted state, which clears the core and answers code 0. -/
theorem clrClearsTheCore : Obligations.ClrClearsTheCore := fun _ => rfl

/-! ### Sessions stopped at the first fault -/

theorem sessionUntilFault_cons_of_next {i : Instr} (h : exec i s = .next t) (hf : t.fault = false) (is : List Instr) :
    sessionUntilFault (i :: is) s = sessionUntilFault is t := by
  simp [sessionUntilFault, h, hf]

theorem sessionUntilFault_cons_of_faulted {i : Instr} (h : exec i s = .next t) (hf : t.fault = true)
    (is : List Instr) : sessionUntilFault (i :: is) s = .next t := by
  simp [sessionUntilFault, h, hf]

theorem sessionUntilFault_cons_of_stop {i : Instr} {f : Fault} (h : exec i s = .fault f) (is : List Instr) :
    sessionUntilFault (i :: is) s = .fault f := by
  simp only [sessionUntilFault, h]

theorem sessionUntilFault_singleton (i : Instr) (s : State) : sessionUntilFault [i] s = exec i s := by
  simp only [sessionUntilFault, ite_self]
  cases exec i s <;> rfl

/-- Where no command faults, the session that would have stopped is the whole session (R235). -/
theorem session_of_sessionUntilFault (is : List Instr) : ∀ {s : State}, sessionUntilFault is s = .next t →
    t.fault = false → session is s = .next t := by
  induction is with
  | nil => exact fun h _ => h
  | cons i is ih =>
    intro s h ht
    cases hexec : exec i s with
    | next u =>
      cases hu : u.fault with
      | false =>
        rw [sessionUntilFault_cons_of_next hexec hu] at h
        rw [session_cons_of_next hexec]
        exact ih h ht
      | true =>
        rw [sessionUntilFault_cons_of_faulted hexec hu] at h
        cases h
        cases hu.symm.trans ht
    | fault f => simp [sessionUntilFault, hexec] at h
    | refused r => simp [sessionUntilFault, hexec] at h

/-- From the states with `P` in which no reset strikes, the session `is`, stopped at its first fault, ends as the body `k`
does. -/
def SessionEndsAs (P : State → Prop) (is : List Instr) (k : State → Body) : Prop :=
  ∀ s, P s → NoResetStrike s → sessionUntilFault is s = (k s).finish

variable {i : Instr} {is : List Instr} {P Q : State → Prop} {f k : State → Body}

theorem IgnoresRsp.finish_respond (hk : IgnoresRsp k) (c : BitVec 8) (v : RspValue) (s : State) :
    (k (respond c v s)).finish = (k s).finish :=
  (congrArg Body.finish (hk (c ++ v) s)).trans (Body.finish_setRsp _ _)

theorem sessionEndsAs_singleton (hbody : ∀ s, bodyOf i s = some (f s))
    (hready : ∀ s, P s → s.fault = false ∧ s.ready i = true) : SessionEndsAs P [i] f := fun s hs _ => by
  obtain ⟨hf, hr⟩ := hready s hs
  rw [sessionUntilFault_singleton, exec_of_body hf hr (hbody s)]

/-- A command in front of a session: its body runs in front of the session's, since the response between the two is read
by neither, and a fault of it ends both (R230, R231). -/
theorem SessionEndsAs.cons (h : SessionEndsAs Q is k) (hk : IgnoresRsp k) (hbody : ∀ s, bodyOf i s = some (f s))
    (hready : ∀ s, P s → s.fault = false ∧ s.ready i = true)
    (hdone : ∀ s u, P s → f s = .done u → u.fault = false ∧ Q (respond okCode 0 u)) :
    SessionEndsAs P (i :: is) fun s => (f s).andThen k := fun s hs hn => by
  obtain ⟨hf, hr⟩ := hready s hs
  have hexec := exec_of_body hf hr (hbody s)
  have hsuffix := bodyOf_suffix (hbody s)
  change sessionUntilFault (i :: is) s = ((f s).andThen k).finish
  cases hb : f s with
  | done u =>
    rw [hb] at hexec hsuffix
    obtain ⟨huf, hq⟩ := hdone s u hs hb
    rw [sessionUntilFault_cons_of_next hexec huf, h _ hq (hn.of_suffix hsuffix), Body.done_andThen, hk.finish_respond]
  | trap c info u =>
    rw [hb] at hexec hsuffix
    have hentry : (takeFault c info u).fault = true := by
      rw [takeFault_eq c info ((hn.of_suffix hsuffix.2).abortsRun 0), faulted_fault]
    rw [sessionUntilFault_cons_of_faulted hexec hentry, Body.trap_andThen, Body.finish_trap]
  | cut u =>
    rw [hb] at hsuffix
    exact absurd hn hsuffix.2
  | stuck e =>
    rw [hb] at hexec
    rw [sessionUntilFault_cons_of_stop hexec, Body.stuck_andThen, Body.finish_stuck]

theorem Body.Post.of_done {b : Body} {D E C : State → Prop} {S : Prop} {u : State} (h : b.Post D E C S)
    (hb : b = .done u) : D u := by
  rw [hb] at h
  exact h

/-! ### ENCODE -/

/-- The flags between two component commands of `ENCODE` (R230). -/
structure EncodeFlags (fv tv cv : Bool) (s : State) : Prop where
  fault : s.fault = false
  edone : s.edone = false
  fvalid : s.fvalid = fv
  tvalid : s.tvalid = tv
  cvalid : s.cvalid = cv

variable {fv tv cv : Bool}

theorem EncodeFlags.after_respond (h : EncodeFlags fv tv cv s) (c : BitVec 8) (v : RspValue) :
    EncodeFlags fv tv cv (respond c v s) := ⟨h.fault, h.edone, h.fvalid, h.tvalid, h.cvalid⟩

/-- What `SessionEndsAs.cons` asks of the state between two component commands. -/
theorem EncodeFlags.between (h : EncodeFlags fv tv cv s) :
    s.fault = false ∧ EncodeFlags fv tv cv (respond okCode 0 s) := ⟨h.fault, h.after_respond _ _⟩

theorem encodeFlags_coreClear (s : State) : EncodeFlags false false false (coreClear s) := ⟨rfl, rfl, rfl, rfl, rfl⟩

theorem EncodeFlags.after_srcRewind (h : EncodeFlags fv tv cv s) (hb : srcRewind s = .done t) : EncodeFlags fv tv cv t := by
  rw [srcRewind_post.of_done hb]
  exact ⟨h.fault, h.edone, h.fvalid, h.tvalid, h.cvalid⟩

theorem EncodeFlags.after_faccBody (h : EncodeFlags fv tv cv s) (hb : faccBody s = .done t) : EncodeFlags true tv cv t := by
  obtain ⟨u, ⟨_, _, _, rfl, -⟩, rfl, -⟩ := faccBody_post.of_done hb
  exact ⟨h.fault, h.edone, rfl, h.tvalid, h.cvalid⟩

theorem EncodeFlags.after_tbuildBody (h : EncodeFlags fv tv cv s) (hb : tbuildBody s = .done t) :
    EncodeFlags true true cv t := by
  rw [tbuildBody_frame.of_done hb]
  exact ⟨h.fault, h.edone, rfl, rfl, h.cvalid⟩

theorem EncodeFlags.after_cgenBody (h : EncodeFlags fv tv cv s) (hb : cgenBody s = .done t) : EncodeFlags fv tv true t := by
  obtain ⟨-, ht⟩ := cgenBody_post.of_done hb
  rw [ht]
  exact ⟨h.fault, h.edone, h.fvalid, h.tvalid, rfl⟩

/-- The body of `ENCODE` after the clear of the core. -/
def clearedEncodeBody (s : State) : Body :=
  (srcRewind s).andThen fun t => (faccBody t).andThen fun t => (tbuildBody t).andThen fun t =>
    (cgenBody t).andThen fun t => (srcRewind t).andThen bencBody

theorem encodeBody_eq (s : State) : encodeBody s = clearedEncodeBody (coreClear s) := rfl

theorem ignoresRsp_clearedEncodeBody : IgnoresRsp clearedEncodeBody :=
  ignoresRsp_srcRewind.andThen (ignoresRsp_faccBody.andThen (ignoresRsp_tbuildBody.andThen
    (ignoresRsp_cgenBody.andThen (ignoresRsp_srcRewind.andThen ignoresRsp_bencBody))))

/-- The component commands after `CLR` end as the body does that `ENCODE` runs on a cleared core (R230). -/
theorem sessionEndsAs_clearedEncodeBody : SessionEndsAs (EncodeFlags false false false)
    [.rewind, .facc, .tbuild, .cgen, .rewind, .benc] clearedEncodeBody := by
  have hbenc : SessionEndsAs (EncodeFlags true true true) [.benc] bencBody :=
    sessionEndsAs_singleton (fun _ => rfl) fun _ h => ⟨h.fault, by simp [State.ready, h.cvalid, h.edone]⟩
  have hrewind := hbenc.cons (i := .rewind) ignoresRsp_bencBody (fun _ => rfl) (fun _ h => ⟨h.fault, rfl⟩)
    fun _ _ (h : EncodeFlags true true true _) hb => (h.after_srcRewind hb).between
  have hrewindI := ignoresRsp_srcRewind.andThen ignoresRsp_bencBody
  have hcgen := hrewind.cons (i := .cgen) hrewindI (fun _ => rfl)
    (fun _ h => ⟨h.fault, by simp [State.ready, h.tvalid, h.cvalid]⟩)
    fun _ _ (h : EncodeFlags true true false _) hb => (h.after_cgenBody hb).between
  have hcgenI := ignoresRsp_cgenBody.andThen hrewindI
  have htbuild := hcgen.cons (i := .tbuild) hcgenI (fun _ => rfl) (fun _ h => ⟨h.fault, by simp [State.ready, h.tvalid]⟩)
    fun _ _ (h : EncodeFlags true false false _) hb => (h.after_tbuildBody hb).between
  have htbuildI := ignoresRsp_tbuildBody.andThen hcgenI
  have hfacc := htbuild.cons (i := .facc) htbuildI (fun _ => rfl) (fun _ h => ⟨h.fault, by simp [State.ready, h.fvalid]⟩)
    fun _ _ (h : EncodeFlags false false false _) hb => (h.after_faccBody hb).between
  exact hfacc.cons (i := .rewind) (ignoresRsp_faccBody.andThen htbuildI) (fun _ => rfl) (fun _ h => ⟨h.fault, rfl⟩)
    fun _ _ (h : EncodeFlags false false false _) hb => (h.after_srcRewind hb).between

/-- Settles O50: `CLR` clears the core as `ENCODE` does, and the commands after it end as the rest of its body. -/
theorem encodeEqualsItsSession : Obligations.EncodeEqualsItsSession := by
  intro s hf hn
  have hclr : exec .clr s = .next (respond okCode 0 (coreClear s)) := rfl
  have heq : exec .encode s = sessionUntilFault [.clr, .rewind, .facc, .tbuild, .cgen, .rewind, .benc] s := by
    rw [sessionUntilFault_cons_of_next hclr rfl,
      sessionEndsAs_clearedEncodeBody _ ((encodeFlags_coreClear s).after_respond _ _) hn,
      ignoresRsp_clearedEncodeBody.finish_respond, ← encodeBody_eq, exec_encode hf]
  exact ⟨heq, fun t ht htf => session_of_sessionUntilFault _ (heq.symm.trans ht) htf⟩

/-- Settles O48: up to the second rewind the core holds the tree and the codes of the input's counts (`encodeBody_coded`),
and `BENC` writes them (O39). -/
theorem encodeRunsTheWholePipeline : Obligations.EncodeRunsTheWholePipeline := by
  intro s hf hio hm hne hc
  obtain ⟨u, hbody, htree, hcodes, hu⟩ := encodeBody_coded hne hc (hio.succeeds _)
  have hflags : EncodeFlags true true true u := by rw [hu]; exact ⟨rfl, rfl, rfl, rfl, rfl⟩
  have hcount : ∀ b, (u.freqAt b).toNat = s.src.data.count b := by rw [hu]; exact freqAt_inputCounted hc
  have hrest : srcRest u = s.src.data := by rw [hu]; rfl
  have hcoded : ∀ b ∈ srcRest u, (u.codeAt b).len ≠ 0 := fun b hb =>
    (hcodes.len_ne_zero_iff htree).2 (freqAt_ne_zero_of_mem (hcount b) (hrest ▸ hb))
  have hbenc := bencWritesTheCodes u hflags.fault hflags.cvalid hflags.edone (hio.of_draws_drop (by rw [hu]))
    (by rw [hu]; exact hm) (by rw [hu]; exact Nat.zero_le _) hcoded
  have hdraws : u.draws = s.draws.drop (s.src.data.length + 2) := by rw [hu]
  have hcalls : s.src.data.length + 2 + (s.src.data.length + (codeStream u s.src.data).length + 1) =
      2 * s.src.data.length + (codeStream u s.src.data).length + 3 := by omega
  rw [exec_benc hflags.fault hflags.cvalid hflags.edone, ← hbody, ← exec_encode hf, hrest, hdraws, List.drop_drop,
    hcalls] at hbenc
  refine ⟨_, hbenc, hcount, htree, hcodes, ?_, ?_⟩ <;> rw [hu] <;> rfl

/-! ### DECODE -/

theorem sessionEndsAs_decodeBody :
    SessionEndsAs (fun s => s.fault = false ∧ s.tvalid = false ∧ s.ddone = false) [.tbuild, .bdec] decodeBody := by
  have hbdec : SessionEndsAs (fun s => s.fault = false ∧ s.tvalid = true ∧ s.ddone = false) [.bdec] bdecBody :=
    sessionEndsAs_singleton (fun _ => rfl) fun _ ⟨hf, ht, hd⟩ => ⟨hf, by simp [State.ready, ht, hd]⟩
  refine hbdec.cons ignoresRsp_bdecBody (fun _ => rfl) (fun _ ⟨hf, ht, _⟩ => ⟨hf, by simp [State.ready, ht]⟩) ?_
  rintro s u ⟨hf, -, hd⟩ hb
  rw [tbuildBody_frame.of_done hb]
  exact ⟨hf, hf, rfl, hd⟩

theorem exec_decode (hf : s.fault = false) (ht : s.tvalid = false) (hd : s.ddone = false) :
    exec .decode s = (decodeBody s).finish :=
  exec_of_body hf (by simp [State.ready, ht, hd]) rfl

/-- On the builder's tree `BDEC` drains the bit source, whatever its bits are, and finalizes the sink (R210, R215, R216). -/
theorem exec_bdec_drains (hf : s.fault = false) (ht : s.tvalid = true) (hd : s.ddone = false) (htree : TreeOf s)
    (hio : NoIoFailure s) (hm : s.dsnk.mode = .opened) (hpos : s.bsrc.pos ≤ s.bsrc.bits.length) :
    ∃ data p d, exec .bdec s = .next { s with
      dsnk := ⟨data, .finalized⟩, bsrc := { s.bsrc with pos := s.bsrc.bits.length }
      ptr := p, draws := d, ddone := true, rsp := 0 } := by
  by_cases hk : s.nsym = 1
  · obtain ⟨sym, f, hroot⟩ := htree.strictTree.root_leaf_iff.2 (htree.nsym_eq_one_iff.1 hk)
    exact ⟨_, _, _, bdecSingleLeafEmitsPerBit s sym f hf ht hd hroot hio hm hpos⟩
  · obtain ⟨parts, rest, p, hexec, -⟩ := bdecParsesEveryStream s hf ht hd htree hk hio hm hpos
    exact ⟨_, p, _, hexec⟩

/-- Settles O51: `TBUILD` makes the tree of the loaded map (O25), and `BDEC` drains the bit source on it. -/
theorem decodeBuildsAndWalks : Obligations.DecodeBuildsAndWalks := by
  have heq : ∀ s : State, s.fault = false → s.tvalid = false → s.ddone = false → NoResetStrike s →
      exec .decode s = sessionUntilFault [.tbuild, .bdec] s := fun s hf ht hd hn => by
    rw [exec_decode hf ht hd, sessionEndsAs_decodeBody s ⟨hf, ht, hd⟩ hn]
  refine ⟨heq, fun s hf ht hd hl hio hm hpos ⟨b, hb⟩ => ?_⟩
  obtain ⟨t, htbuild, htree, hframe⟩ := exec_tbuild_of_counted hf ht hl hb
  have htf : t.fault = false := by rw [hframe]; exact hf
  obtain ⟨data, p, d, hbdec⟩ := exec_bdec_drains (s := t) htf (by rw [hframe]) (by rw [hframe]; exact hd) htree
    (hio.of_draws_eq (by rw [hframe])) (by rw [hframe]; exact hm) (by rw [hframe]; exact hpos)
  have hdecode : exec .decode s = exec .bdec t := by
    rw [heq s hf ht hd hio.noResetStrike, sessionUntilFault_cons_of_next htbuild htf, sessionUntilFault_singleton]
  have hsession : session [.tbuild, .bdec] s = session [] _ :=
    (session_cons_of_next htbuild _).trans (session_cons_of_next hbdec [])
  refine ⟨_, hdecode.trans hbdec, hsession, htree, rfl, ?_⟩
  rw [hframe]

end Sys2Proof.Machine
end

section
/-! The builder's tree as a whole (R260), and its codes (R261): what a code says of the path it is. -/

namespace Sys2Proof.Machine

open Sys2Proof.Safety

variable {s : State}

/-- Settles O28: the builder's forest of one tree is a strict tree (`TreeOf.strictTree`), and its `2k - 1` nodes fit the
10 bits of `NCOUNT`. -/
theorem builtTreeIsStrict : Obligations.BuiltTreeIsStrict := by
  intro s htree
  have hstrict : StrictTree s.node s.root s.nsym.toNat := htree.nsym_toNat ▸ htree.strictTree
  have hle : s.nsym.toNat ≤ 256 := hstrict.size.2
  have hcount := hstrict.count
  refine ⟨hstrict, htree.forest.1, ?_⟩
  rw [State.ncount, BitVec.toNat_ofNat, Nat.mod_eq_of_lt (by omega), hcount]

/-- A single-leaf tree has one counted symbol (R156). -/
theorem eq_of_lone (htree : TreeOf s) (hcodes : CodesOf s) (hlone : s.nsym = 1) {a b : Symbol} (ha : s.freqAt a ≠ 0)
    (hb : s.freqAt b ≠ 0) : a = b := by
  obtain ⟨⟨f, hroot⟩, -⟩ := hcodes.lone htree hlone ha
  obtain ⟨⟨g, hroot'⟩, -⟩ := hcodes.lone htree hlone hb
  cases hroot.symm.trans hroot'
  rfl

/-- Settles O36: in a tree of two or more symbols the code of `a` leads to a leaf, and only internal nodes have a path
going on from them (`follow_before_end`). -/
theorem codesArePrefixFree : Obligations.CodesArePrefixFree := by
  rintro s htree hcodes a b hab ha hb ⟨q, hq⟩
  rw [hcodes.len_ne_zero_iff htree] at ha hb
  by_cases hk : s.nsym = 1
  · exact hab (eq_of_lone htree hcodes hk ha hb)
  obtain ⟨f, hpath⟩ := (codeIsThePathToTheLeaf s htree hcodes a ha).2 hk
  obtain ⟨g, hpath'⟩ := (codeIsThePathToTheLeaf s htree hcodes b hb).2 hk
  rw [← hq] at hpath'
  by_cases hq0 : q = []
  · rw [hq0, List.append_nil] at hpath'
    cases hpath.symm.trans hpath'
    exact hab rfl
  · obtain ⟨f', l, r, hin⟩ := follow_before_end hpath' hq0
    cases hpath.symm.trans hin

end Sys2Proof.Machine
end

section
/-! A more frequent symbol never has a longer code (R262). The builder takes nodes out of the priority collection in the
order of R152, and what it puts back comes later in that order than what it has taken out. So children come in the order
of their parents, and a node at a smaller depth comes later in the order. -/

namespace Sys2Proof.Machine

open Sys2Proof.Safety

variable {s : State} {node : List Node} {leaf : List Node} {total : Nat} {a b : Arena} {F : Handle → Nat}

theorem KeyLt.not_symm {i j : Handle} (h : KeyLt F i j) : ¬ KeyLt F j i := by
  unfold KeyLt at *
  simp only [handle_lt_iff] at *
  omega

/-- The order on old nodes does not see the node that a turn adds. -/
theorem KeyLt.append_node {i j : Handle} (h : KeyLt (freqOf node) i j) (hi : i.toNat < node.length)
    (hj : j.toNat < node.length) (z : Node) : KeyLt (freqOf (node ++ [z])) i j :=
  h.congr (freqOf_append hi z).symm (freqOf_append hj z).symm

/-! ### Children -/

/-- The node at index `i` names `c` as a child. -/
def IsChild (node : List Node) (i : Nat) (c : Handle) : Prop :=
  ∃ f l r, node[i]? = some (.internal f l r) ∧ (c = l ∨ c = r)

theorem IsChild.lt_length {i : Nat} {c : Handle} (h : IsChild node i c) : i < node.length := by
  obtain ⟨f, l, r, hi, -⟩ := h
  exact (List.getElem?_eq_some_iff.1 hi).1

/-- The children after a turn: those from before, and the two nodes that the turn merged. -/
theorem isChild_append {f : NodeFreq} {l r c : Handle} {i : Nat} (h : IsChild (node ++ [.internal f l r]) i c) :
    IsChild node i c ∨ (i = node.length ∧ (c = l ∨ c = r)) := by
  obtain ⟨f', l', r', hi, hc⟩ := h
  obtain hlt | heq : i < node.length ∨ i = node.length := by
    have := (List.getElem?_eq_some_iff.1 hi).1
    rw [List.length_append, List.length_singleton] at this
    omega
  · rw [List.getElem?_append_left hlt] at hi
    exact .inl ⟨f', l', r', hi, hc⟩
  · rw [heq, List.getElem?_concat_length] at hi
    cases hi
    exact .inr ⟨heq, hc⟩

theorem Forest.isChild_lt (hf : Forest leaf total a) {i : Nat} {c : Handle} (h : IsChild a.node i c) : c.toNat < i := by
  obtain ⟨f, l, r, hi, rfl | rfl⟩ := h
  · exact (hf.child_lt hi).1
  · exact (hf.child_lt hi).2

/-- A child is a node that is no longer live. -/
theorem Forest.not_mem_live (hf : Forest leaf total a) {i : Nat} {c : Handle} (h : IsChild a.node i c) :
    c ∉ a.live := by
  intro hc
  have howned := hf.owned c ((hf.isChild_lt h).trans h.lt_length)
  obtain ⟨f, l, r, hi, hc'⟩ := h
  have := childCount_pos (List.mem_of_getElem? hi) (hc'.imp Eq.symm Eq.symm)
  rw [if_pos hc] at howned
  omega

/-- The frequency of a node is the sum of its children's (R154). -/
theorem Forest.freqOf_internal (hf : Forest leaf total a) {i : Handle} {f : NodeFreq} {l r : Handle}
    (hi : a.node[i.toNat]? = some (.internal f l r)) : freqOf a.node i = freqOf a.node l + freqOf a.node r := by
  obtain ⟨f', l', r', x, y, hi', -, -, hx, hy, hsum⟩ :=
    hf.internals i.toNat (hf.internal_index hi) (List.getElem?_eq_some_iff.1 hi).1
  rw [hi] at hi'
  cases hi'
  rw [freqOf_eq hi, freqOf_eq hx, freqOf_eq hy]
  exact hsum

/-- A node comes later in the order than its children: it has no smaller frequency, and the larger handle. -/
theorem Forest.keyLt_parent (hf : Forest leaf total a) {i c : Handle} (h : IsChild a.node i.toNat c) :
    KeyLt (freqOf a.node) c i := by
  have hlt := hf.isChild_lt h
  obtain ⟨f, l, r, hi, hc⟩ := h
  have hsum := hf.freqOf_internal hi
  rw [KeyLt, handle_lt_iff]
  obtain rfl | rfl := hc <;> omega

/-! ### The order of the turns -/

/-- The nodes taken out of the collection so far come before those still in it, and they were taken out in the order
of R152. -/
structure ExtractedInOrder (a : Arena) : Prop where
  beforeLive : ∀ h g : Handle, h.toNat < a.node.length → h ∉ a.live → g ∈ a.live → KeyLt (freqOf a.node) h g
  byParent : ∀ (i j : Nat) (c d : Handle), i < j → IsChild a.node i c → IsChild a.node j d →
    KeyLt (freqOf a.node) c d

/-- At the start every node is live, and no node has children. -/
theorem extractedInOrder_initLeaves {freq : Vector Count Config.numSymbols} (hne : initLeaves freq ≠ []) :
    ExtractedInOrder ⟨initLeaves freq, liveLeaves (initLeaves freq).length []⟩ := by
  have hforest := forest_initLeaves hne
  refine ⟨fun h g hh hlive _ => absurd ?_ hlive, fun i j c d _ hi _ => ?_⟩
  · have hsize := hforest.size
    rw [liveLeaves_nil (by omega)]
    exact List.mem_map.2 ⟨h.toNat, List.mem_range.2 hh, BitVec.ofNat_toNat ..⟩
  · have hlt := hi.lt_length
    obtain ⟨f, l, r, hx, -⟩ := hi
    exact absurd hlt (hforest.internal_index hx).not_gt

/-- A turn takes out the two nodes that come first, after all that were taken out before, and puts one back that comes
after both. -/
theorem ExtractedInOrder.step (h : ExtractedInOrder a) (hf : Forest leaf total a) (hfb : Forest leaf total b)
    (h2 : 2 ≤ a.live.length) (hb : combineStep a = some b) : ExtractedInOrder b := by
  have hn : a.node.length < 511 := by have := hf.count; have := hf.size; omega
  obtain ⟨l, r, x, y, hl, hr, hlr, -, -, hlmin, hrmin, hstep⟩ := combineStep_spec hf.sorted hf.alloc h2 hn
  obtain rfl := Option.some.inj (hstep.symm.trans hb)
  have hnew : ∀ {h : Handle}, h = BitVec.ofNat 9 a.node.length ↔ h.toNat = a.node.length :=
    eq_ofNat_handle_iff (by omega)
  refine ⟨fun h' g hh' hout hg => ?_, fun i j c d hij hc hd => ?_⟩
  · simp only [List.length_append, List.length_singleton, List.mem_append, List.mem_singleton,
      mem_erase_erase_sorted hf.sorted] at hh' hout hg
    have hold : h'.toNat < a.node.length := by
      have : h'.toNat ≠ a.node.length := fun e => hout (.inr (hnew.2 e))
      omega
    have hrold := hf.alloc r hr
    have hrg : KeyLt (freqOf (a.node ++ [.internal (x.freq + y.freq) l r])) r g := by
      obtain ⟨hg, hgl, hgr⟩ | hg := hg
      · exact (hrmin g hg hgl hgr).append_node hrold (hf.alloc g hg) _
      · exact hfb.keyLt_parent ⟨_, l, r, by rw [hnew.1 hg]; exact List.getElem?_concat_length, .inr rfl⟩
    by_cases hr' : h' = r
    · exact hr' ▸ hrg
    · have : KeyLt (freqOf a.node) h' r := by
        by_cases hlive : h' ∈ a.live
        · obtain rfl : h' = l := by tauto
          exact hlmin r hr hlr.symm
        · exact h.beforeLive h' r hold hlive hr
      exact (this.append_node hold hrold _).trans hrg
  · obtain hc | ⟨rfl, -⟩ := isChild_append hc
    · have hcold := (hf.isChild_lt hc).trans hc.lt_length
      obtain hd | ⟨-, hd⟩ := isChild_append hd
      · exact (h.byParent i j c d hij hc hd).append_node hcold ((hf.isChild_lt hd).trans hd.lt_length) _
      · have hlive : d ∈ a.live := by obtain rfl | rfl := hd <;> assumption
        exact (h.beforeLive c d hcold (hf.not_mem_live hc) hlive).append_node hcold (hf.alloc d hlive) _
    · have := hd.lt_length
      rw [List.length_append, List.length_singleton] at this
      omega

/-- A property that every turn keeps is kept by the loop (R150). -/
theorem combineLoop_induction {P : Arena → Prop}
    (hstep : ∀ a b, P a → 2 ≤ a.live.length → combineStep a = some b → P b) :
    ∀ {n : Nat} {a b : Arena}, combineLoop n a = some b → P a → P b := by
  intro n
  induction n with
  | zero => rintro a b h ha; cases h; exact ha
  | succ n ih =>
    intro a b h ha
    by_cases h2 : 1 < a.live.length
    · rw [combineLoop, if_pos h2] at h
      obtain ⟨c, hc, hb⟩ := Option.bind_eq_some_iff.1 h
      exact ih hb (hstep a c ha h2 hc)
    · rw [combineLoop, if_neg h2] at h
      cases h
      exact ha

theorem combineLoop_of_buildTree {r : Handle} (h : buildTree a = some (b, r)) :
    combineLoop a.live.length a = some b := by
  rw [buildTree] at h
  split at h
  · cases h
  · next c hc =>
    split at h
    · cases h; exact hc
    · cases h

/-- The builder's tree was made in the order of R152. -/
theorem extractedInOrder_of_treeOf (htree : TreeOf s) : ExtractedInOrder ⟨s.node, s.live⟩ := by
  obtain ⟨hne, -, hbuild⟩ := htree
  refine (combineLoop_induction (P := fun a => Forest (initLeaves s.freq) (totalCount s.freq) a ∧ ExtractedInOrder a)
    ?_ (combineLoop_of_buildTree hbuild) ⟨forest_initLeaves hne, extractedInOrder_initLeaves hne⟩).2
  rintro a b ⟨hf, ha⟩ h2 hb
  obtain ⟨b', hb', hfb, -⟩ := hf.step (totalCount_lt _) h2
  obtain rfl := Option.some.inj (hb'.symm.trans hb)
  exact ⟨hfb, ha.step hf hfb h2 hb⟩

/-! ### Depth -/

/-- Of two internal nodes, the one that comes first in the order was made first: its children were taken out before the
other's, so its frequency is not the larger one. -/
theorem ExtractedInOrder.lt_of_keyLt (h : ExtractedInOrder a) (hf : Forest leaf total a) {i j c d : Handle}
    (hi : IsChild a.node i.toNat c) (hj : IsChild a.node j.toNat d) (hij : KeyLt (freqOf a.node) i j) :
    i.toNat < j.toNat := by
  obtain ⟨f, l, r, hi, -⟩ := hi
  obtain ⟨f', l', r', hj, -⟩ := hj
  by_contra hle
  obtain hlt | heq : j.toNat < i.toNat ∨ j.toNat = i.toNat := by omega
  · have hl := h.byParent _ _ l' l hlt ⟨_, _, _, hj, .inl rfl⟩ ⟨_, _, _, hi, .inl rfl⟩
    have hr := h.byParent _ _ r' r hlt ⟨_, _, _, hj, .inr rfl⟩ ⟨_, _, _, hi, .inr rfl⟩
    have hsum := hf.freqOf_internal hi
    have hsum' := hf.freqOf_internal hj
    simp only [KeyLt, handle_lt_iff] at hij hl hr
    omega
  · obtain rfl := BitVec.eq_of_toNat_eq heq
    exact hij.not_symm hij

/-- The handle `h` names the node at the end of the path `q` from the root. -/
def Ends (s : State) (q : List Bool) (h : Handle) : Prop :=
  h.toNat < s.node.length ∧ follow s.node q s.root = s.nodeAt? h

theorem Ends.eq_root (htree : TreeOf s) {h : Handle} (hq : Ends s [] h) : h = s.root := by
  obtain ⟨hlt, heq⟩ := hq
  have hx : s.node[h.toNat]? = some _ := List.getElem?_eq_getElem hlt
  exact BitVec.eq_of_toNat_eq (htree.node_injective hx (Eq.trans heq hx))

theorem exists_ends_of_follow (htree : TreeOf s) {q : List Bool} {x : Node} (hq : follow s.node q s.root = some x) :
    ∃ h, Ends s q h ∧ s.node[h.toNat]? = some x := by
  obtain ⟨n, hn⟩ := exists_index_of_follow hq
  have hlt := (List.getElem?_eq_some_iff.1 hn).1
  have hsize : (initLeaves s.freq).length ≤ 256 := htree.strictTree.size.2
  have hcount := htree.strictTree.count
  have hn9 : (BitVec.ofNat 9 n : Handle).toNat = n := toNat_ofNat_handle (by omega)
  rw [← hn9] at hlt hn
  exact ⟨_, ⟨hlt, hq.trans hn.symm⟩, hn⟩

/-- The last step of a path goes from a node to its child. -/
theorem Ends.exists_parent (htree : TreeOf s) {q : List Bool} {v : Bool} {h : Handle} (hq : Ends s (q ++ [v]) h) :
    ∃ p, Ends s q p ∧ IsChild s.node p.toNat h := by
  obtain ⟨hlt, heq⟩ := hq
  have hx : s.nodeAt? h = some _ := List.getElem?_eq_getElem hlt
  obtain ⟨f, l, r, hp, hc⟩ := follow_concat.1 (heq.trans hx)
  obtain ⟨p, hends, hnode⟩ := exists_ends_of_follow htree hp
  obtain rfl : (if v then r else l) = h := BitVec.eq_of_toNat_eq (htree.node_injective hc hx)
  refine ⟨p, hends, f, l, r, hnode, ?_⟩
  cases v
  · exact .inl rfl
  · exact .inr rfl

/-- The root comes last in the order. -/
theorem Ends.keyLt_root (htree : TreeOf s) {q : List Bool} {h : Handle} (hq : Ends s q h) (hne : q ≠ []) :
    KeyLt (freqOf s.node) h s.root := by
  induction q using List.reverseRecOn generalizing h with
  | nil => exact absurd rfl hne
  | append_singleton q v ih =>
    obtain ⟨p, hp, hchild⟩ := hq.exists_parent htree
    have hkey : KeyLt (freqOf s.node) h p := htree.forest.2.keyLt_parent hchild
    by_cases hq0 : q = []
    · subst hq0
      exact hp.eq_root htree ▸ hkey
    · exact hkey.trans (ih hp hq0)

/-- A node at a smaller depth comes later in the order of R152. -/
theorem Ends.keyLt_of_shorter (htree : TreeOf s) {q q' : List Bool} {h h' : Handle} (hq : Ends s q h)
    (hq' : Ends s q' h') (hlt : q.length < q'.length) : KeyLt (freqOf s.node) h' h := by
  induction q using List.reverseRecOn generalizing q' h h' with
  | nil => exact hq.eq_root htree ▸ hq'.keyLt_root htree (List.ne_nil_of_length_pos hlt)
  | append_singleton q v ih =>
    obtain rfl | ⟨q', w, rfl⟩ := List.eq_nil_or_concat' q'
    · exact absurd hlt (Nat.not_lt_zero _)
    obtain ⟨p, hp, hchild⟩ := hq.exists_parent htree
    obtain ⟨p', hp', hchild'⟩ := hq'.exists_parent htree
    have horder := extractedInOrder_of_treeOf htree
    have hkey : KeyLt (freqOf s.node) p' p := ih hp hp' (by simpa using hlt)
    exact horder.byParent _ _ _ _ (horder.lt_of_keyLt htree.forest.2 hchild' hchild hkey) hchild' hchild

/-- In a tree of two or more symbols the code of a counted symbol ends at a leaf with the symbol's counter. -/
theorem exists_leaf_at_code (htree : TreeOf s) (hcodes : CodesOf s) (hk : s.nsym ≠ 1) {b : Symbol}
    (hb : s.freqAt b ≠ 0) : ∃ h, Ends s (s.codeAt b).string h ∧ freqOf s.node h = (s.freqAt b).toNat := by
  obtain ⟨f, hpath⟩ := (codeIsThePathToTheLeaf s htree hcodes b hb).2 hk
  obtain ⟨h, hends, hleaf⟩ := exists_ends_of_follow htree hpath
  obtain ⟨-, hf⟩ := htree.leaf_index hleaf
  refine ⟨h, hends, ?_⟩
  rw [freqOf_eq hleaf, Node.freq, hf, zextFreq_toNat]

/-- Settles O37: a shorter code ends at a leaf that comes later in the order of R152 (`Ends.keyLt_of_shorter`), and so has
no smaller frequency. -/
theorem moreFrequentSymbolsHaveNoLongerCodes : Obligations.MoreFrequentSymbolsHaveNoLongerCodes := by
  intro s htree hcodes a b hb hlt
  rw [BitVec.lt_def] at hlt
  have ha : s.freqAt a ≠ 0 := fun h => by rw [h] at hlt; exact absurd hlt (Nat.not_lt_zero _)
  by_cases hk : s.nsym = 1
  · rw [eq_of_lone htree hcodes hk ha hb]
    exact BitVec.le_refl _
  obtain ⟨h, hends, hfreq⟩ := exists_leaf_at_code htree hcodes hk ha
  obtain ⟨h', hends', hfreq'⟩ := exists_leaf_at_code htree hcodes hk hb
  by_contra hlen
  have hkey := hends'.keyLt_of_shorter htree hends (by
    rw [Code.string_length, Code.string_length]
    exact BitVec.not_le.1 hlen)
  rw [KeyLt] at hkey
  omega

end Sys2Proof.Machine
end

section
/-! Encoding and decoding end to end: `ENCODE` on an empty input (R269), the decoder on the encoder's stream (R263), and
the round trip in the exact environment (R264). -/

namespace Sys2Proof.Machine

open Sys2Proof.Safety

variable {s t : State} {S : List Byte}

/-! ### The empty input -/

/-- Settles O49: nothing is counted, so the tree builder faults on an empty map (`tbuildBody_of_empty`), and the fault
entry runs. -/
theorem encodeRejectsEmptyInput : Obligations.EncodeRejectsEmptyInput := by
  intro s hf hio hnil
  have hc : ∀ b, s.src.data.count b < 2 ^ 32 := fun b => by rw [hnil]; exact Nat.two_pow_pos 32
  have hempty : ∀ b, (inputCounted s).freqAt b = 0 := fun b =>
    BitVec.eq_of_toNat_eq (by rw [freqAt_inputCounted hc, hnil]; rfl)
  have haborts : AbortsRun 0 { inputCounted s with node := [], nsym := 0, fvalid := true } :=
    (hio.of_draws_drop rfl).abortsRun 0
  have hexec : exec .encode s =
      .next (faulted .eempty 0 { inputCounted s with node := [], nsym := 0, fvalid := true }) := by
    rw [exec_encode hf, encodeBody_inputCounted (hio.succeeds _) hc, tbuildBody_of_empty hempty, Body.trap_andThen,
      Body.trap_andThen, Body.finish_trap, takeFault_eq _ _ haborts]
  exact ⟨_, hexec, rfl, rfl, rfl, rfl, rfl, rfl, rfl, rfl⟩

/-! ### The decoder on a stream without a rest -/

/-- `BDEC` on a stream that is cut into parts without a rest, to an empty sink (R210, R215). -/
theorem exec_bdec_of_whole_parts {parts : List (Symbol × List Bool)} (hf : s.fault = false) (ht : s.tvalid = true)
    (hd : s.ddone = false) (hio : NoIoFailure s) (hdsnk : s.dsnk = ⟨[], .opened⟩)
    (hbsrc : s.bsrc = ⟨(parts.map Prod.snd).flatten, 0⟩) (hparts : ∀ y ∈ parts, Emits s y.1 y.2) :
    ∃ t, exec .bdec s = .next t ∧ t.dsnk = ⟨parts.map Prod.fst, .finalized⟩ ∧ t.ptr = t.root ∧ t.rsp = 0 := by
  have hrest : bsrcRest s = (parts.map Prod.snd).flatten ++ [] := by
    rw [bsrcRest, hbsrc, List.append_nil, List.drop_zero]
  obtain ⟨p, hexec, hp, -⟩ := exec_bdec_of_parts hf ht hd hio (by rw [hdsnk]) (by simp [hbsrc]) hrest hparts (.inl rfl)
  exact ⟨_, hexec, by simp [hdsnk], hp rfl, rfl⟩

/-- Settles O45: the stream is cut into the codes of the bytes of `S`, each of which emits its byte. -/
theorem decoderInvertsEncoder : Obligations.DecoderInvertsEncoder := by
  intro s S hf ht hd htree hcodes hio hdsnk hbsrc hS
  rw [← codeParts_flatten] at hbsrc
  simpa using exec_bdec_of_whole_parts hf ht hd hio hdsnk hbsrc (emits_of_mem_codeParts htree hcodes hS)

/-- What the decoder emits depends on the tree alone (R211). -/
theorem emits_of_same_tree (hnode : s.node = t.node) (hroot : s.root = t.root) {sym : Symbol} {x : List Bool}
    (h : Emits s sym x) : Emits t sym x := by
  rw [Emits, State.nodeAt?, hnode, hroot] at h
  exact h

/-- `DECODE` on the stream of `S` in the codes of `t`, from the counters of `t`: it builds the tree of `t` again, on which
those codes emit `S` (R159, R231, R263). -/
theorem exec_decode_of_codeStream (htree : TreeOf t) (hcodes : CodesOf t) (hS : ∀ b ∈ S, (t.codeAt b).len ≠ 0)
    (hfreq : s.freq = t.freq) (hf : s.fault = false) (ht : s.tvalid = false) (hd : s.ddone = false) (hl : s.live = [])
    (hio : NoIoFailure s) (hdsnk : s.dsnk = ⟨[], .opened⟩) (hbsrc : s.bsrc = ⟨codeStream t S, 0⟩) :
    ∃ u, exec .decode s = .next u ∧ u.dsnk = ⟨S, .finalized⟩ ∧ u.ptr = u.root ∧ u.rsp = 0 := by
  have hne := htree.1
  rw [← hfreq, ne_eq, initLeaves_eq_nil_iff, not_forall] at hne
  obtain ⟨b, hb⟩ := hne
  obtain ⟨v, hbuild, hvtree, hv⟩ := exec_tbuild_of_counted hf ht hl hb
  obtain ⟨hnode, -, -, hroot⟩ := tree_eq_of_freq_eq htree hvtree (by rw [hv]; exact hfreq.symm)
  have hvf : v.fault = false := by rw [hv]; exact hf
  obtain ⟨u, hbdec, hu⟩ := exec_bdec_of_whole_parts (s := v) (parts := codeParts t S) hvf (by rw [hv])
    (by rw [hv]; exact hd) (hio.of_draws_eq (by rw [hv])) (by rw [hv]; exact hdsnk)
    (by rw [hv, codeParts_flatten]; exact hbsrc)
    fun y hy => emits_of_same_tree hnode hroot (emits_of_mem_codeParts htree hcodes hS y hy)
  refine ⟨u, ?_, by simpa using hu⟩
  rw [decodeBuildsAndWalks.1 s hf ht hd hio.noResetStrike, sessionUntilFault_cons_of_next hbuild hvf,
    sessionUntilFault_singleton, hbdec]

/-! ### Loading a map -/

theorem toNat_ofNat_symbol {n : Nat} (h : n < 256) : (BitVec.ofNat 8 n).toNat = n :=
  (BitVec.toNat_ofNat n 8).trans (Nat.mod_eq_of_lt h)

/-- The command that loads the entry `n` of a map (R132, R324). -/
def loadEntry (freq : Vector Count Config.numSymbols) (n : Nat) : Instr :=
  .fload (BitVec.ofNat 8 n) (freq[n]?.getD 0)

theorem loadCommands_eq (freq : Vector Count Config.numSymbols) :
    loadCommands freq = (counted freq).map (loadEntry freq) := by
  rw [counted, ← List.filterMap_eq_map, List.filterMap_filter, loadCommands]
  simp [loadEntry]

/-- A session of two parts goes on from the state the first part answers (R235). -/
theorem session_append_of_next {is : List Instr} (js : List Instr) (h : session is s = .next t) :
    session (is ++ js) s = session js t := by
  induction is generalizing s with
  | nil => cases h; rfl
  | cons i is ih =>
    cases hexec : exec i s with
    | next u =>
      rw [session_cons_of_next hexec] at h
      rw [List.cons_append, session_cons_of_next hexec, ih h]
    | fault f => simp [session, hexec] at h
    | refused r => simp [session, hexec] at h

/-- Loading entries of a map, each once and none that is 0, into counters that are 0 (R132). -/
theorem session_loadEntry {freq : Vector Count Config.numSymbols} {l : List Nat} (hnodup : l.Nodup)
    (hl : ∀ n ∈ l, n ∈ counted freq) (hf : s.fault = false) (hv : s.fvalid = false)
    (h0 : ∀ b : Symbol, b.toNat ∈ l → s.freqAt b = 0) :
    ∃ t, session (l.map (loadEntry freq)) s = .next t ∧ t = { s with freq := t.freq, rsp := t.rsp } ∧
      ∀ b : Symbol, t.freqAt b = if b.toNat ∈ l then freq[b.toNat]?.getD 0 else s.freqAt b := by
  induction l generalizing s with
  | nil => exact ⟨s, rfl, rfl, fun b => by simp⟩
  | cons n l ih =>
    obtain ⟨hnl, hnodup⟩ := List.nodup_cons.1 hnodup
    obtain ⟨hn, hcount⟩ := mem_counted.1 (hl n List.mem_cons_self)
    have hn8 : (BitVec.ofNat 8 n : Symbol).toNat = n := toNat_ofNat_symbol hn
    have hb : ∀ b : Symbol, b = BitVec.ofNat 8 n ↔ b.toNat = n := fun b => by rw [← BitVec.toNat_inj, hn8]
    have hload : exec (loadEntry freq n) s =
        .next { s.setFreq (BitVec.ofNat 8 n) (freq[n]?.getD 0) with rsp := 0 } :=
      floadStoresTheCount s _ _ hf hv hcount (h0 _ (by rw [hn8]; exact List.mem_cons_self))
    obtain ⟨t, hsession, hframe, hfreq⟩ := ih
      (s := { s.setFreq (BitVec.ofNat 8 n) (freq[n]?.getD 0) with rsp := 0 }) hnodup
      (fun m hm => hl m (List.mem_cons_of_mem n hm)) hf hv fun b hbl => by
        have hbn : b ≠ BitVec.ofNat 8 n := fun e => hnl ((hb b).1 e ▸ hbl)
        exact (freqAt_setFreq ..).trans ((if_neg hbn).trans (h0 b (List.mem_cons_of_mem n hbl)))
    refine ⟨t, ?_, hframe, fun b => ?_⟩
    · rw [List.map_cons, session_cons_of_next hload, hsession]
    · have hset : State.freqAt { s.setFreq (BitVec.ofNat 8 n) (freq[n]?.getD 0) with rsp := 0 } b = _ :=
        freqAt_setFreq s (BitVec.ofNat 8 n) b (freq[n]?.getD 0)
      rw [hfreq, hset]
      by_cases hbn : b.toNat = n
      · simp [hbn, hnl, hb]
      · simp [hbn, hb]

/-- Loading a whole map into a cleared core (R132, R324). -/
theorem session_loadCommands {freq : Vector Count Config.numSymbols} (hf : s.fault = false) (hv : s.fvalid = false)
    (h0 : ∀ b, s.freqAt b = 0) :
    ∃ t, session (loadCommands freq) s = .next t ∧ t = { s with freq := freq, rsp := t.rsp } := by
  obtain ⟨t, hsession, hframe, hfreq⟩ :=
    session_loadEntry (counted_nodup freq) (fun _ hn => hn) hf hv fun b _ => h0 b
  have hall : t.freq = freq := by
    refine Vector.ext fun n hn => ?_
    have hn8 : (BitVec.ofNat 8 n : Symbol).toNat = n := toNat_ofNat_symbol hn
    have hat := hfreq (BitVec.ofNat 8 n)
    rw [freqAt_eq_getD, hn8, h0, Vector.getElem?_eq_getElem hn, Vector.getElem?_eq_getElem hn] at hat
    by_cases hc : n ∈ counted freq
    · simpa [hc] using hat
    · have hz : freq[n] = 0 := by simpa [mem_counted, hn] using hc
      simpa [hc, hz] using hat
  refine ⟨t, by rw [loadCommands_eq, hsession], ?_⟩
  rw [hall] at hframe
  exact hframe

/-! ### The round trip -/

/-- The decode side: `CLR`, the counters of `t`, and `DECODE` of the stream of `S` in the codes of `t` (R231, R235,
R324). -/
theorem session_decode_of_codeStream (htree : TreeOf t) (hcodes : CodesOf t) (hS : ∀ b ∈ S, (t.codeAt b).len ≠ 0)
    (hio : NoIoFailure s) (hdsnk : s.dsnk = ⟨[], .opened⟩) (hbsrc : s.bsrc = ⟨codeStream t S, 0⟩) :
    ∃ u, session ([.clr] ++ loadCommands t.freq ++ [.decode]) s = .next u ∧ u.dsnk = ⟨S, .finalized⟩ ∧
      u.ptr = u.root ∧ u.rsp = 0 := by
  have hclr : exec .clr s = .next (respond okCode 0 (coreClear s)) := rfl
  obtain ⟨w, hload, hw⟩ := session_loadCommands (s := respond okCode 0 (coreClear s)) (freq := t.freq) rfl rfl
    (coreClear_freqAt s)
  obtain ⟨u, hdecode, hu⟩ := exec_decode_of_codeStream (s := w) htree hcodes hS (by rw [hw]) (by rw [hw]; rfl)
    (by rw [hw]; rfl) (by rw [hw]; rfl) (by rw [hw]; rfl) (hio.of_draws_eq (by rw [hw]; rfl)) (by rw [hw]; exact hdsnk)
    (by rw [hw]; exact hbsrc)
  refine ⟨u, ?_, hu⟩
  rw [List.append_assoc, List.singleton_append, session_cons_of_next hclr, session_append_of_next _ hload,
    session_cons_of_next hdecode, session]

/-- Settles O52: the encode run leaves the input's counters, their codes and the input's stream in them (O48), and the
decode side gives the input back from these (`session_decode_of_codeStream`). -/
theorem roundTripIsExact : Obligations.RoundTripIsExact := by
  intro s S hf hio hne hc
  obtain ⟨t, hencode, hcount, htree, hcodes, hbsnk, ht⟩ :=
    encodeRunsTheWholePipeline (attachBsnk (attachSrc S s)) hf hio rfl hne hc
  have hS : ∀ b ∈ S, (t.codeAt b).len ≠ 0 := fun b hb =>
    (hcodes.len_ne_zero_iff htree).2 (freqAt_ne_zero_of_mem (hcount b) hb)
  have hbits : t.bsnk.bits = codeStream t S := by rw [hbsnk]; rfl
  have hdraws : NoIoFailure t := hio.of_draws_drop (congrArg State.draws ht)
  obtain ⟨u, hdecode, hdsnk, hptr, hrsp⟩ := session_decode_of_codeStream (s := attachBsrc t.bsnk.bits (attachDsnk t))
    htree hcodes hS hdraws rfl (by rw [hbits]; rfl)
  exact ⟨t, u, hencode, by rw [ht], hdecode, hrsp, hdsnk, hptr⟩

end Sys2Proof.Machine
end

section
/-! Taking a fault and leaving it (R284 to R288, R292): the fault entry, the words refused while `FAULT = 1`, and the two
ways out. -/

namespace Sys2Proof.Machine

open Sys2Proof.Safety

variable {s t : State} {w : CmdWord}

/-! ### The fault entry -/

/-- A fault entry that ends with `FAULT = 1` has run to its end: a reset in it would have cleared `FAULT` (R286, R320). -/
theorem takeFault_eq_faulted_of_fault {c : ErrCode} {info : BitVec 16} (h : (takeFault c info s).fault = true) :
    takeFault c info s = faulted c info s := by
  obtain he | ⟨-, he⟩ | ⟨-, he⟩ := takeFault_cases c info s
  · exact he
  · rw [he] at h
    cases h
  · rw [he] at h
    cases h

/-- Both sinks have in `t` the modes they have in `s`. -/
def SinkModesKept (s t : State) : Prop := t.bsnk.mode = s.bsnk.mode ∧ t.dsnk.mode = s.dsnk.mode

theorem SinkModesKept.refl (s : State) : SinkModesKept s s := ⟨rfl, rfl⟩

/-- A body that runs to its end leaves `FAULT = 0`, and one that faults has left the modes of the sinks as they were: the
finalize is its last port call (R193, R215). -/
theorem bodyOf_sinkModesKept {i : Instr} {b : Body} (hf : s.fault = false) (hb : bodyOf i s = some b) :
    b.Post (fun t => t.fault = false) (SinkModesKept s) (fun _ => True) True := by
  cases i with
  | clr | stat | fread _ | cread _ _ => cases hb
  | rewind =>
    cases hb
    exact srcRewind_post.ends (by rintro t rfl; exact hf) (by rintro t rfl; exact .refl s)
  | facc =>
    cases hb
    exact faccBody_post.ends (by rintro t ⟨u, ⟨f, p, d, rfl, -⟩, rfl, -⟩; exact hf)
      (by rintro t ⟨f, p, d, rfl, -⟩; exact .refl s)
  | fload sym count =>
    cases hb
    exact floadBody_post.ends (by rintro t rfl; exact hf) (by rintro t rfl; exact .refl t)
  | tbuild =>
    cases hb
    exact tbuildBody_frame.ends (fun t ht => by rw [ht]; exact hf) (fun t ht => by rw [ht]; exact .refl s)
  | cgen =>
    cases hb
    exact cgenBody_post.ends (fun t ⟨_, ht⟩ => by rw [ht]; exact hf) (fun _ => False.elim)
  | benc =>
    cases hb
    exact bencBody_post.ends (by rintro t ⟨u, ⟨w, p, d, rfl, -⟩, -, -, rfl⟩; exact hf)
      (by rintro t ⟨w, p, d, rfl, -⟩; exact .refl s)
  | bdec =>
    cases hb
    exact bdecBody_post.ends (by rintro t ⟨u, ⟨q, w, p, d, rfl, -⟩, -, -, -, rfl⟩; exact hf)
      (by rintro t ⟨q, w, p, d, rfl, -⟩; exact .refl s)
  | encode =>
    cases hb
    exact encodeBody_post.ends (by rintro t ⟨-, -, -, w, d, -, ht⟩; rw [ht]; rfl)
      (by rintro t ⟨w, p, d, ht, -⟩; rw [ht]; exact .refl s)
  | decode =>
    cases hb
    exact (decodeBody_post (S := True) (.inl trivial)).ends (by rintro t ⟨-, -, -, w, d, -, ht⟩; rw [ht]; exact hf)
      (by rintro t ⟨w, p, d, ht, -⟩; rw [ht]; exact .refl s)

/-- A command that ends with `FAULT = 1` ends in a fault entry from a state with the sinks' modes of the start. -/
theorem exec_eq_faulted {i : Instr} (hf : s.fault = false) (h : exec i s = .next t) (ht : t.fault = true) :
    ∃ c info u, c ≠ .efaulted ∧ SinkModesKept s u ∧ t = faulted c info u := by
  have hs : ¬ s.fault = true := ne_true_of_eq_false hf
  obtain ⟨-, rfl⟩ | ⟨-, rfl⟩ | ⟨-, -, hs', -⟩ | ⟨-, -, rfl⟩ | ⟨-, -, v, -, rfl⟩ | ⟨-, -, b, hb, hend⟩ :=
    exec_next_cases h
  · cases ht
  · exact absurd ht hs
  · exact absurd hs' hs
  · exact ⟨.eseq, zextInfo i.opcode, s, by decide, .refl s, takeFault_eq_faulted_of_fault ht⟩
  · exact absurd ht hs
  · obtain ⟨u, hu, rfl⟩ | ⟨c, info, u, hc, hu, rfl⟩ | ⟨u, -, rfl⟩ := (bodyOf_sinkModesKept hf hb).finish hend
    · exact absurd ht (ne_true_of_eq_false hu)
    · exact ⟨c, info, u, hc, hu, takeFault_eq_faulted_of_fault ht⟩
    · cases ht

/-- Settles O11: a command that ends with `FAULT = 1` ends in a fault entry that has run to its end (`exec_eq_faulted`); a
reset in the entry ends it before or between its aborts. -/
theorem everyFaultIsRecordedAndAbortsSinks : Obligations.EveryFaultIsRecordedAndAbortsSinks := by
  constructor
  · intro i s t hf h ht
    obtain ⟨c, info, u, hc, ⟨hbsnk, hdsnk⟩, rfl⟩ := exec_eq_faulted hf h ht
    exact ⟨ErrCode.code_mem_recordedCodes hc, rfl, by rw [← hbsnk, faulted_bsnk], by rw [← hdsnk, faulted_dsnk]⟩
  · intro c info s
    exact ⟨takeFault_of_reset_at (s := s) (n := 0) c info rfl,
      takeFault_of_reset_between_aborts (s := s) (n := 0) c info rfl⟩

/-- Settles O10: each broken precondition makes `State.ready` false, and the dispatch then takes ESEQ. -/
theorem brokenPreconditionFaults : Obligations.BrokenPreconditionFaults := by
  intro i s hf ha hbroken
  have hr : s.ready i = false := by
    cases i with
    | clr | stat | rewind | encode => exact hbroken.elim
    | facc | fload _ _ | fread _ | tbuild | cread _ _ => simpa [State.ready] using hbroken
    | cgen | benc | bdec | decode => obtain h | h := hbroken <;> simp [State.ready, h]
  rw [exec_of_not_ready hf hr, takeFault_eq _ _ ha]
  rfl

theorem decode_eq_none_of_not_wellFormed (h : wellFormed w = false) : decode w = none := by
  rwa [← decodesExactlyWhenWellFormed, Option.isSome_eq_false_iff, Option.isNone_iff_eq_none] at h

/-- Settles O9: a word that does not decode takes EILLEGAL in a fault entry that runs to its end. -/
theorem illegalWordFaults : Obligations.IllegalWordFaults := by
  intro s w hf hw ha
  rw [issue_of_decode_none (decode_eq_none_of_not_wellFormed hw), illegalWord, hf, takeFault_eq _ _ ha]
  rfl

/-! ### The faulted state -/

/-- While `FAULT = 1` every word but a well-formed `CLR` or `STAT` is refused (R111, R287). -/
theorem issue_of_fault (hf : s.fault = true) (hclr : decode w ≠ some .clr) (hstat : decode w ≠ some .stat) :
    issue w s = .next (refuseFaulted s) := by
  cases hd : decode w with
  | none => rw [issue_of_decode_none hd, illegalWord, if_pos hf]
  | some i =>
    rw [hd] at hclr hstat
    rw [issue_of_decode_some hd, exec_of_fault hf (hclr ∘ congrArg some) (hstat ∘ congrArg some)]

/-- Settles O8: the refusal answers EFAULTED and changes nothing else. -/
theorem faultedCoreRefuses : Obligations.FaultedCoreRefuses := fun _ _ hf hclr hstat => issue_of_fault hf hclr hstat

/-- The only word that clears `FAULT` is that of `CLR` (R105, R292). -/
theorem issue_leaves_fault (hf : s.fault = true) (h : issue w s = .next t) (ht : t.fault = false) :
    w = encode .clr ∧ t = returnFromFault s := by
  have hs : ¬ s.fault = false := ne_false_of_eq_true hf
  by_cases hclr : decode w = some .clr
  · rw [issue_of_decode_some hclr] at h
    cases h
    exact ⟨(decodedWordIsTheEncoding w .clr hclr).symm, rfl⟩
  · by_cases hstat : decode w = some .stat
    · rw [issue_of_decode_some hstat] at h
      cases h
      exact absurd ht hs
    · rw [issue_of_fault hf hclr hstat] at h
      cases h
      exact absurd ht hs

/-- Settles O12: waiting, the attachments and every word but that of `CLR` leave `FAULT` as it was. -/
theorem onlyClrOrResetLeavesFault : Obligations.OnlyClrOrResetLeavesFault := by
  intro s t hf h ht
  have hs : ¬ s.fault = false := ne_false_of_eq_true hf
  cases hh : s.host with
  | nil =>
    rw [step_of_host_nil hh] at h
    cases h
    exact absurd ht hs
  | cons m rest =>
    rw [step_of_host_cons hh] at h
    cases m with
    | command w =>
      obtain ⟨rfl, rfl⟩ := issue_leaves_fault (s := { s with host := rest }) hf h ht
      exact ⟨.inl rfl, rfl⟩
    | reset =>
      cases h
      exact ⟨.inr rfl, rfl⟩
    | attachSrc _ | attachBsrc _ | attachBsnk | attachDsnk =>
      cases h
      exact absurd ht hs

end Sys2Proof.Machine
end
